-- ==== Sys2Proof/Word.lean ====
section
/-! DEFINITION. The word types of the machine (00_scope.md R6, R8, R9). -/

namespace Sys2Proof

/-- A register value, an address, a pc value or an instruction word: 32 bits (R6, R9, R54). -/
abbrev Word := BitVec 32

/-- One byte of the memory image (R30). -/
abbrev Byte := BitVec 8

/-- A register number, the 5-bit field `rd`, `rs1` or `rs2` of an instruction (R54): it names `x0` to `x31`. -/
abbrev RegIdx := BitVec 5

end Sys2Proof
end

