-- ==== Sys2Proof/Machine/Flags.lean ====
section
/-! DEFINITION. This hardware has no flags (10_state.md R26): a comparison decides a branch or writes 0 or 1 to a
register. These are the comparisons (00_scope.md R9). -/

namespace Sys2Proof.Machine

/-- `s(a) < s(b)` (R9). -/
def lessSigned (a b : Word) : Bool := a.slt b

/-- `u(a) < u(b)` (R9). -/
def lessUnsigned (a b : Word) : Bool := a.ult b

/-- `cond ? 1 : 0` (R138, R139, R147, R148). -/
def boolWord (c : Bool) : Word := if c then 1#32 else 0#32

end Sys2Proof.Machine
end

