-- ==== Sys2Proof/Syntax.lean ====
section
/-! DEFINITION. The 37 instructions: one constructor per row of spec/opcode_table.json (30_encoding.md R57, R67). -/

namespace Sys2Proof

/-- A decoded instruction with the operand fields of its format (R67). `imm12` is the 12-bit immediate field,
`imm13` and `imm21` are the byte offsets of branches and `jal` with their implicit zero bit 0 (R56), `imm20` is the
20-bit field of the upper-immediate format. -/
inductive Instr where
  -- R format, opcode 0x33 (R59)
  | add (rd rs1 rs2 : RegIdx)
  | sub (rd rs1 rs2 : RegIdx)
  | sll (rd rs1 rs2 : RegIdx)
  | slt (rd rs1 rs2 : RegIdx)
  | sltu (rd rs1 rs2 : RegIdx)
  | xor (rd rs1 rs2 : RegIdx)
  | srl (rd rs1 rs2 : RegIdx)
  | sra (rd rs1 rs2 : RegIdx)
  | or (rd rs1 rs2 : RegIdx)
  | and (rd rs1 rs2 : RegIdx)
  -- I format, opcode 0x13 (R60)
  | addi (rd rs1 : RegIdx) (imm12 : BitVec 12)
  | slti (rd rs1 : RegIdx) (imm12 : BitVec 12)
  | sltiu (rd rs1 : RegIdx) (imm12 : BitVec 12)
  | xori (rd rs1 : RegIdx) (imm12 : BitVec 12)
  | ori (rd rs1 : RegIdx) (imm12 : BitVec 12)
  | andi (rd rs1 : RegIdx) (imm12 : BitVec 12)
  -- I-shift format, opcode 0x13 (R60)
  | slli (rd rs1 : RegIdx) (shamt : BitVec 5)
  | srli (rd rs1 : RegIdx) (shamt : BitVec 5)
  | srai (rd rs1 : RegIdx) (shamt : BitVec 5)
  -- loads, I format, opcode 0x03 (R61)
  | lb (rd rs1 : RegIdx) (imm12 : BitVec 12)
  | lh (rd rs1 : RegIdx) (imm12 : BitVec 12)
  | lw (rd rs1 : RegIdx) (imm12 : BitVec 12)
  | lbu (rd rs1 : RegIdx) (imm12 : BitVec 12)
  | lhu (rd rs1 : RegIdx) (imm12 : BitVec 12)
  -- stores, S format, opcode 0x23 (R62)
  | sb (rs1 rs2 : RegIdx) (imm12 : BitVec 12)
  | sh (rs1 rs2 : RegIdx) (imm12 : BitVec 12)
  | sw (rs1 rs2 : RegIdx) (imm12 : BitVec 12)
  -- branches, B format, opcode 0x63 (R63)
  | beq (rs1 rs2 : RegIdx) (imm13 : BitVec 13)
  | bne (rs1 rs2 : RegIdx) (imm13 : BitVec 13)
  | blt (rs1 rs2 : RegIdx) (imm13 : BitVec 13)
  | bge (rs1 rs2 : RegIdx) (imm13 : BitVec 13)
  | bltu (rs1 rs2 : RegIdx) (imm13 : BitVec 13)
  | bgeu (rs1 rs2 : RegIdx) (imm13 : BitVec 13)
  -- jumps: J format, opcode 0x6F, and I format, opcode 0x67 (R64)
  | jal (rd : RegIdx) (imm21 : BitVec 21)
  | jalr (rd rs1 : RegIdx) (imm12 : BitVec 12)
  -- U format, opcodes 0x37 and 0x17 (R65)
  | lui (rd : RegIdx) (imm20 : BitVec 20)
  | auipc (rd : RegIdx) (imm20 : BitVec 20)
  deriving DecidableEq, Repr

end Sys2Proof
end

