-- ==== Sys2Proof/WellFormed.lean ====
section
/-! DEFINITION. Which instruction terms an encoding exists for: the field widths are in the types, and the offsets of
branches and `jal` are even (30_encoding.md R56). -/

namespace Sys2Proof

/-- A branch offset is encodable when its implicit bit 0 is zero (R56, B format). -/
def branchOffsetOk (imm13 : BitVec 13) : Bool := !imm13.getLsbD 0

/-- A `jal` offset is encodable when its implicit bit 0 is zero (R56, J format). -/
def jalOffsetOk (imm21 : BitVec 21) : Bool := !imm21.getLsbD 0

/-- Every operand is one the instruction's format can encode (R55, R56). -/
def Instr.wellFormed : Instr → Bool
  | .add _ _ _ => true
  | .sub _ _ _ => true
  | .sll _ _ _ => true
  | .slt _ _ _ => true
  | .sltu _ _ _ => true
  | .xor _ _ _ => true
  | .srl _ _ _ => true
  | .sra _ _ _ => true
  | .or _ _ _ => true
  | .and _ _ _ => true
  | .addi _ _ _ => true
  | .slti _ _ _ => true
  | .sltiu _ _ _ => true
  | .xori _ _ _ => true
  | .ori _ _ _ => true
  | .andi _ _ _ => true
  | .slli _ _ _ => true
  | .srli _ _ _ => true
  | .srai _ _ _ => true
  | .lb _ _ _ => true
  | .lh _ _ _ => true
  | .lw _ _ _ => true
  | .lbu _ _ _ => true
  | .lhu _ _ _ => true
  | .sb _ _ _ => true
  | .sh _ _ _ => true
  | .sw _ _ _ => true
  | .beq _ _ imm13 => branchOffsetOk imm13
  | .bne _ _ imm13 => branchOffsetOk imm13
  | .blt _ _ imm13 => branchOffsetOk imm13
  | .bge _ _ imm13 => branchOffsetOk imm13
  | .bltu _ _ imm13 => branchOffsetOk imm13
  | .bgeu _ _ imm13 => branchOffsetOk imm13
  | .jal _ imm21 => jalOffsetOk imm21
  | .jalr _ _ _ => true
  | .lui _ _ => true
  | .auipc _ _ => true

end Sys2Proof
end

