-- ==== Sys2Proof/Decode.lean ====
section
/-! DEFINITION. Instruction fields, the total decoder, the encoder and the opcode table (30_encoding.md R54 to R71). -/

namespace Sys2Proof

/-- The name of each row of spec/opcode_table.json (R57, R66). -/
inductive Mnemonic where
  | add
  | sub
  | sll
  | slt
  | sltu
  | xor
  | srl
  | sra
  | or
  | and
  | addi
  | slti
  | sltiu
  | xori
  | ori
  | andi
  | slli
  | srli
  | srai
  | lb
  | lh
  | lw
  | lbu
  | lhu
  | sb
  | sh
  | sw
  | beq
  | bne
  | blt
  | bge
  | bltu
  | bgeu
  | jal
  | jalr
  | lui
  | auipc
  deriving DecidableEq, Repr

/-- The row an instruction belongs to. -/
def Instr.mnemonic : Instr → Mnemonic
  | .add _ _ _ => .add
  | .sub _ _ _ => .sub
  | .sll _ _ _ => .sll
  | .slt _ _ _ => .slt
  | .sltu _ _ _ => .sltu
  | .xor _ _ _ => .xor
  | .srl _ _ _ => .srl
  | .sra _ _ _ => .sra
  | .or _ _ _ => .or
  | .and _ _ _ => .and
  | .addi _ _ _ => .addi
  | .slti _ _ _ => .slti
  | .sltiu _ _ _ => .sltiu
  | .xori _ _ _ => .xori
  | .ori _ _ _ => .ori
  | .andi _ _ _ => .andi
  | .slli _ _ _ => .slli
  | .srli _ _ _ => .srli
  | .srai _ _ _ => .srai
  | .lb _ _ _ => .lb
  | .lh _ _ _ => .lh
  | .lw _ _ _ => .lw
  | .lbu _ _ _ => .lbu
  | .lhu _ _ _ => .lhu
  | .sb _ _ _ => .sb
  | .sh _ _ _ => .sh
  | .sw _ _ _ => .sw
  | .beq _ _ _ => .beq
  | .bne _ _ _ => .bne
  | .blt _ _ _ => .blt
  | .bge _ _ _ => .bge
  | .bltu _ _ _ => .bltu
  | .bgeu _ _ _ => .bgeu
  | .jal _ _ => .jal
  | .jalr _ _ _ => .jalr
  | .lui _ _ => .lui
  | .auipc _ _ => .auipc

/-- The result of decoding one word (R67): an instruction, or the spec's `Unknown(w)`, the rejection by name of every
word outside the 37 rows (R70). -/
inductive Decoded where
  | instr (i : Instr)
  | unknown (w : Word)
  deriving DecidableEq, Repr

/-! ## Fields of a word (R54) -/

def opcodeField (w : Word) : BitVec 7 := w.extractLsb' 0 7

def rdField (w : Word) : RegIdx := w.extractLsb' 7 5

def funct3Field (w : Word) : BitVec 3 := w.extractLsb' 12 3

def rs1Field (w : Word) : RegIdx := w.extractLsb' 15 5

/-- `w[24:20]`: register `rs2`, or the shift amount of the I-shift format (R55). -/
def rs2Field (w : Word) : RegIdx := w.extractLsb' 20 5

def funct7Field (w : Word) : BitVec 7 := w.extractLsb' 25 7

/-! ## Immediate fields of a word (R55, R56), before extension -/

/-- I format: `w[31:20]`. -/
def immI (w : Word) : BitVec 12 := w.extractLsb' 20 12

/-- S format: `w[31:25] ++ w[11:7]`. -/
def immS (w : Word) : BitVec 12 := (w.extractLsb' 25 7 ++ w.extractLsb' 7 5).cast (by decide)

/-- B format: `w[31] ++ w[7] ++ w[30:25] ++ w[11:8] ++ 0b0`. -/
def immB (w : Word) : BitVec 13 :=
  (w.extractLsb' 31 1 ++ w.extractLsb' 7 1 ++ w.extractLsb' 25 6 ++ w.extractLsb' 8 4 ++ 0b0#1).cast (by decide)

/-- J format: `w[31] ++ w[19:12] ++ w[20] ++ w[30:21] ++ 0b0`. -/
def immJ (w : Word) : BitVec 21 :=
  (w.extractLsb' 31 1 ++ w.extractLsb' 12 8 ++ w.extractLsb' 20 1 ++ w.extractLsb' 21 10 ++ 0b0#1).cast (by decide)

/-- U format: `w[31:12]`. -/
def immU (w : Word) : BitVec 20 := w.extractLsb' 12 20

/-! ## The decoder, one function per major opcode (R58), strict in every fixed field (R68) -/

/-- OP, opcode 0x33 (R59). -/
def decodeOp (w : Word) : Option Instr :=
  if funct7Field w = 0b0000000#7 then
    match (funct3Field w).toNat with
    | 0 => some (.add (rdField w) (rs1Field w) (rs2Field w))
    | 1 => some (.sll (rdField w) (rs1Field w) (rs2Field w))
    | 2 => some (.slt (rdField w) (rs1Field w) (rs2Field w))
    | 3 => some (.sltu (rdField w) (rs1Field w) (rs2Field w))
    | 4 => some (.xor (rdField w) (rs1Field w) (rs2Field w))
    | 5 => some (.srl (rdField w) (rs1Field w) (rs2Field w))
    | 6 => some (.or (rdField w) (rs1Field w) (rs2Field w))
    | 7 => some (.and (rdField w) (rs1Field w) (rs2Field w))
    | _ => none
  else if funct7Field w = 0b0100000#7 then
    match (funct3Field w).toNat with
    | 0 => some (.sub (rdField w) (rs1Field w) (rs2Field w))
    | 5 => some (.sra (rdField w) (rs1Field w) (rs2Field w))
    | _ => none
  else none

/-- OP-IMM, opcode 0x13 (R60). -/
def decodeOpImm (w : Word) : Option Instr :=
  match (funct3Field w).toNat with
  | 0 => some (.addi (rdField w) (rs1Field w) (immI w))
  | 1 => if funct7Field w = 0b0000000#7 then some (.slli (rdField w) (rs1Field w) (rs2Field w)) else none
  | 2 => some (.slti (rdField w) (rs1Field w) (immI w))
  | 3 => some (.sltiu (rdField w) (rs1Field w) (immI w))
  | 4 => some (.xori (rdField w) (rs1Field w) (immI w))
  | 5 =>
    if funct7Field w = 0b0000000#7 then some (.srli (rdField w) (rs1Field w) (rs2Field w))
    else if funct7Field w = 0b0100000#7 then some (.srai (rdField w) (rs1Field w) (rs2Field w))
    else none
  | 6 => some (.ori (rdField w) (rs1Field w) (immI w))
  | 7 => some (.andi (rdField w) (rs1Field w) (immI w))
  | _ => none

/-- LOAD, opcode 0x03 (R61). -/
def decodeLoad (w : Word) : Option Instr :=
  match (funct3Field w).toNat with
  | 0 => some (.lb (rdField w) (rs1Field w) (immI w))
  | 1 => some (.lh (rdField w) (rs1Field w) (immI w))
  | 2 => some (.lw (rdField w) (rs1Field w) (immI w))
  | 4 => some (.lbu (rdField w) (rs1Field w) (immI w))
  | 5 => some (.lhu (rdField w) (rs1Field w) (immI w))
  | _ => none

/-- STORE, opcode 0x23 (R62). -/
def decodeStore (w : Word) : Option Instr :=
  match (funct3Field w).toNat with
  | 0 => some (.sb (rs1Field w) (rs2Field w) (immS w))
  | 1 => some (.sh (rs1Field w) (rs2Field w) (immS w))
  | 2 => some (.sw (rs1Field w) (rs2Field w) (immS w))
  | _ => none

/-- BRANCH, opcode 0x63 (R63). -/
def decodeBranch (w : Word) : Option Instr :=
  match (funct3Field w).toNat with
  | 0 => some (.beq (rs1Field w) (rs2Field w) (immB w))
  | 1 => some (.bne (rs1Field w) (rs2Field w) (immB w))
  | 4 => some (.blt (rs1Field w) (rs2Field w) (immB w))
  | 5 => some (.bge (rs1Field w) (rs2Field w) (immB w))
  | 6 => some (.bltu (rs1Field w) (rs2Field w) (immB w))
  | 7 => some (.bgeu (rs1Field w) (rs2Field w) (immB w))
  | _ => none

/-- JALR, opcode 0x67, which requires funct3 = 000 (R64). -/
def decodeJalr (w : Word) : Option Instr :=
  if funct3Field w = 0b000#3 then some (.jalr (rdField w) (rs1Field w) (immI w)) else none

/-- Selection by major opcode (R58); every other opcode selects no instruction. -/
def decodeInstr (w : Word) : Option Instr :=
  match (opcodeField w).toNat with
  | 0x33 => decodeOp w
  | 0x13 => decodeOpImm w
  | 0x03 => decodeLoad w
  | 0x23 => decodeStore w
  | 0x63 => decodeBranch w
  | 0x6F => some (.jal (rdField w) (immJ w))
  | 0x67 => decodeJalr w
  | 0x37 => some (.lui (rdField w) (immU w))
  | 0x17 => some (.auipc (rdField w) (immU w))
  | _ => none

/-- `decode(w)` (R67): total, with `Unknown(w)` for every word that selects no instruction. -/
def decode (w : Word) : Decoded :=
  match decodeInstr w with
  | some i => .instr i
  | none => .unknown w

/-! ## Decoding bytes -/

/-- The result of decoding a list of bytes: an instruction with the bytes after it, or a rejection by name. -/
inductive BytesDecoded where
  /-- The first four bytes are an instruction. -/
  | instr (i : Instr) (rest : List Byte)
  /-- The first four bytes are a word outside the 37 rows (R70). -/
  | unknown (w : Word) (rest : List Byte)
  /-- Fewer than four bytes: there is no shorter instruction (R54, R69). -/
  | truncated
  deriving DecidableEq, Repr

/-- Little-endian word of four bytes, the first at the lowest address (R40). -/
def wordOfBytes (b0 b1 b2 b3 : Byte) : Word := (b3 ++ b2 ++ b1 ++ b0).cast (by decide)

/-- Byte `k` of a word in little-endian order (R39, R40). -/
def wordByte (w : Word) (k : Nat) : Byte := w.extractLsb' (8 * k) 8

/-- The four bytes of a word, lowest address first (R40). -/
def bytesOfWord (w : Word) : List Byte := [wordByte w 0, wordByte w 1, wordByte w 2, wordByte w 3]

/-- The decoder on bytes: it always reads four (R69). -/
def decodeBytes : List Byte → BytesDecoded
  | b0 :: b1 :: b2 :: b3 :: rest =>
    match decode (wordOfBytes b0 b1 b2 b3) with
    | .instr i => .instr i rest
    | .unknown w => .unknown w rest
  | _ => .truncated

/-- The instruction the decoder reads from the bytes of a table word; bits from `nbits` up are 0. -/
def decodeTableWord (nbits w : Nat) : Option Instr :=
  match decodeBytes (bytesOfWord (BitVec.ofNat 32 (w % 2 ^ nbits))) with
  | .instr i _ => some i
  | .unknown _ _ => none
  | .truncated => none

/-! ## The encoder (R55, R56, R100): the six formats, bit 31 on the left -/

/-- R format, and the I-shift format with the shift amount in place of `rs2`. -/
def encodeR (funct7 : BitVec 7) (funct3 : BitVec 3) (opcode : BitVec 7) (rd rs1 rs2 : RegIdx) : Word :=
  (funct7 ++ rs2 ++ rs1 ++ funct3 ++ rd ++ opcode).cast (by decide)

/-- I format. -/
def encodeI (funct3 : BitVec 3) (opcode : BitVec 7) (rd rs1 : RegIdx) (imm12 : BitVec 12) : Word :=
  (imm12 ++ rs1 ++ funct3 ++ rd ++ opcode).cast (by decide)

/-- S format: `w[31:25] = imm[11:5]`, `w[11:7] = imm[4:0]`. -/
def encodeS (funct3 : BitVec 3) (opcode : BitVec 7) (rs1 rs2 : RegIdx) (imm12 : BitVec 12) : Word :=
  (imm12.extractLsb' 5 7 ++ rs2 ++ rs1 ++ funct3 ++ imm12.extractLsb' 0 5 ++ opcode).cast (by decide)

/-- B format: `w[31] = imm[12]`, `w[30:25] = imm[10:5]`, `w[11:8] = imm[4:1]`, `w[7] = imm[11]`. -/
def encodeB (funct3 : BitVec 3) (opcode : BitVec 7) (rs1 rs2 : RegIdx) (imm13 : BitVec 13) : Word :=
  (imm13.extractLsb' 12 1 ++ imm13.extractLsb' 5 6 ++ rs2 ++ rs1 ++ funct3 ++ imm13.extractLsb' 1 4 ++
    imm13.extractLsb' 11 1 ++ opcode).cast (by decide)

/-- U format: `w[31:12] = imm20`. -/
def encodeU (opcode : BitVec 7) (rd : RegIdx) (imm20 : BitVec 20) : Word := (imm20 ++ rd ++ opcode).cast (by decide)

/-- J format: `w[31] = imm[20]`, `w[30:21] = imm[10:1]`, `w[20] = imm[11]`, `w[19:12] = imm[19:12]`. -/
def encodeJ (opcode : BitVec 7) (rd : RegIdx) (imm21 : BitVec 21) : Word :=
  (imm21.extractLsb' 20 1 ++ imm21.extractLsb' 1 10 ++ imm21.extractLsb' 11 1 ++ imm21.extractLsb' 12 8 ++ rd ++
    opcode).cast (by decide)

/-- The word of an instruction (R100); for a well-formed one `decode` reads it back. -/
def encode : Instr → Word
  | .add rd rs1 rs2 => encodeR 0b0000000#7 0b000#3 0x33#7 rd rs1 rs2
  | .sub rd rs1 rs2 => encodeR 0b0100000#7 0b000#3 0x33#7 rd rs1 rs2
  | .sll rd rs1 rs2 => encodeR 0b0000000#7 0b001#3 0x33#7 rd rs1 rs2
  | .slt rd rs1 rs2 => encodeR 0b0000000#7 0b010#3 0x33#7 rd rs1 rs2
  | .sltu rd rs1 rs2 => encodeR 0b0000000#7 0b011#3 0x33#7 rd rs1 rs2
  | .xor rd rs1 rs2 => encodeR 0b0000000#7 0b100#3 0x33#7 rd rs1 rs2
  | .srl rd rs1 rs2 => encodeR 0b0000000#7 0b101#3 0x33#7 rd rs1 rs2
  | .sra rd rs1 rs2 => encodeR 0b0100000#7 0b101#3 0x33#7 rd rs1 rs2
  | .or rd rs1 rs2 => encodeR 0b0000000#7 0b110#3 0x33#7 rd rs1 rs2
  | .and rd rs1 rs2 => encodeR 0b0000000#7 0b111#3 0x33#7 rd rs1 rs2
  | .addi rd rs1 imm12 => encodeI 0b000#3 0x13#7 rd rs1 imm12
  | .slti rd rs1 imm12 => encodeI 0b010#3 0x13#7 rd rs1 imm12
  | .sltiu rd rs1 imm12 => encodeI 0b011#3 0x13#7 rd rs1 imm12
  | .xori rd rs1 imm12 => encodeI 0b100#3 0x13#7 rd rs1 imm12
  | .ori rd rs1 imm12 => encodeI 0b110#3 0x13#7 rd rs1 imm12
  | .andi rd rs1 imm12 => encodeI 0b111#3 0x13#7 rd rs1 imm12
  | .slli rd rs1 shamt => encodeR 0b0000000#7 0b001#3 0x13#7 rd rs1 shamt
  | .srli rd rs1 shamt => encodeR 0b0000000#7 0b101#3 0x13#7 rd rs1 shamt
  | .srai rd rs1 shamt => encodeR 0b0100000#7 0b101#3 0x13#7 rd rs1 shamt
  | .lb rd rs1 imm12 => encodeI 0b000#3 0x03#7 rd rs1 imm12
  | .lh rd rs1 imm12 => encodeI 0b001#3 0x03#7 rd rs1 imm12
  | .lw rd rs1 imm12 => encodeI 0b010#3 0x03#7 rd rs1 imm12
  | .lbu rd rs1 imm12 => encodeI 0b100#3 0x03#7 rd rs1 imm12
  | .lhu rd rs1 imm12 => encodeI 0b101#3 0x03#7 rd rs1 imm12
  | .sb rs1 rs2 imm12 => encodeS 0b000#3 0x23#7 rs1 rs2 imm12
  | .sh rs1 rs2 imm12 => encodeS 0b001#3 0x23#7 rs1 rs2 imm12
  | .sw rs1 rs2 imm12 => encodeS 0b010#3 0x23#7 rs1 rs2 imm12
  | .beq rs1 rs2 imm13 => encodeB 0b000#3 0x63#7 rs1 rs2 imm13
  | .bne rs1 rs2 imm13 => encodeB 0b001#3 0x63#7 rs1 rs2 imm13
  | .blt rs1 rs2 imm13 => encodeB 0b100#3 0x63#7 rs1 rs2 imm13
  | .bge rs1 rs2 imm13 => encodeB 0b101#3 0x63#7 rs1 rs2 imm13
  | .bltu rs1 rs2 imm13 => encodeB 0b110#3 0x63#7 rs1 rs2 imm13
  | .bgeu rs1 rs2 imm13 => encodeB 0b111#3 0x63#7 rs1 rs2 imm13
  | .jal rd imm21 => encodeJ 0x6F#7 rd imm21
  | .jalr rd rs1 imm12 => encodeI 0b000#3 0x67#7 rd rs1 imm12
  | .lui rd imm20 => encodeU 0x37#7 rd imm20
  | .auipc rd imm20 => encodeU 0x17#7 rd imm20

/-! ## The opcode table (R66) -/

/-- One row of spec/opcode_table.json: a word `w` is that instruction exactly when `w &&& mask = pattern`. -/
structure OpcodeRow where
  mnemonic : Mnemonic
  mask : Word
  pattern : Word
  deriving DecidableEq, Repr

/-- `w & mask = match` (R66). -/
def OpcodeRow.selects (r : OpcodeRow) (w : Word) : Bool := w &&& r.mask == r.pattern

/-- Rows of opcode_table.json: R format (R59). -/
def rtypeRows : List OpcodeRow :=
  [ ⟨.add, 0xFE00707F#32, 0x00000033#32⟩
  , ⟨.sub, 0xFE00707F#32, 0x40000033#32⟩
  , ⟨.sll, 0xFE00707F#32, 0x00001033#32⟩
  , ⟨.slt, 0xFE00707F#32, 0x00002033#32⟩
  , ⟨.sltu, 0xFE00707F#32, 0x00003033#32⟩
  , ⟨.xor, 0xFE00707F#32, 0x00004033#32⟩
  , ⟨.srl, 0xFE00707F#32, 0x00005033#32⟩
  , ⟨.sra, 0xFE00707F#32, 0x40005033#32⟩
  , ⟨.or, 0xFE00707F#32, 0x00006033#32⟩
  , ⟨.and, 0xFE00707F#32, 0x00007033#32⟩ ]

/-- Rows of opcode_table.json: I and I-shift format (R60). -/
def itypeRows : List OpcodeRow :=
  [ ⟨.addi, 0x0000707F#32, 0x00000013#32⟩
  , ⟨.slti, 0x0000707F#32, 0x00002013#32⟩
  , ⟨.sltiu, 0x0000707F#32, 0x00003013#32⟩
  , ⟨.xori, 0x0000707F#32, 0x00004013#32⟩
  , ⟨.ori, 0x0000707F#32, 0x00006013#32⟩
  , ⟨.andi, 0x0000707F#32, 0x00007013#32⟩
  , ⟨.slli, 0xFE00707F#32, 0x00001013#32⟩
  , ⟨.srli, 0xFE00707F#32, 0x00005013#32⟩
  , ⟨.srai, 0xFE00707F#32, 0x40005013#32⟩ ]

/-- Rows of opcode_table.json: loads (R61). -/
def loadRows : List OpcodeRow :=
  [ ⟨.lb, 0x0000707F#32, 0x00000003#32⟩
  , ⟨.lh, 0x0000707F#32, 0x00001003#32⟩
  , ⟨.lw, 0x0000707F#32, 0x00002003#32⟩
  , ⟨.lbu, 0x0000707F#32, 0x00004003#32⟩
  , ⟨.lhu, 0x0000707F#32, 0x00005003#32⟩ ]

/-- Rows of opcode_table.json: stores (R62). -/
def storeRows : List OpcodeRow :=
  [ ⟨.sb, 0x0000707F#32, 0x00000023#32⟩
  , ⟨.sh, 0x0000707F#32, 0x00001023#32⟩
  , ⟨.sw, 0x0000707F#32, 0x00002023#32⟩ ]

/-- Rows of opcode_table.json: branches (R63). -/
def branchRows : List OpcodeRow :=
  [ ⟨.beq, 0x0000707F#32, 0x00000063#32⟩
  , ⟨.bne, 0x0000707F#32, 0x00001063#32⟩
  , ⟨.blt, 0x0000707F#32, 0x00004063#32⟩
  , ⟨.bge, 0x0000707F#32, 0x00005063#32⟩
  , ⟨.bltu, 0x0000707F#32, 0x00006063#32⟩
  , ⟨.bgeu, 0x0000707F#32, 0x00007063#32⟩ ]

/-- Rows of opcode_table.json: jumps and upper immediates (R64, R65). -/
def jumpAndUpperRows : List OpcodeRow :=
  [ ⟨.jal, 0x0000007F#32, 0x0000006F#32⟩
  , ⟨.jalr, 0x0000707F#32, 0x00000067#32⟩
  , ⟨.lui, 0x0000007F#32, 0x00000037#32⟩
  , ⟨.auipc, 0x0000007F#32, 0x00000017#32⟩ ]

/-- The complete table (R66): 37 rows. -/
def opcodeTable : List OpcodeRow :=
  rtypeRows ++ itypeRows ++ loadRows ++ storeRows ++ branchRows ++ jumpAndUpperRows

end Sys2Proof
end

