-- ==== Sys2Proof/Config.lean ====
section
/-! DEFINITION. The implementation parameters of 00_scope.md R6. -/

namespace Sys2Proof.Config

/-- CYCLE_CEILING: the number of steps after which the core is halted (R6, R129; D2 keeps it as a named parameter of
value 5000; log 2). -/
def cycleCeiling : Nat := 5000

/-- The constraint on MEM_SIZE (R6, D1): a multiple of 4 in `[768, 2^32]`. MEM_SIZE itself is OPEN: it is the field
`memSize` of `Machine.State`, and every statement quantifies over it. -/
def memSizeOk (n : Nat) : Bool := n % 4 == 0 && decide (768 ≤ n) && decide (n ≤ 2 ^ 32)

/-- DESIGN CHOICE (log 1): the value of `memSize` in `State.reset`, the size the spec's own test vectors use (D1). -/
def resetMemSize : Nat := 1024

/-- DATA_BASE: a software convention only; no definition of the machine reads it (R6, R47, D3). -/
def dataBase : Nat := 512

/-- DATA_MIN_SIZE: the least size of the conventional data region (R6, R47); no definition of the machine reads it. -/
def dataMinSize : Nat := 256

end Sys2Proof.Config
end

