-- ==== Sys2Proof/Machine/State.lean ====
section
/-! DEFINITION. The state of the core (10_state.md), the reasons a step or a command can stop, and the state after
reset (R35). -/

namespace Sys2Proof.Machine

/-- The memory image (R30) as the cells whose byte is not 0, addresses strictly rising (`Memory.wf`, in Ops). An
address that is not listed reads as 0, the value the spec gives every byte at construction and reset (R193, R194). -/
abbrev Memory := List Host.Cell

/-- The three kinds of warning with the information each records (R32, R178). -/
inductive Warning where
  /-- DecodeWarning: the fetched word decodes to `Unknown` (R123). -/
  | decode (word : Word)
  /-- FetchWarning: `u(pc) + 4 > MEM_SIZE` at fetch; no information (R122). -/
  | fetch
  /-- AccessWarning: a load or store with `u(ea) + n > MEM_SIZE` (R45, R46). -/
  | access (ea : Word)
  deriving DecidableEq, Repr

/-- One entry `(cycle, pc, kind, info)` of the warning record (R32); `warning` is the kind with its info. -/
structure WarningEntry where
  /-- The value of `cycles` before the step. -/
  cycle : BitVec 32
  /-- The value of `pc` before the step. -/
  pc : Word
  warning : Warning
  deriving DecidableEq, Repr

/-- The state of one core (10_state.md). -/
structure State where
  /-- The register file, `x0` to `x31` (R17); `readReg` and `writeReg` in Ops are its only accessors. -/
  regs : Vector Word 32
  /-- The program counter (R23). -/
  pc : Word
  /-- The memory image (R30). -/
  mem : Memory
  /-- The cycle counter (R28). -/
  cycles : BitVec 32
  /-- The warning record, oldest entry first (R32). -/
  warnings : List WarningEntry
  /-- MEM_SIZE, the parameter the spec leaves OPEN (R6, D1; log 1): no step and no command changes it. -/
  memSize : Nat
  deriving DecidableEq, Repr

/-- Reasons for a step to stop with a fault. There is none: "core execution never throws" (R128, R177). No constructor,
so no definition can raise one; safe (log 5). -/
inductive Fault where
  deriving DecidableEq, Repr

/-- Reasons for no transition. -/
inductive Refusal where
  /-- Raised by an arm of `exec` whose instruction has no meaning yet; no arm raises it now. Safe. -/
  | notModelled (mnemonic : String)
  /-- Raised by the host command `loadProgram` only, for a program of `words` words with `4 * words > MEM_SIZE`: the
  spec refuses it and leaves the state unchanged (R196, U11). Safe: the spec's own outcome. -/
  | programTooLarge (words : Nat)
  deriving DecidableEq, Repr

/-- Core construction with a memory image of `memSize` bytes (R193, R35): everything zero, no warning. -/
def State.construct (memSize : Nat) : State where
  regs := Vector.replicate 32 0#32
  pc := 0#32
  mem := []
  cycles := 0#32
  warnings := []
  memSize := memSize

/-- The state after reset (R35, R194), at the memory size of log 1. -/
def State.reset : State := State.construct Config.resetMemSize

end Sys2Proof.Machine
end

