-- ==== Sys2Proof/Machine/Ops.lean ====
section
/-! DEFINITION. The named operations over registers and memory, the warning step, and instruction fetch
(10_state.md, 20_memory.md, 40_core_cycle.md). -/

namespace Sys2Proof.Machine

/-! ## Registers -/

/-- `x[i]`: register 0 reads as 0 (R10, R18). -/
def readReg (s : State) (r : RegIdx) : Word := if r = 0#5 then 0#32 else s.regs[r.toNat]'r.isLt

/-- `x[i] <- v`: discarded for register 0 (R10, R18, R126). -/
def writeReg (s : State) (r : RegIdx) (v : Word) : State :=
  if r = 0#5 then s else { s with regs := s.regs.set r.toNat v r.isLt }

/-! ## The memory image, one byte at a time -/

/-- The byte at an address: 0 where nothing is listed (R30). -/
def Memory.read : Memory → Nat → Byte
  | [], _ => 0#8
  | (b, v) :: m, a => if a = b then v else Memory.read m a

/-- Write one byte, keeping the canonical form: a 0 is not listed. -/
def Memory.write : Memory → Nat → Byte → Memory
  | [], a, v => if v = 0#8 then [] else [(a, v)]
  | (b, w) :: m, a, v =>
    if a < b then (if v = 0#8 then (b, w) :: m else (a, v) :: (b, w) :: m)
    else if a = b then (if v = 0#8 then m else (a, v) :: m)
    else (b, w) :: Memory.write m a v

/-- All listed addresses are above `a`. -/
def Memory.above (a : Nat) (m : Memory) : Bool := m.all fun c => decide (a < c.1)

/-- The canonical form: addresses strictly rising, no listed 0. -/
def Memory.wf : Memory → Bool
  | [] => true
  | (a, v) :: m => v != 0#8 && Memory.above a m && Memory.wf m

/-- Every listed address is inside a memory of `n` bytes (R36). -/
def Memory.within (n : Nat) (m : Memory) : Bool := m.all fun c => decide (c.1 < n)

/-- Write consecutive bytes, the first at address `a`. -/
def Memory.writeList : Memory → Nat → List Byte → Memory
  | m, _, [] => m
  | m, a, b :: bs => Memory.writeList (Memory.write m a b) (a + 1) bs

/-- One byte of the state's memory. -/
def readByte (s : State) (a : Nat) : Byte := Memory.read s.mem a

/-! ## Accesses of width 1, 2 and 4 (R11, R43), little-endian (R39) -/

/-- The range check of every access: `u(addr) + n <= MEM_SIZE` (R11, R42, R45, R46). -/
def inRange (s : State) (addr : Word) (n : Nat) : Bool := decide (addr.toNat + n ≤ s.memSize)

/-- `MemRead(addr, 1)`. -/
def memRead8 (s : State) (addr : Word) : BitVec 8 := readByte s addr.toNat

/-- `MemRead(addr, 2)`. -/
def memRead16 (s : State) (addr : Word) : BitVec 16 :=
  (readByte s (addr.toNat + 1) ++ readByte s addr.toNat).cast (by decide)

/-- `MemRead(addr, 4)`. -/
def memRead32 (s : State) (addr : Word) : Word :=
  wordOfBytes (readByte s addr.toNat) (readByte s (addr.toNat + 1)) (readByte s (addr.toNat + 2))
    (readByte s (addr.toNat + 3))

/-- Write consecutive bytes of the state's memory. -/
def writeBytes (s : State) (a : Nat) (bs : List Byte) : State := { s with mem := Memory.writeList s.mem a bs }

/-- `MemWrite(addr, 1, v)`: the low byte of `v`. -/
def memWrite8 (s : State) (addr v : Word) : State := writeBytes s addr.toNat [wordByte v 0]

/-- `MemWrite(addr, 2, v)`: the two low bytes of `v`. -/
def memWrite16 (s : State) (addr v : Word) : State := writeBytes s addr.toNat [wordByte v 0, wordByte v 1]

/-- `MemWrite(addr, 4, v)`. -/
def memWrite32 (s : State) (addr v : Word) : State := writeBytes s addr.toNat (bytesOfWord v)

/-! ## How a step ends -/

/-- `pc <- next_pc; cycles <- cycles + 1` (R121), the end of every executed instruction. -/
def finish (s : State) (nextPc : Word) : State := { s with pc := nextPc, cycles := s.cycles + 1 }

/-- `pc + 4`, modulo 2^32 (R24). -/
def pcPlus4 (s : State) : Word := s.pc + 4

/-- Write the destination register and go on at `pc + 4`: the end of every register instruction that does not jump. -/
def writeAndAdvance (s : State) (rd : RegIdx) (v : Word) : State := finish (writeReg s rd v) (pcPlus4 s)

/-- The warning step (R12, R124, R181): one entry with the old `cycles` and `pc`, then `pc + 4` and `cycles + 1`,
and nothing else. It is what this hardware has in place of taking an exception (R177). -/
def warnStep (s : State) (warning : Warning) : State :=
  finish { s with warnings := s.warnings ++ [⟨s.cycles, s.pc, warning⟩] } (pcPlus4 s)

/-- The core is halted: `cycles >= CYCLE_CEILING` (R33, R129). -/
def halted (s : State) : Bool := decide (Config.cycleCeiling ≤ s.cycles.toNat)

/-- The word at `pc`, read literally from bytes `pc` to `pc + 3`, aligned or not; none where not all four are in
memory (R42, R122). -/
def fetch (s : State) : Option Word := if inRange s s.pc 4 then some (memRead32 s s.pc) else none

/-- `s` made ready to fetch: `cycles` 0 if it was halted, `pc` 0 if no word could be fetched there (log 6). A state
that is neither is unchanged. -/
def readyToFetch (s : State) : State :=
  { s with cycles := if halted s then 0 else s.cycles, pc := if inRange s s.pc 4 then s.pc else 0 }

end Sys2Proof.Machine
end

