-- ==== Sys2Proof/Machine/Operands.lean ====
section
/-! DEFINITION. The operand forms: immediates extended to 32 bits (30_encoding.md R56), effective addresses
(20_memory.md R38), branch and jump targets (R165, R172, R173), shift amounts (R145). -/

namespace Sys2Proof.Machine

/-- `sext_12(imm)` of the I and S formats (R56). -/
def signImm12 (imm12 : BitVec 12) : Word := imm12.signExtend 32

/-- `sext_13(off)` of the B format (R56). -/
def signImm13 (imm13 : BitVec 13) : Word := imm13.signExtend 32

/-- `sext_21(off)` of the J format (R56). -/
def signImm21 (imm21 : BitVec 21) : Word := imm21.signExtend 32

/-- `imm20 ++ 0x000` of the U format (R56). -/
def upperImm (imm20 : BitVec 20) : Word := (imm20 ++ 0x000#12).cast (by decide)

/-- `ea = x[rs1] + sext_12(imm)` modulo 2^32 (R38). -/
def effAddr (s : State) (rs1 : RegIdx) (imm12 : BitVec 12) : Word := readReg s rs1 + signImm12 imm12

/-- `x[rs2][4:0]`, the shift amount of a register shift (R137, R145). -/
def shiftAmount (v : Word) : Nat := (v.extractLsb' 0 5).toNat

/-- `pc + sext_13(off)` modulo 2^32 (R165). -/
def branchTarget (s : State) (imm13 : BitVec 13) : Word := s.pc + signImm13 imm13

/-- `pc + sext_21(off)` modulo 2^32 (R172). -/
def jalTarget (s : State) (imm21 : BitVec 21) : Word := s.pc + signImm21 imm21

/-- `(x[rs1] + sext_12(imm)) & 0xFFFFFFFE` (R173): bit 0 is cleared, bit 1 is not. -/
def jalrTarget (s : State) (rs1 : RegIdx) (imm12 : BitVec 12) : Word := effAddr s rs1 imm12 &&& 0xFFFFFFFE#32

end Sys2Proof.Machine
end

