-- ==== Sys2Proof/Machine/Branches.lean ====
section
/-! DEFINITION. Conditional branches (45_branches.md R165 to R171). -/

namespace Sys2Proof.Machine

/-- Common branch behaviour (R165): to the target if the condition holds, else `pc + 4`; the target is not checked. -/
def branchIf (s : State) (cond : Word → Word → Bool) (rs1 rs2 : RegIdx) (imm13 : BitVec 13) :
    Host.Outcome State Fault Refusal :=
  .next (finish s (if cond (readReg s rs1) (readReg s rs2) then branchTarget s imm13 else pcPlus4 s))

/-- **beq** (R166): equal. -/
def execBeq (rs1 rs2 : RegIdx) (imm13 : BitVec 13) (s : State) : Host.Outcome State Fault Refusal :=
  branchIf s (fun a b => a == b) rs1 rs2 imm13

/-- **bne** (R167): not equal. -/
def execBne (rs1 rs2 : RegIdx) (imm13 : BitVec 13) (s : State) : Host.Outcome State Fault Refusal :=
  branchIf s (fun a b => a != b) rs1 rs2 imm13

/-- **blt** (R168): signed less than. -/
def execBlt (rs1 rs2 : RegIdx) (imm13 : BitVec 13) (s : State) : Host.Outcome State Fault Refusal :=
  branchIf s (fun a b => lessSigned a b) rs1 rs2 imm13

/-- **bge** (R169): signed greater or equal. -/
def execBge (rs1 rs2 : RegIdx) (imm13 : BitVec 13) (s : State) : Host.Outcome State Fault Refusal :=
  branchIf s (fun a b => !lessSigned a b) rs1 rs2 imm13

/-- **bltu** (R170): unsigned less than. -/
def execBltu (rs1 rs2 : RegIdx) (imm13 : BitVec 13) (s : State) : Host.Outcome State Fault Refusal :=
  branchIf s (fun a b => lessUnsigned a b) rs1 rs2 imm13

/-- **bgeu** (R171): unsigned greater or equal. -/
def execBgeu (rs1 rs2 : RegIdx) (imm13 : BitVec 13) (s : State) : Host.Outcome State Fault Refusal :=
  branchIf s (fun a b => !lessUnsigned a b) rs1 rs2 imm13


end Sys2Proof.Machine
end

