-- ==== Sys2Proof/Machine/IType.lean ====
section
/-! DEFINITION. I-type register-immediate instructions (42_itype.md R146 to R154). -/

namespace Sys2Proof.Machine

/-- `x[rd] <- f(x[rs1], sext_12(imm))`, the source read first (R120), then `pc + 4`. -/
def regImm (s : State) (f : Word → Word → Word) (rd rs1 : RegIdx) (imm12 : BitVec 12) :
    Host.Outcome State Fault Refusal :=
  .next (writeAndAdvance s rd (f (readReg s rs1) (signImm12 imm12)))

/-- `x[rd] <- f(x[rs1], shamt)` with `shamt` in 0..31 (R152 to R154), then `pc + 4`. -/
def regShamt (s : State) (f : Word → Nat → Word) (rd rs1 : RegIdx) (shamt : BitVec 5) :
    Host.Outcome State Fault Refusal :=
  .next (writeAndAdvance s rd (f (readReg s rs1) shamt.toNat))

/-- **addi** (R146): modulo 2^32. -/
def execAddi (rd rs1 : RegIdx) (imm12 : BitVec 12) (s : State) : Host.Outcome State Fault Refusal :=
  regImm s (fun a b => a + b) rd rs1 imm12

/-- **slti** (R147): signed comparison. -/
def execSlti (rd rs1 : RegIdx) (imm12 : BitVec 12) (s : State) : Host.Outcome State Fault Refusal :=
  regImm s (fun a b => boolWord (lessSigned a b)) rd rs1 imm12

/-- **sltiu** (R148): the sign-extended immediate compared as unsigned. -/
def execSltiu (rd rs1 : RegIdx) (imm12 : BitVec 12) (s : State) : Host.Outcome State Fault Refusal :=
  regImm s (fun a b => boolWord (lessUnsigned a b)) rd rs1 imm12

/-- **xori** (R149): bitwise. -/
def execXori (rd rs1 : RegIdx) (imm12 : BitVec 12) (s : State) : Host.Outcome State Fault Refusal :=
  regImm s (fun a b => a ^^^ b) rd rs1 imm12

/-- **ori** (R150): bitwise. -/
def execOri (rd rs1 : RegIdx) (imm12 : BitVec 12) (s : State) : Host.Outcome State Fault Refusal :=
  regImm s (fun a b => a ||| b) rd rs1 imm12

/-- **andi** (R151): bitwise. -/
def execAndi (rd rs1 : RegIdx) (imm12 : BitVec 12) (s : State) : Host.Outcome State Fault Refusal :=
  regImm s (fun a b => a &&& b) rd rs1 imm12

/-- **slli** (R152): logical left shift. -/
def execSlli (rd rs1 : RegIdx) (shamt : BitVec 5) (s : State) : Host.Outcome State Fault Refusal :=
  regShamt s (fun a n => a <<< n) rd rs1 shamt

/-- **srli** (R153): logical right shift. -/
def execSrli (rd rs1 : RegIdx) (shamt : BitVec 5) (s : State) : Host.Outcome State Fault Refusal :=
  regShamt s (fun a n => a >>> n) rd rs1 shamt

/-- **srai** (R154): arithmetic right shift. -/
def execSrai (rd rs1 : RegIdx) (shamt : BitVec 5) (s : State) : Host.Outcome State Fault Refusal :=
  regShamt s (fun a n => a.sshiftRight n) rd rs1 shamt


end Sys2Proof.Machine
end

