-- ==== Sys2Proof/Machine/Jumps.lean ====
section
/-! DEFINITION. Unconditional jumps (46_jumps.md R172 to R174). -/

namespace Sys2Proof.Machine

/-- Link and jump (R172, R173): the target is computed by the caller before `rd` is written (R120), the link value is
`pc + 4`, and the target is not checked (R174). -/
def linkAndJump (s : State) (rd : RegIdx) (target : Word) : State := finish (writeReg s rd (pcPlus4 s)) target

/-- **jal** (R172). -/
def execJal (rd : RegIdx) (imm21 : BitVec 21) (s : State) : Host.Outcome State Fault Refusal :=
  .next (linkAndJump s rd (jalTarget s imm21))

/-- **jalr** (R173). -/
def execJalr (rd rs1 : RegIdx) (imm12 : BitVec 12) (s : State) : Host.Outcome State Fault Refusal :=
  .next (linkAndJump s rd (jalrTarget s rs1 imm12))


end Sys2Proof.Machine
end

