-- ==== Sys2Proof/Machine/Loads.lean ====
section
/-! DEFINITION. Loads (43_loads.md R155 to R160). -/

namespace Sys2Proof.Machine

/-- Common load behaviour (R155): the address, the range check, the read, the write of `rd`, `pc + 4`. The address is
computed and checked for `rd = 0` too (R71). -/
def loadWith (s : State) (n : Nat) (value : State → Word → Word) (rd rs1 : RegIdx) (imm12 : BitVec 12) :
    Host.Outcome State Fault Refusal :=
  let ea := effAddr s rs1 imm12
  if inRange s ea n then .next (writeAndAdvance s rd (value s ea)) else .next (warnStep s (.access ea))

/-- **lb** (R156): one byte, sign-extended. -/
def execLb (rd rs1 : RegIdx) (imm12 : BitVec 12) (s : State) : Host.Outcome State Fault Refusal :=
  loadWith s 1 (fun t ea => (memRead8 t ea).signExtend 32) rd rs1 imm12

/-- **lh** (R157): two bytes, sign-extended. -/
def execLh (rd rs1 : RegIdx) (imm12 : BitVec 12) (s : State) : Host.Outcome State Fault Refusal :=
  loadWith s 2 (fun t ea => (memRead16 t ea).signExtend 32) rd rs1 imm12

/-- **lw** (R158): four bytes. -/
def execLw (rd rs1 : RegIdx) (imm12 : BitVec 12) (s : State) : Host.Outcome State Fault Refusal :=
  loadWith s 4 (fun t ea => memRead32 t ea) rd rs1 imm12

/-- **lbu** (R159): one byte, zero-extended. -/
def execLbu (rd rs1 : RegIdx) (imm12 : BitVec 12) (s : State) : Host.Outcome State Fault Refusal :=
  loadWith s 1 (fun t ea => (memRead8 t ea).setWidth 32) rd rs1 imm12

/-- **lhu** (R160): two bytes, zero-extended. -/
def execLhu (rd rs1 : RegIdx) (imm12 : BitVec 12) (s : State) : Host.Outcome State Fault Refusal :=
  loadWith s 2 (fun t ea => (memRead16 t ea).setWidth 32) rd rs1 imm12


end Sys2Proof.Machine
end

