-- ==== Sys2Proof/Machine/RType.lean ====
section
/-! DEFINITION. R-type register-register instructions (41_rtype.md R135 to R145). -/

namespace Sys2Proof.Machine

/-- `x[rd] <- f(x[rs1], x[rs2])`, sources read first (R120), then `pc + 4`. -/
def regReg (s : State) (f : Word → Word → Word) (rd rs1 rs2 : RegIdx) : Host.Outcome State Fault Refusal :=
  .next (writeAndAdvance s rd (f (readReg s rs1) (readReg s rs2)))

/-- **add** (R135): modulo 2^32. -/
def execAdd (rd rs1 rs2 : RegIdx) (s : State) : Host.Outcome State Fault Refusal :=
  regReg s (fun a b => a + b) rd rs1 rs2

/-- **sub** (R136): modulo 2^32. -/
def execSub (rd rs1 rs2 : RegIdx) (s : State) : Host.Outcome State Fault Refusal :=
  regReg s (fun a b => a - b) rd rs1 rs2

/-- **sll** (R137): logical left shift by `x[rs2][4:0]`. -/
def execSll (rd rs1 rs2 : RegIdx) (s : State) : Host.Outcome State Fault Refusal :=
  regReg s (fun a b => a <<< shiftAmount b) rd rs1 rs2

/-- **slt** (R138): signed comparison. -/
def execSlt (rd rs1 rs2 : RegIdx) (s : State) : Host.Outcome State Fault Refusal :=
  regReg s (fun a b => boolWord (lessSigned a b)) rd rs1 rs2

/-- **sltu** (R139): unsigned comparison. -/
def execSltu (rd rs1 rs2 : RegIdx) (s : State) : Host.Outcome State Fault Refusal :=
  regReg s (fun a b => boolWord (lessUnsigned a b)) rd rs1 rs2

/-- **xor** (R140): bitwise. -/
def execXor (rd rs1 rs2 : RegIdx) (s : State) : Host.Outcome State Fault Refusal :=
  regReg s (fun a b => a ^^^ b) rd rs1 rs2

/-- **srl** (R141): logical right shift by `x[rs2][4:0]`. -/
def execSrl (rd rs1 rs2 : RegIdx) (s : State) : Host.Outcome State Fault Refusal :=
  regReg s (fun a b => a >>> shiftAmount b) rd rs1 rs2

/-- **sra** (R142): arithmetic right shift by `x[rs2][4:0]`. -/
def execSra (rd rs1 rs2 : RegIdx) (s : State) : Host.Outcome State Fault Refusal :=
  regReg s (fun a b => a.sshiftRight (shiftAmount b)) rd rs1 rs2

/-- **or** (R143): bitwise. -/
def execOr (rd rs1 rs2 : RegIdx) (s : State) : Host.Outcome State Fault Refusal :=
  regReg s (fun a b => a ||| b) rd rs1 rs2

/-- **and** (R144): bitwise. -/
def execAnd (rd rs1 rs2 : RegIdx) (s : State) : Host.Outcome State Fault Refusal :=
  regReg s (fun a b => a &&& b) rd rs1 rs2


end Sys2Proof.Machine
end

