-- ==== Sys2Proof/Machine/Stores.lean ====
section
/-! DEFINITION. Stores (44_stores.md R161 to R164). -/

namespace Sys2Proof.Machine

/-- Common store behaviour (R161): the address, the range check, the write, `pc + 4`; out of range nothing is written
(R46). -/
def storeWith (s : State) (n : Nat) (write : State → Word → Word → State) (rs1 rs2 : RegIdx) (imm12 : BitVec 12) :
    Host.Outcome State Fault Refusal :=
  let ea := effAddr s rs1 imm12
  if inRange s ea n then .next (finish (write s ea (readReg s rs2)) (pcPlus4 s)) else .next (warnStep s (.access ea))

/-- **sb** (R162): the low byte of `x[rs2]`. -/
def execSb (rs1 rs2 : RegIdx) (imm12 : BitVec 12) (s : State) : Host.Outcome State Fault Refusal :=
  storeWith s 1 memWrite8 rs1 rs2 imm12

/-- **sh** (R163): the two low bytes of `x[rs2]`. -/
def execSh (rs1 rs2 : RegIdx) (imm12 : BitVec 12) (s : State) : Host.Outcome State Fault Refusal :=
  storeWith s 2 memWrite16 rs1 rs2 imm12

/-- **sw** (R164): all four bytes of `x[rs2]`. -/
def execSw (rs1 rs2 : RegIdx) (imm12 : BitVec 12) (s : State) : Host.Outcome State Fault Refusal :=
  storeWith s 4 memWrite32 rs1 rs2 imm12


end Sys2Proof.Machine
end

