-- ==== Sys2Proof/Machine/UType.lean ====
section
/-! DEFINITION. Upper-immediate instructions (47_utype.md R175, R176). -/

namespace Sys2Proof.Machine

/-- **lui** (R175): the 20-bit field in bits 31..12, zeros below. -/
def execLui (rd : RegIdx) (imm20 : BitVec 20) (s : State) : Host.Outcome State Fault Refusal :=
  .next (writeAndAdvance s rd (upperImm imm20))

/-- **auipc** (R176): this instruction's address plus the upper immediate. -/
def execAuipc (rd : RegIdx) (imm20 : BitVec 20) (s : State) : Host.Outcome State Fault Refusal :=
  .next (writeAndAdvance s rd (s.pc + upperImm imm20))


end Sys2Proof.Machine
end

