-- ==== Sys2Proof/Machine/Dispatch.lean ====
section
/-! DEFINITION. `execute(i)` (40_core_cycle.md R121): one arm per instruction. -/

namespace Sys2Proof.Machine

def exec (i : Instr) (s : State) : Host.Outcome State Fault Refusal :=
  match i with
  | .add rd rs1 rs2 => Sys2Proof.Machine.execAdd rd rs1 rs2 s
  | .sub rd rs1 rs2 => Sys2Proof.Machine.execSub rd rs1 rs2 s
  | .sll rd rs1 rs2 => Sys2Proof.Machine.execSll rd rs1 rs2 s
  | .slt rd rs1 rs2 => Sys2Proof.Machine.execSlt rd rs1 rs2 s
  | .sltu rd rs1 rs2 => Sys2Proof.Machine.execSltu rd rs1 rs2 s
  | .xor rd rs1 rs2 => Sys2Proof.Machine.execXor rd rs1 rs2 s
  | .srl rd rs1 rs2 => Sys2Proof.Machine.execSrl rd rs1 rs2 s
  | .sra rd rs1 rs2 => Sys2Proof.Machine.execSra rd rs1 rs2 s
  | .or rd rs1 rs2 => Sys2Proof.Machine.execOr rd rs1 rs2 s
  | .and rd rs1 rs2 => Sys2Proof.Machine.execAnd rd rs1 rs2 s
  | .addi rd rs1 imm12 => Sys2Proof.Machine.execAddi rd rs1 imm12 s
  | .slti rd rs1 imm12 => Sys2Proof.Machine.execSlti rd rs1 imm12 s
  | .sltiu rd rs1 imm12 => Sys2Proof.Machine.execSltiu rd rs1 imm12 s
  | .xori rd rs1 imm12 => Sys2Proof.Machine.execXori rd rs1 imm12 s
  | .ori rd rs1 imm12 => Sys2Proof.Machine.execOri rd rs1 imm12 s
  | .andi rd rs1 imm12 => Sys2Proof.Machine.execAndi rd rs1 imm12 s
  | .slli rd rs1 shamt => Sys2Proof.Machine.execSlli rd rs1 shamt s
  | .srli rd rs1 shamt => Sys2Proof.Machine.execSrli rd rs1 shamt s
  | .srai rd rs1 shamt => Sys2Proof.Machine.execSrai rd rs1 shamt s
  | .lb rd rs1 imm12 => Sys2Proof.Machine.execLb rd rs1 imm12 s
  | .lh rd rs1 imm12 => Sys2Proof.Machine.execLh rd rs1 imm12 s
  | .lw rd rs1 imm12 => Sys2Proof.Machine.execLw rd rs1 imm12 s
  | .lbu rd rs1 imm12 => Sys2Proof.Machine.execLbu rd rs1 imm12 s
  | .lhu rd rs1 imm12 => Sys2Proof.Machine.execLhu rd rs1 imm12 s
  | .sb rs1 rs2 imm12 => Sys2Proof.Machine.execSb rs1 rs2 imm12 s
  | .sh rs1 rs2 imm12 => Sys2Proof.Machine.execSh rs1 rs2 imm12 s
  | .sw rs1 rs2 imm12 => Sys2Proof.Machine.execSw rs1 rs2 imm12 s
  | .beq rs1 rs2 imm13 => Sys2Proof.Machine.execBeq rs1 rs2 imm13 s
  | .bne rs1 rs2 imm13 => Sys2Proof.Machine.execBne rs1 rs2 imm13 s
  | .blt rs1 rs2 imm13 => Sys2Proof.Machine.execBlt rs1 rs2 imm13 s
  | .bge rs1 rs2 imm13 => Sys2Proof.Machine.execBge rs1 rs2 imm13 s
  | .bltu rs1 rs2 imm13 => Sys2Proof.Machine.execBltu rs1 rs2 imm13 s
  | .bgeu rs1 rs2 imm13 => Sys2Proof.Machine.execBgeu rs1 rs2 imm13 s
  | .jal rd imm21 => Sys2Proof.Machine.execJal rd imm21 s
  | .jalr rd rs1 imm12 => Sys2Proof.Machine.execJalr rd rs1 imm12 s
  | .lui rd imm20 => Sys2Proof.Machine.execLui rd imm20 s
  | .auipc rd imm20 => Sys2Proof.Machine.execAuipc rd imm20 s

end Sys2Proof.Machine
end

