-- ==== Sys2Proof/Machine/Step.lean ====
section
/-! DEFINITION. The core's one transition (40_core_cycle.md R121) and the placing of one instruction for a single
step. -/

namespace Sys2Proof.Machine

/-- `step()` (R121): halted, then fetch range, then decode, then execution, in this order (R180). -/
def step (s : State) : Host.Outcome State Fault Refusal :=
  if halted s then .next s
  else
    match fetch s with
    | none => .next (warnStep s .fetch)
    | some w =>
      match decode w with
      | .unknown u => .next (warnStep s (.decode u))
      | .instr i => exec i s

/-- `s` with the table word `w` (bits from `nbits` up are 0) stored where `step` fetches its next instruction,
little-endian (R40); it stands for the host's `loadProgram` (log 6). -/
def State.withFetchWord (s : State) (nbits w : Nat) : State :=
  memWrite32 (readyToFetch s) (readyToFetch s).pc (BitVec.ofNat 32 (w % 2 ^ nbits))

end Sys2Proof.Machine
end

