-- ==== Sys2Proof/Machine/Text.lean ====
section
/-! DEFINITION. Text as a list of characters, with the lexical classes of 35_assembler.md R82 to R88 and the number
forms of the assembler and the disassembler. -/

namespace Sys2Proof.Machine

/-- Assembly text and every text output: a string as the list of its characters (log 8). -/
abbrev Text := List Char

/-- Spaces and tabs separate tokens (R83). -/
def isBlank (c : Char) : Bool := c == ' ' || c == '\t'

/-- A decimal digit. -/
def isDecDigit (c : Char) : Bool := decide ('0'.toNat ≤ c.toNat) && decide (c.toNat ≤ '9'.toNat)

/-- A letter: A to Z and a to z (R84, D20). -/
def isLetter (c : Char) : Bool :=
  decide ('a'.toNat ≤ c.toNat) && decide (c.toNat ≤ 'z'.toNat) ||
    decide ('A'.toNat ≤ c.toNat) && decide (c.toNat ≤ 'Z'.toNat)

/-- The first character of an identifier (R84). -/
def isIdentStart (c : Char) : Bool := isLetter c || c == '_'

/-- A later character of an identifier (R84). -/
def isIdentChar (c : Char) : Bool := isLetter c || isDecDigit c || c == '_' || c == '.'

/-- An identifier: a letter or `_`, followed by letters, digits, `_` or `.` (R84). -/
def isIdent : Text → Bool
  | [] => false
  | c :: cs => isIdentStart c && cs.all isIdentChar

/-- Lower-case spelling, for mnemonics and register names (R85, R87). -/
def lowerText (t : Text) : Text := t.map Char.toLower

/-- Without leading spaces and tabs. -/
def trimLeft (t : Text) : Text := t.dropWhile isBlank

/-- Without leading and trailing spaces and tabs (R83). -/
def trim (t : Text) : Text := (trimLeft (trimLeft t).reverse).reverse

/-- Everything before the first occurrence of `sep`, and what follows it if it occurs. -/
def cutAt (sep : Char) : Text → Text × Option Text
  | [] => ([], none)
  | c :: cs =>
    if c = sep then ([], some cs)
    else
      match cutAt sep cs with
      | (a, r) => (c :: a, r)

/-- The pieces between occurrences of `sep`, at least one. -/
def splitAll (sep : Char) : Text → List Text
  | [] => [[]]
  | c :: cs =>
    if c = sep then [] :: splitAll sep cs
    else
      match splitAll sep cs with
      | [] => [[c]]
      | p :: ps => (c :: p) :: ps

/-- Remove the carriage return that stands immediately before each line feed (R82). -/
def dropCrBeforeLf : Text → Text
  | [] => []
  | c :: cs => if c = '\r' && cs.head? == some '\n' then dropCrBeforeLf cs else c :: dropCrBeforeLf cs

/-- The physical lines of a text (R82). -/
def splitLines (t : Text) : List Text := splitAll '\n' (dropCrBeforeLf t)

/-- A line without its comment: everything before the first `#` (R83). -/
def stripComment (t : Text) : Text := (cutAt '#' t).1

/-- Runs of spaces and tabs collapsed to one space, none at the ends (R115). -/
def collapseBlanks (t : Text) : Text :=
  let words := (splitAll ' ' (t.map fun c => if c = '\t' then ' ' else c)).filter fun p => !p.isEmpty
  List.intercalate [' '] words

/-! ## Numbers -/

/-- The value of a digit in base 16 or below; none for another character. -/
def digitValue (c : Char) : Option Nat :=
  if isDecDigit c then some (c.toNat - '0'.toNat)
  else if decide ('a'.toNat ≤ c.toNat) && decide (c.toNat ≤ 'f'.toNat) then some (c.toNat - 'a'.toNat + 10)
  else if decide ('A'.toNat ≤ c.toNat) && decide (c.toNat ≤ 'F'.toNat) then some (c.toNat - 'A'.toNat + 10)
  else none

/-- Read digits of a base, most significant first, after `acc`. -/
def readDigits (base : Nat) : Nat → Text → Option Nat
  | acc, [] => some acc
  | acc, c :: cs =>
    match digitValue c with
    | some d => if d < base then readDigits base (base * acc + d) cs else none
    | none => none

/-- One or more digits of a base. -/
def readNumber (base : Nat) (t : Text) : Option Nat := if t.isEmpty then none else readDigits base 0 t

/-- The unsigned part of an integer literal: decimal digits, or `0x`/`0X` and hexadecimal digits (R88). -/
def readMagnitude : Text → Option Nat
  | '0' :: 'x' :: ds => readNumber 16 ds
  | '0' :: 'X' :: ds => readNumber 16 ds
  | ds => readNumber 10 ds

/-- An integer literal: an optional sign, then the unsigned part; its value is the mathematical integer (R88). -/
def readInt : Text → Option Int
  | '-' :: ds => (readMagnitude ds).map fun (n : Nat) => -(n : Int)
  | '+' :: ds => (readMagnitude ds).map fun (n : Nat) => (n : Int)
  | ds => (readMagnitude ds).map fun (n : Nat) => (n : Int)

/-- Decimal digits of a natural number, no leading zeros. -/
def decimal (n : Nat) : Text := Nat.toDigits 10 n

/-- Signed decimal (R75). -/
def signedDecimal (v : Int) : Text := if v < 0 then '-' :: decimal v.natAbs else decimal v.natAbs

/-- The 8 lower-case hexadecimal digits of a word (R74). -/
def hex8 (w : Word) : Text := [7, 6, 5, 4, 3, 2, 1, 0].map fun k => Nat.digitChar (w.extractLsb' (4 * k) 4).toNat

end Sys2Proof.Machine
end

