-- ==== Sys2Proof/Machine/Abi.lean ====
section
/-! DEFINITION. The ABI name table and its lookups (10_state.md R19, R20; 30_encoding.md R78), and register operands
(35_assembler.md R87). -/

namespace Sys2Proof.Machine

/-- The ABI names in index order (R19). -/
def abiNames : List Text :=
  [ "zero".toList, "ra".toList, "sp".toList, "gp".toList, "tp".toList, "t0".toList, "t1".toList, "t2".toList ] ++
  [ "s0".toList, "s1".toList, "a0".toList, "a1".toList, "a2".toList, "a3".toList, "a4".toList, "a5".toList ] ++
  [ "a6".toList, "a7".toList, "s2".toList, "s3".toList, "s4".toList, "s5".toList, "s6".toList, "s7".toList ] ++
  [ "s8".toList, "s9".toList, "s10".toList, "s11".toList, "t3".toList, "t4".toList, "t5".toList, "t6".toList ]

/-- The ABI name of a register (R19). -/
def abiName (r : RegIdx) : Text := abiNames.getD r.toNat []

/-- `xN` in decimal (R20, R75). -/
def xName (r : RegIdx) : Text := 'x' :: decimal r.toNat

/-- All register numbers in order. -/
def allRegs : List RegIdx := (List.range 32).map fun n => BitVec.ofNat 5 n

/-- `index_of(name)` (R20): the register of an ABI name or of `xN` without leading zeros; `fp` is no name (D25). -/
def indexOf (name : Text) : Option RegIdx := allRegs.find? fun r => name == xName r || name == abiName r

/-- A register operand, case-insensitive (R87). -/
def readRegister (t : Text) : Option RegIdx := indexOf (lowerText t)

end Sys2Proof.Machine
end

