-- ==== Sys2Proof/Machine/Disasm.lean ====
section
/-! DEFINITION. Canonical instruction tokens, their text, and the disassembler (30_encoding.md R72 to R77;
35_assembler.md R90, R115). -/

namespace Sys2Proof.Machine

/-- The operand forms of the canonical instructions (35_assembler.md R90). -/
inductive OperandForm where
  | r | i | shift | load | store | branch | jal | jalr | upper
  deriving DecidableEq, Repr

/-- The operand form of each instruction (R90). -/
def operandForm : Mnemonic → OperandForm
  | .add => .r
  | .sub => .r
  | .sll => .r
  | .slt => .r
  | .sltu => .r
  | .xor => .r
  | .srl => .r
  | .sra => .r
  | .or => .r
  | .and => .r
  | .addi => .i
  | .slti => .i
  | .sltiu => .i
  | .xori => .i
  | .ori => .i
  | .andi => .i
  | .slli => .shift
  | .srli => .shift
  | .srai => .shift
  | .lb => .load
  | .lh => .load
  | .lw => .load
  | .lbu => .load
  | .lhu => .load
  | .sb => .store
  | .sh => .store
  | .sw => .store
  | .beq => .branch
  | .bne => .branch
  | .blt => .branch
  | .bge => .branch
  | .bltu => .branch
  | .bgeu => .branch
  | .jal => .jal
  | .jalr => .jalr
  | .lui => .upper
  | .auipc => .upper

/-- The mnemonic as it is written (R57, R75). -/
def mnemonicText : Mnemonic → Text
  | .add => "add".toList
  | .sub => "sub".toList
  | .sll => "sll".toList
  | .slt => "slt".toList
  | .sltu => "sltu".toList
  | .xor => "xor".toList
  | .srl => "srl".toList
  | .sra => "sra".toList
  | .or => "or".toList
  | .and => "and".toList
  | .addi => "addi".toList
  | .slti => "slti".toList
  | .sltiu => "sltiu".toList
  | .xori => "xori".toList
  | .ori => "ori".toList
  | .andi => "andi".toList
  | .slli => "slli".toList
  | .srli => "srli".toList
  | .srai => "srai".toList
  | .lb => "lb".toList
  | .lh => "lh".toList
  | .lw => "lw".toList
  | .lbu => "lbu".toList
  | .lhu => "lhu".toList
  | .sb => "sb".toList
  | .sh => "sh".toList
  | .sw => "sw".toList
  | .beq => "beq".toList
  | .bne => "bne".toList
  | .blt => "blt".toList
  | .bge => "bge".toList
  | .bltu => "bltu".toList
  | .bgeu => "bgeu".toList
  | .jal => "jal".toList
  | .jalr => "jalr".toList
  | .lui => "lui".toList
  | .auipc => "auipc".toList

/-- All 37, in the order of the opcode table. -/
def allMnemonics : List Mnemonic :=
  [ .add, .sub, .sll, .slt, .sltu, .xor, .srl, .sra, .or, .and ] ++
  [ .addi, .slti, .sltiu, .xori, .ori, .andi, .slli, .srli, .srai ] ++
  [ .lb, .lh, .lw, .lbu, .lhu ] ++
  [ .sb, .sh, .sw ] ++
  [ .beq, .bne, .blt, .bge, .bltu, .bgeu ] ++
  [ .jal, .jalr, .lui, .auipc ]

/-- An immediate operand of a token: a value, or a label to be resolved in pass 2, as a pc-relative offset (R98) or as
one part of an absolute address (R112). -/
inductive ImmToken where
  | value (v : Int)
  | label (name : Text)
  | hi (name : Text)
  | lo (name : Text)
  deriving DecidableEq, Repr

/-- A canonical instruction token (R15, R92): register fields its form lacks are 0, and the R form has no immediate
(`value 0`). -/
structure InstrToken where
  mnemonic : Mnemonic
  rd : RegIdx
  rs1 : RegIdx
  rs2 : RegIdx
  imm : ImmToken
  deriving DecidableEq, Repr

/-- The token of a decoded instruction: immediates and offsets signed, shift amounts and `imm20` unsigned (R75). -/
def instrToken : Instr → InstrToken
  | .add rd rs1 rs2 => ⟨.add, rd, rs1, rs2, .value 0⟩
  | .sub rd rs1 rs2 => ⟨.sub, rd, rs1, rs2, .value 0⟩
  | .sll rd rs1 rs2 => ⟨.sll, rd, rs1, rs2, .value 0⟩
  | .slt rd rs1 rs2 => ⟨.slt, rd, rs1, rs2, .value 0⟩
  | .sltu rd rs1 rs2 => ⟨.sltu, rd, rs1, rs2, .value 0⟩
  | .xor rd rs1 rs2 => ⟨.xor, rd, rs1, rs2, .value 0⟩
  | .srl rd rs1 rs2 => ⟨.srl, rd, rs1, rs2, .value 0⟩
  | .sra rd rs1 rs2 => ⟨.sra, rd, rs1, rs2, .value 0⟩
  | .or rd rs1 rs2 => ⟨.or, rd, rs1, rs2, .value 0⟩
  | .and rd rs1 rs2 => ⟨.and, rd, rs1, rs2, .value 0⟩
  | .addi rd rs1 imm12 => ⟨.addi, rd, rs1, 0, .value imm12.toInt⟩
  | .slti rd rs1 imm12 => ⟨.slti, rd, rs1, 0, .value imm12.toInt⟩
  | .sltiu rd rs1 imm12 => ⟨.sltiu, rd, rs1, 0, .value imm12.toInt⟩
  | .xori rd rs1 imm12 => ⟨.xori, rd, rs1, 0, .value imm12.toInt⟩
  | .ori rd rs1 imm12 => ⟨.ori, rd, rs1, 0, .value imm12.toInt⟩
  | .andi rd rs1 imm12 => ⟨.andi, rd, rs1, 0, .value imm12.toInt⟩
  | .slli rd rs1 shamt => ⟨.slli, rd, rs1, 0, .value shamt.toNat⟩
  | .srli rd rs1 shamt => ⟨.srli, rd, rs1, 0, .value shamt.toNat⟩
  | .srai rd rs1 shamt => ⟨.srai, rd, rs1, 0, .value shamt.toNat⟩
  | .lb rd rs1 imm12 => ⟨.lb, rd, rs1, 0, .value imm12.toInt⟩
  | .lh rd rs1 imm12 => ⟨.lh, rd, rs1, 0, .value imm12.toInt⟩
  | .lw rd rs1 imm12 => ⟨.lw, rd, rs1, 0, .value imm12.toInt⟩
  | .lbu rd rs1 imm12 => ⟨.lbu, rd, rs1, 0, .value imm12.toInt⟩
  | .lhu rd rs1 imm12 => ⟨.lhu, rd, rs1, 0, .value imm12.toInt⟩
  | .sb rs1 rs2 imm12 => ⟨.sb, 0, rs1, rs2, .value imm12.toInt⟩
  | .sh rs1 rs2 imm12 => ⟨.sh, 0, rs1, rs2, .value imm12.toInt⟩
  | .sw rs1 rs2 imm12 => ⟨.sw, 0, rs1, rs2, .value imm12.toInt⟩
  | .beq rs1 rs2 imm13 => ⟨.beq, 0, rs1, rs2, .value imm13.toInt⟩
  | .bne rs1 rs2 imm13 => ⟨.bne, 0, rs1, rs2, .value imm13.toInt⟩
  | .blt rs1 rs2 imm13 => ⟨.blt, 0, rs1, rs2, .value imm13.toInt⟩
  | .bge rs1 rs2 imm13 => ⟨.bge, 0, rs1, rs2, .value imm13.toInt⟩
  | .bltu rs1 rs2 imm13 => ⟨.bltu, 0, rs1, rs2, .value imm13.toInt⟩
  | .bgeu rs1 rs2 imm13 => ⟨.bgeu, 0, rs1, rs2, .value imm13.toInt⟩
  | .jal rd imm21 => ⟨.jal, rd, 0, 0, .value imm21.toInt⟩
  | .jalr rd rs1 imm12 => ⟨.jalr, rd, rs1, 0, .value imm12.toInt⟩
  | .lui rd imm20 => ⟨.lui, rd, 0, 0, .value imm20.toNat⟩
  | .auipc rd imm20 => ⟨.auipc, rd, 0, 0, .value imm20.toNat⟩

/-- The instruction of a token whose immediate has the value `v`, placed as two's complement in its field (R100). -/
def buildInstr (m : Mnemonic) (rd rs1 rs2 : RegIdx) (v : Int) : Instr :=
  match m with
  | .add => .add rd rs1 rs2
  | .sub => .sub rd rs1 rs2
  | .sll => .sll rd rs1 rs2
  | .slt => .slt rd rs1 rs2
  | .sltu => .sltu rd rs1 rs2
  | .xor => .xor rd rs1 rs2
  | .srl => .srl rd rs1 rs2
  | .sra => .sra rd rs1 rs2
  | .or => .or rd rs1 rs2
  | .and => .and rd rs1 rs2
  | .addi => .addi rd rs1 (BitVec.ofInt 12 v)
  | .slti => .slti rd rs1 (BitVec.ofInt 12 v)
  | .sltiu => .sltiu rd rs1 (BitVec.ofInt 12 v)
  | .xori => .xori rd rs1 (BitVec.ofInt 12 v)
  | .ori => .ori rd rs1 (BitVec.ofInt 12 v)
  | .andi => .andi rd rs1 (BitVec.ofInt 12 v)
  | .slli => .slli rd rs1 (BitVec.ofInt 5 v)
  | .srli => .srli rd rs1 (BitVec.ofInt 5 v)
  | .srai => .srai rd rs1 (BitVec.ofInt 5 v)
  | .lb => .lb rd rs1 (BitVec.ofInt 12 v)
  | .lh => .lh rd rs1 (BitVec.ofInt 12 v)
  | .lw => .lw rd rs1 (BitVec.ofInt 12 v)
  | .lbu => .lbu rd rs1 (BitVec.ofInt 12 v)
  | .lhu => .lhu rd rs1 (BitVec.ofInt 12 v)
  | .sb => .sb rs1 rs2 (BitVec.ofInt 12 v)
  | .sh => .sh rs1 rs2 (BitVec.ofInt 12 v)
  | .sw => .sw rs1 rs2 (BitVec.ofInt 12 v)
  | .beq => .beq rs1 rs2 (BitVec.ofInt 13 v)
  | .bne => .bne rs1 rs2 (BitVec.ofInt 13 v)
  | .blt => .blt rs1 rs2 (BitVec.ofInt 13 v)
  | .bge => .bge rs1 rs2 (BitVec.ofInt 13 v)
  | .bltu => .bltu rs1 rs2 (BitVec.ofInt 13 v)
  | .bgeu => .bgeu rs1 rs2 (BitVec.ofInt 13 v)
  | .jal => .jal rd (BitVec.ofInt 21 v)
  | .jalr => .jalr rd rs1 (BitVec.ofInt 12 v)
  | .lui => .lui rd (BitVec.ofInt 20 v)
  | .auipc => .auipc rd (BitVec.ofInt 20 v)

/-- An immediate as text: decimal with a sign where negative (R75), a label by its name, the parts of `la` as
`%hi(L)` and `%lo(L)` (R115). -/
def immText : ImmToken → Text
  | .value v => signedDecimal v
  | .label name => name
  | .hi name => "%hi(".toList ++ name ++ [')']
  | .lo name => "%lo(".toList ++ name ++ [')']

/-- The operand texts of a token, in the order of R75. -/
def operandTexts (t : InstrToken) : List Text :=
  match operandForm t.mnemonic with
  | .r => [xName t.rd, xName t.rs1, xName t.rs2]
  | .i => [xName t.rd, xName t.rs1, immText t.imm]
  | .shift => [xName t.rd, xName t.rs1, immText t.imm]
  | .load => [xName t.rd, immText t.imm ++ ['('] ++ xName t.rs1 ++ [')']]
  | .store => [xName t.rs2, immText t.imm ++ ['('] ++ xName t.rs1 ++ [')']]
  | .branch => [xName t.rs1, xName t.rs2, immText t.imm]
  | .jal => [xName t.rd, immText t.imm]
  | .jalr => [xName t.rd, xName t.rs1, immText t.imm]
  | .upper => [xName t.rd, immText t.imm]

/-- A token as text: the mnemonic, one space, the operands separated by a comma and one space (R75). -/
def tokenText (t : InstrToken) : Text :=
  mnemonicText t.mnemonic ++ [' '] ++ List.intercalate [',', ' '] (operandTexts t)

/-- `disassemble(word, address)` (R72): total; empty for the word 0 (R73), a marked form for every other word that
does not decode (R74); the address does not change the text (R76). -/
def disassemble (w _address : Word) : Text :=
  match decode w with
  | .instr i => tokenText (instrToken i)
  | .unknown u => if u = 0 then [] else "unknown 0x".toList ++ hex8 u

end Sys2Proof.Machine
end

