-- ==== Sys2Proof/Machine/Assembler.lean ====
section
/-! DEFINITION. The two-pass assembler and the pseudo-instruction expander (35_assembler.md R79 to R116). A pure
function: it reads and writes no core state (R81, R192). -/

namespace Sys2Proof.Machine

/-! ## Results (R79, R80) -/

inductive AsmErrorKind where
  | syntaxError
  | undefinedLabelError
  | immediateRangeError
  deriving DecidableEq, Repr

/-- `Error(kind, line, message)` (R13, R79): the kind and the 1-based physical line are the spec's; the message is any
value (U16; log 9). -/
structure AsmError where
  kind : AsmErrorKind
  line : Nat
  message : Text
  deriving DecidableEq, Repr

/-- What a successful `assemble` returns (R79): the words in order, every defined label with its address in order of
definition (R96), and one entry per pseudo-instruction occurrence (R114). -/
structure Assembled where
  machineCode : List Word
  symbols : List (Text × BitVec 32)
  expansionLog : List Text
  deriving DecidableEq, Repr

/-- Success or the single failure (R79): no partial program stands beside an error. -/
inductive AsmResult where
  | success (program : Assembled)
  | failure (error : AsmError)
  deriving DecidableEq, Repr

/-! ## Operands -/

/-- A target operand: an integer literal is a byte offset used as is, an identifier a label (R89). -/
def readTarget (t : Text) : Option ImmToken :=
  match readInt t with
  | some v => some (.value v)
  | none => if isIdent t then some (.label t) else none

/-- The operand `imm(rs1)` (R90): blanks inside the parentheses are ignored, blanks before them are not (log 10). -/
def readDisplaced (t : Text) : Option (Int × RegIdx) :=
  match cutAt '(' t with
  | (immPart, some rest) =>
    match cutAt ')' rest with
    | (regPart, some []) =>
      match readInt immPart, readRegister (trim regPart) with
      | some v, some r => some (v, r)
      | _, _ => none
    | _ => none
  | _ => none

/-- A canonical instruction from its operands (R90): none for a wrong operand count or kind. Ranges are pass 2's
(R93). -/
def readCanonical (m : Mnemonic) (ops : List Text) : Option InstrToken :=
  match operandForm m, ops with
  | .r, [a, b, c] => do
    let rd ← readRegister a
    let rs1 ← readRegister b
    let rs2 ← readRegister c
    some ⟨m, rd, rs1, rs2, .value 0⟩
  | .i, [a, b, c] => do
    let rd ← readRegister a
    let rs1 ← readRegister b
    let v ← readInt c
    some ⟨m, rd, rs1, 0, .value v⟩
  | .shift, [a, b, c] => do
    let rd ← readRegister a
    let rs1 ← readRegister b
    let v ← readInt c
    some ⟨m, rd, rs1, 0, .value v⟩
  | .load, [a, b] => do
    let rd ← readRegister a
    let d ← readDisplaced b
    some ⟨m, rd, d.2, 0, .value d.1⟩
  | .store, [a, b] => do
    let rs2 ← readRegister a
    let d ← readDisplaced b
    some ⟨m, 0, d.2, rs2, .value d.1⟩
  | .branch, [a, b, c] => do
    let rs1 ← readRegister a
    let rs2 ← readRegister b
    let target ← readTarget c
    some ⟨m, 0, rs1, rs2, target⟩
  | .jal, [a, b] => do
    let rd ← readRegister a
    let target ← readTarget b
    some ⟨m, rd, 0, 0, target⟩
  | .jalr, [a, b, c] => do
    let rd ← readRegister a
    let rs1 ← readRegister b
    let v ← readInt c
    some ⟨m, rd, rs1, 0, .value v⟩
  | .jalr, [a, b] => do
    let rd ← readRegister a
    let d ← readDisplaced b
    some ⟨m, rd, d.2, 0, .value d.1⟩
  | .upper, [a, b] => do
    let rd ← readRegister a
    let v ← readInt b
    some ⟨m, rd, 0, 0, .value v⟩
  | _, _ => none

/-! ## Pseudo-instructions (R104) -/

/-- The 24 pseudo-instructions with their operands. -/
inductive PseudoToken where
  | nop
  | mv (rd rs : RegIdx)
  | li (rd : RegIdx) (v : Int)
  | j (target : ImmToken)
  | call (target : ImmToken)
  | ret
  | jr (rs : RegIdx)
  | la (rd : RegIdx) (name : Text)
  | not (rd rs : RegIdx)
  | neg (rd rs : RegIdx)
  | seqz (rd rs : RegIdx)
  | snez (rd rs : RegIdx)
  | sltz (rd rs : RegIdx)
  | sgtz (rd rs : RegIdx)
  | beqz (rs : RegIdx) (target : ImmToken)
  | bnez (rs : RegIdx) (target : ImmToken)
  | blez (rs : RegIdx) (target : ImmToken)
  | bgez (rs : RegIdx) (target : ImmToken)
  | bltz (rs : RegIdx) (target : ImmToken)
  | bgtz (rs : RegIdx) (target : ImmToken)
  | bgt (rs rt : RegIdx) (target : ImmToken)
  | ble (rs rt : RegIdx) (target : ImmToken)
  | bgtu (rs rt : RegIdx) (target : ImmToken)
  | bleu (rs rt : RegIdx) (target : ImmToken)
  deriving DecidableEq, Repr

/-- How the operands of a pseudo-instruction are read: what a mnemonic makes of them (R104). -/
inductive PseudoForm where
  | none (p : PseudoToken)
  | oneReg (f : RegIdx → PseudoToken)
  | twoRegs (f : RegIdx → RegIdx → PseudoToken)
  | target (f : ImmToken → PseudoToken)
  | regTarget (f : RegIdx → ImmToken → PseudoToken)
  | twoRegsTarget (f : RegIdx → RegIdx → ImmToken → PseudoToken)
  | regInt (f : RegIdx → Int → PseudoToken)
  | regLabel (f : RegIdx → Text → PseudoToken)

/-- The table of R104: mnemonic and operand form. -/
def pseudoTable : List (Text × PseudoForm) :=
  [ ("nop".toList, .none .nop), ("mv".toList, .twoRegs .mv), ("li".toList, .regInt .li), ("j".toList, .target .j)
  , ("call".toList, .target .call), ("ret".toList, .none .ret), ("jr".toList, .oneReg .jr)
  , ("la".toList, .regLabel .la) ] ++
  [ ("not".toList, .twoRegs .not), ("neg".toList, .twoRegs .neg), ("seqz".toList, .twoRegs .seqz)
  , ("snez".toList, .twoRegs .snez), ("sltz".toList, .twoRegs .sltz), ("sgtz".toList, .twoRegs .sgtz) ] ++
  [ ("beqz".toList, .regTarget .beqz), ("bnez".toList, .regTarget .bnez), ("blez".toList, .regTarget .blez)
  , ("bgez".toList, .regTarget .bgez), ("bltz".toList, .regTarget .bltz), ("bgtz".toList, .regTarget .bgtz) ] ++
  [ ("bgt".toList, .twoRegsTarget .bgt), ("ble".toList, .twoRegsTarget .ble), ("bgtu".toList, .twoRegsTarget .bgtu)
  , ("bleu".toList, .twoRegsTarget .bleu) ]

/-- The operand form of a pseudo-instruction mnemonic in lower case. -/
def pseudoForm (name : Text) : Option PseudoForm := (pseudoTable.find? fun e => e.1 == name).map Prod.snd

/-- A pseudo-instruction from its operands: none for a wrong operand count or kind; the operand of `la` must be a
label (R104, R112). -/
def readPseudo (f : PseudoForm) (ops : List Text) : Option PseudoToken :=
  match f, ops with
  | .none p, [] => some p
  | .oneReg f, [a] => do
    let r ← readRegister a
    some (f r)
  | .twoRegs f, [a, b] => do
    let r ← readRegister a
    let r' ← readRegister b
    some (f r r')
  | .target f, [a] => do
    let t ← readTarget a
    some (f t)
  | .regTarget f, [a, b] => do
    let r ← readRegister a
    let t ← readTarget b
    some (f r t)
  | .twoRegsTarget f, [a, b, c] => do
    let r ← readRegister a
    let r' ← readRegister b
    let t ← readTarget c
    some (f r r' t)
  | .regInt f, [a, b] => do
    let r ← readRegister a
    let v ← readInt b
    some (f r v)
  | .regLabel f, [a, b] => do
    let r ← readRegister a
    if isIdent b then some (f r b) else none
  | _, _ => none

/-- `ra` is x1 (R19, R104). -/
def raReg : RegIdx := 1

/-- The low part of a split constant: `A[11:0]`, which `addi` sign-extends (R107, R112). -/
def loPart (a : Word) : BitVec 12 := a.extractLsb' 0 12

/-- The high part: `((A - lo) mod 2^32) >> 12` with `lo = sext_12(A[11:0])` (R107, R112). -/
def hiPart (a : Word) : BitVec 20 := (a - signImm12 (loPart a)).extractLsb' 12 20

/-- `li` (R107, D29): one `addi` for `v` in [-2048, 2047], else `lui` and `addi`, two words even where `lo = 0`; none
outside `[-2^31, 2^32-1]`. -/
def expandLi (rd : RegIdx) (v : Int) : Option (List InstrToken) :=
  if v < -(2 ^ 31) || 2 ^ 32 - 1 < v then none
  else if -2048 ≤ v && v ≤ 2047 then some [⟨.addi, rd, 0, 0, .value v⟩]
  else
    let u := BitVec.ofInt 32 v
    some [⟨.lui, rd, 0, 0, .value (hiPart u).toNat⟩, ⟨.addi, rd, rd, 0, .value (loPart u).toInt⟩]

/-- `expand` (R104 to R113): a pure function of the pseudo-instruction; none only where `li` is out of range. -/
def expand : PseudoToken → Option (List InstrToken)
  | .nop => some [⟨.addi, 0, 0, 0, .value 0⟩]
  | .mv rd rs => some [⟨.addi, rd, rs, 0, .value 0⟩]
  | .li rd v => expandLi rd v
  | .j target => some [⟨.jal, 0, 0, 0, target⟩]
  | .call target => some [⟨.jal, raReg, 0, 0, target⟩]
  | .ret => some [⟨.jalr, 0, raReg, 0, .value 0⟩]
  | .jr rs => some [⟨.jalr, 0, rs, 0, .value 0⟩]
  | .la rd name => some [⟨.lui, rd, 0, 0, .hi name⟩, ⟨.addi, rd, rd, 0, .lo name⟩]
  | .not rd rs => some [⟨.xori, rd, rs, 0, .value (-1)⟩]
  | .neg rd rs => some [⟨.sub, rd, 0, rs, .value 0⟩]
  | .seqz rd rs => some [⟨.sltiu, rd, rs, 0, .value 1⟩]
  | .snez rd rs => some [⟨.sltu, rd, 0, rs, .value 0⟩]
  | .sltz rd rs => some [⟨.slt, rd, rs, 0, .value 0⟩]
  | .sgtz rd rs => some [⟨.slt, rd, 0, rs, .value 0⟩]
  | .beqz rs target => some [⟨.beq, 0, rs, 0, target⟩]
  | .bnez rs target => some [⟨.bne, 0, rs, 0, target⟩]
  | .blez rs target => some [⟨.bge, 0, 0, rs, target⟩]
  | .bgez rs target => some [⟨.bge, 0, rs, 0, target⟩]
  | .bltz rs target => some [⟨.blt, 0, rs, 0, target⟩]
  | .bgtz rs target => some [⟨.blt, 0, 0, rs, target⟩]
  | .bgt rs rt target => some [⟨.blt, 0, rt, rs, target⟩]
  | .ble rs rt target => some [⟨.bge, 0, rt, rs, target⟩]
  | .bgtu rs rt target => some [⟨.bltu, 0, rt, rs, target⟩]
  | .bleu rs rt target => some [⟨.bgeu, 0, rt, rs, target⟩]

/-- The log entry of one pseudo-instruction: the instruction as written, ` -> `, the emitted instructions joined by
`; ` (R115). -/
def logEntry (written : Text) (emitted : List InstrToken) : Text :=
  collapseBlanks written ++ " -> ".toList ++ List.intercalate [';', ' '] (emitted.map tokenText)

/-! ## Pass 1 (R92) -/

/-- A token with the line it stands on and its byte address. -/
structure PlacedToken where
  line : Nat
  address : Nat
  token : InstrToken
  deriving DecidableEq, Repr

/-- The variables of pass 1: `sym`, `toks`, `log`, `addr` (R92). -/
structure PassOne where
  sym : List (Text × Nat)
  toks : List PlacedToken
  log : List Text
  addr : Nat
  deriving DecidableEq, Repr

/-- The address of a label (R13). -/
def symbolAddress (sym : List (Text × Nat)) (name : Text) : Option Nat :=
  (sym.find? fun e => e.1 == name).map Prod.snd

/-- An identifier immediately followed by `:` at the start of a line, and the rest of the line (R84). -/
def takeLabel (t : Text) : Option (Text × Text) :=
  match cutAt ':' t with
  | (name, some rest) => if isIdent name then some (name, trim rest) else none
  | (_, none) => none

/-- The labels at the start of a line, in order, and what follows them (R84, R92). Each label takes at least one
character, so the length of the line is enough fuel. -/
def splitLabels : Nat → Text → List Text × Text
  | 0, t => ([], t)
  | fuel + 1, t =>
    match takeLabel t with
    | none => ([], t)
    | some (name, rest) =>
      match splitLabels fuel rest with
      | (names, body) => (name :: names, body)

/-- A line without its comment and surrounding blanks (R83). -/
def lineText (line : Text) : Text := trim (stripComment line)

/-- The labels a line defines (R84). -/
def lineLabels (line : Text) : List Text := (splitLabels (lineText line).length (lineText line)).1

/-- The instruction of a line, empty where it has none (R84). -/
def lineBody (line : Text) : Text := (splitLabels (lineText line).length (lineText line)).2

/-- Record labels in order, each at the current address (R84, R92); none on a duplicate. -/
def recordLabels (addr : Nat) : List (Text × Nat) → List Text → Option (List (Text × Nat))
  | sym, [] => some sym
  | sym, name :: names =>
    match symbolAddress sym name with
    | some _ => none
    | none => recordLabels addr (sym ++ [(name, addr)]) names

/-- The mnemonic and the operands of an instruction (R85). -/
def splitInstruction (t : Text) : Text × List Text :=
  let mn := t.takeWhile fun c => !isBlank c
  let rest := trim (t.dropWhile fun c => !isBlank c)
  (mn, if rest.isEmpty then [] else (splitAll ',' rest).map trim)

/-- Give tokens consecutive addresses from `addr` (R92, R113). -/
def place (line addr : Nat) : List InstrToken → List PlacedToken
  | [] => []
  | t :: ts => ⟨line, addr, t⟩ :: place line (addr + 4) ts

/-- Append the tokens a line emits (R92). -/
def PassOne.emit (st : PassOne) (line : Nat) (ts : List InstrToken) : PassOne :=
  { st with toks := st.toks ++ place line st.addr ts, addr := st.addr + 4 * ts.length }

/-- The canonical mnemonic of a lower-case name (R90). -/
def canonicalMnemonic (name : Text) : Option Mnemonic := allMnemonics.find? fun m => mnemonicText m == name

/-- Whether a line holds a pseudo-instruction (R104, R114). -/
def isPseudoLine (line : Text) : Bool :=
  !(lineBody line).isEmpty && (pseudoForm (lowerText (splitInstruction (lineBody line)).1)).isSome

/-- One instruction of pass 1: canonical, pseudo, or a SyntaxError (R92, R86). -/
def passOneInstr (line : Nat) (t : Text) (st : PassOne) : Except AsmError PassOne :=
  let mn := (splitInstruction t).1
  let ops := (splitInstruction t).2
  if mn.head? == some '.' then .error ⟨.syntaxError, line, "directives are not supported".toList⟩
  else
    match canonicalMnemonic (lowerText mn) with
    | some m =>
      match readCanonical m ops with
      | some tok => .ok (st.emit line [tok])
      | none => .error ⟨.syntaxError, line, "malformed operands".toList⟩
    | none =>
      match pseudoForm (lowerText mn) with
      | some f =>
        match readPseudo f ops with
        | none => .error ⟨.syntaxError, line, "malformed operands".toList⟩
        | some p =>
          match expand p with
          | none => .error ⟨.immediateRangeError, line, "li value out of range".toList⟩
          | some ts => .ok { st.emit line ts with log := st.log ++ [logEntry t ts] }
      | none => .error ⟨.syntaxError, line, "unknown mnemonic".toList⟩

/-- One line of pass 1 (R92). -/
def passOneLine (line : Nat) (text : Text) (st : PassOne) : Except AsmError PassOne :=
  match recordLabels st.addr st.sym (lineLabels text) with
  | none => .error ⟨.syntaxError, line, "duplicate label".toList⟩
  | some sym =>
    if (lineBody text).isEmpty then .ok { st with sym := sym }
    else passOneInstr line (lineBody text) { st with sym := sym }

/-- The lines in order, numbered from `line`; the first failing line is the result (R102). -/
def passOneLines : Nat → List Text → PassOne → Except AsmError PassOne
  | _, [], st => .ok st
  | line, l :: ls, st =>
    match passOneLine line l st with
    | .ok st' => passOneLines (line + 1) ls st'
    | .error e => .error e

/-- Pass 1 of a text (R92): `sym`, `toks` and `log` empty and `addr` 0 at the start, lines numbered from 1 (R82). -/
def passOne (text : Text) : Except AsmError PassOne := passOneLines 1 (splitLines text) ⟨[], [], [], 0⟩

/-! ## Pass 2 (R98 to R100) -/

/-- A label's address as an absolute 32-bit address (R98, R112). -/
def absoluteAddress (a : Nat) : Word := BitVec.ofNat 32 a

/-- The value of an immediate at address `addr`: none for a label that is not defined (R98, R112). -/
def resolveImm (sym : List (Text × Nat)) (addr : Nat) : ImmToken → Option Int
  | .value v => some v
  | .label name => (symbolAddress sym name).map fun (a : Nat) => (a : Int) - (addr : Int)
  | .hi name => (symbolAddress sym name).map fun (a : Nat) => ((hiPart (absoluteAddress a)).toNat : Int)
  | .lo name => (symbolAddress sym name).map fun (a : Nat) => (loPart (absoluteAddress a)).toInt

/-- The encodable range of each operand form (R90, R91). -/
def immInRange (f : OperandForm) (v : Int) : Bool :=
  match f with
  | .r => true
  | .i => decide (-2048 ≤ v) && decide (v ≤ 2047)
  | .shift => decide (0 ≤ v) && decide (v ≤ 31)
  | .load => decide (-2048 ≤ v) && decide (v ≤ 2047)
  | .store => decide (-2048 ≤ v) && decide (v ≤ 2047)
  | .branch => decide (v % 2 = 0) && decide (-4096 ≤ v) && decide (v ≤ 4094)
  | .jal => decide (v % 2 = 0) && decide (-1048576 ≤ v) && decide (v ≤ 1048574)
  | .jalr => decide (-2048 ≤ v) && decide (v ≤ 2047)
  | .upper => decide (0 ≤ v) && decide (v ≤ 1048575)

/-- Resolve, check and encode one token (R98 to R100). -/
def passTwoToken (sym : List (Text × Nat)) (p : PlacedToken) : Except AsmError Word :=
  match resolveImm sym p.address p.token.imm with
  | none => .error ⟨.undefinedLabelError, p.line, "undefined label".toList⟩
  | some v =>
    if immInRange (operandForm p.token.mnemonic) v then
      .ok (encode (buildInstr p.token.mnemonic p.token.rd p.token.rs1 p.token.rs2 v))
    else .error ⟨.immediateRangeError, p.line, "immediate out of range".toList⟩

/-- Pass 2 in token order; the first failure is the result (R98, R102). -/
def passTwo (sym : List (Text × Nat)) : List PlacedToken → Except AsmError (List Word)
  | [] => .ok []
  | p :: ps =>
    match passTwoToken sym p with
    | .error e => .error e
    | .ok w =>
      match passTwo sym ps with
      | .error e => .error e
      | .ok ws => .ok (w :: ws)

/-- `assemble(text)` (R79). Symbol addresses are output as u32 (R96). -/
def assemble (text : Text) : AsmResult :=
  match passOne text with
  | .error e => .failure e
  | .ok st =>
    match passTwo st.sym st.toks with
    | .error e => .failure e
    | .ok words => .success ⟨words, st.sym.map fun e => (e.1, BitVec.ofNat 32 e.2), st.log⟩

end Sys2Proof.Machine
end

