-- ==== Sys2Proof/Machine/Commands.lean ====
section
/-! DEFINITION. The host command interface (40_core_cycle.md R130, R133; 70_reset_and_hazards.md R193 to R196) and the
read-out of the state (10_state.md R31). -/

namespace Sys2Proof.Machine

/-- At most `fuel` steps, none once the core is halted. -/
def runSteps : Nat → State → Host.Outcome State Fault Refusal
  | 0, s => .next s
  | fuel + 1, s =>
    if halted s then .next s
    else
      match step s with
      | .next t => runSteps fuel t
      | .fault r => .fault r
      | .refused r => .refused r

/-- `run()` (R130): `while cycles < CYCLE_CEILING: step()`. Each step of the loop adds 1 to `cycles` (R127), so
CYCLE_CEILING steps of fuel are never used up before the loop ends (log 7). -/
def run (s : State) : Host.Outcome State Fault Refusal := runSteps Config.cycleCeiling s

/-- `reset()` (R194): the constructed state, of the same memory size. -/
def resetCore (s : State) : State := State.construct s.memSize

/-- The bytes of a program, each word little-endian, in order (R195). -/
def programBytes (words : List Word) : List Byte := words.flatMap bytesOfWord

/-- `load_program(words)` (R195): registers, `pc`, `cycles` and `warnings` as at construction, the words at
`[0, 4n)`, the rest of memory unchanged; refused with no transition where `4n > MEM_SIZE` (R196). -/
def loadProgram (words : List Word) (s : State) : Host.Outcome State Fault Refusal :=
  if 4 * words.length ≤ s.memSize then
    .next { State.construct s.memSize with mem := Memory.writeList s.mem 0 (programBytes words) }
  else .refused (.programTooLarge words.length)

/-- The commands that act on a constructed core (R133). -/
inductive Command where
  | loadProgram (words : List Word)
  | step
  | run
  | reset
  deriving DecidableEq, Repr

/-- One command, one atomic transition (R118, R133). -/
def command (c : Command) (s : State) : Host.Outcome State Fault Refusal :=
  match c with
  | .loadProgram words => loadProgram words s
  | .step => step s
  | .run => run s
  | .reset => .next (resetCore s)

/-- The state after a command: unchanged where the command is refused (R196). -/
def afterCommand (c : Command) (s : State) : State :=
  match command c s with
  | .next t => t
  | .fault _ => s
  | .refused _ => s

/-- A core after a sequence of commands, in order (R134). -/
def afterCommands : List Command → State → State
  | [], s => s
  | c :: cs, s => afterCommands cs (afterCommand c s)

/-- What the host reads between commands (R31, R133). -/
structure ReadOut where
  /-- `regs[0..32)` as i32. -/
  regs : List Int
  /-- `mem[0..size)` as bytes. -/
  mem : List Byte
  /-- `pc` as u32. -/
  pc : Nat
  /-- `cycles` as u32. -/
  cycles : Nat
  warnings : List WarningEntry
  deriving DecidableEq, Repr

/-- The read-state command (R31, R133); it changes nothing. -/
def readOut (s : State) : ReadOut where
  regs := s.regs.toList.map BitVec.toInt
  mem := (List.range s.memSize).map (readByte s)
  pc := s.pc.toNat
  cycles := s.cycles.toNat
  warnings := s.warnings

end Sys2Proof.Machine
end

