-- ==== Sys2Proof/Safety.lean ====
section
/-! DEFINITION. What counts as a legal state and a safe step, and what an instruction may change, in the terms the
statements use. -/

namespace Sys2Proof.Machine

/-! ## The invariant of the machine -/

/-- The warning record is in step order and older than the present: the entries' cycles rise strictly and lie below
`cycles`, since a step records at most one entry, under the value of `cycles` before it (R32, R180). -/
def WarningsInOrder (s : State) : Prop :=
  s.warnings.Pairwise (fun a b => a.cycle.toNat < b.cycle.toNat) ∧ ∀ e ∈ s.warnings, e.cycle.toNat < s.cycles.toNat

/-- What holds in every state a run reaches. -/
structure LegalState (s : State) : Prop where
  /-- MEM_SIZE is a size the spec allows (R6, D1). -/
  size : Config.memSizeOk s.memSize = true
  /-- The stored register 0 is 0 (R18). -/
  zeroReg : s.regs[0] = 0#32
  /-- The memory list is canonical. -/
  canonical : Memory.wf s.mem = true
  /-- No byte is listed outside `[0, MEM_SIZE)` (R30, R37). -/
  within : Memory.within s.memSize s.mem = true
  /-- `cycles` never exceeds the ceiling (R28). -/
  ceiling : s.cycles.toNat ≤ Config.cycleCeiling
  /-- `pc` is even: offsets have an implicit zero bit 0 (R56) and `jalr` clears bit 0 (R173). Word alignment is NOT
  guaranteed (R25). -/
  evenPc : s.pc.getLsbD 0 = false
  /-- The warning record is in order. -/
  order : WarningsInOrder s

/-- A step that records no warning (R32, R132): the premise a claim about a program takes. -/
def NoWarning (s t : State) : Prop := t.warnings = s.warnings

/-! ## What a step may change -/

/-- Every register, every byte, the warnings and the memory size are those of `s`; one cycle is counted and `pc` is
`nextPc`. -/
def OnlyAdvances (s t : State) (nextPc : Word) : Prop :=
  (∀ r, readReg t r = readReg s r) ∧ (∀ a, readByte t a = readByte s a) ∧ t.pc = nextPc ∧
    t.cycles = s.cycles + 1 ∧ t.warnings = s.warnings ∧ t.memSize = s.memSize

/-- Only register `rd` is written, with `v`; for `rd = x0` the write is discarded (R18) and no register changes. -/
def WritesRegister (s t : State) (rd : RegIdx) (v nextPc : Word) : Prop :=
  (∀ r, readReg t r = if r = rd ∧ rd ≠ 0#5 then v else readReg s r) ∧ (∀ a, readByte t a = readByte s a) ∧
    t.pc = nextPc ∧ t.cycles = s.cycles + 1 ∧ t.warnings = s.warnings ∧ t.memSize = s.memSize

/-- Only the bytes `bs` are stored, the first at address `addr`; every byte outside them and every register is
unchanged. -/
def StoresBytes (s t : State) (addr : Nat) (bs : List Byte) : Prop :=
  (∀ r, readReg t r = readReg s r) ∧
    (∀ a, readByte t a = if addr ≤ a then (bs[a - addr]?).getD (readByte s a) else readByte s a) ∧
    t.pc = s.pc + 4 ∧ t.cycles = s.cycles + 1 ∧ t.warnings = s.warnings ∧ t.memSize = s.memSize

/-- A warning step (R124): one entry with the old `cycles` and `pc`, `pc + 4`, one cycle, nothing else. -/
def OnlyWarns (s t : State) (w : Warning) : Prop :=
  (∀ r, readReg t r = readReg s r) ∧ (∀ a, readByte t a = readByte s a) ∧ t.pc = s.pc + 4 ∧
    t.cycles = s.cycles + 1 ∧ t.warnings = s.warnings ++ [⟨s.cycles, s.pc, w⟩] ∧ t.memSize = s.memSize

/-! ## What a word says -/

/-- The value of the immediate or offset of a word in one operand form, signed where R56 sign-extends it; the R form
has none. -/
def immediateOf (f : OperandForm) (w : Word) : Int :=
  match f with
  | .r => 0
  | .i => (w.extractLsb' 20 12).toInt
  | .shift => (w.extractLsb' 20 5).toNat
  | .load => (w.extractLsb' 20 12).toInt
  | .store => (w.extractLsb' 25 7 ++ w.extractLsb' 7 5).toInt
  | .branch => (w.extractLsb' 31 1 ++ w.extractLsb' 7 1 ++ w.extractLsb' 25 6 ++ w.extractLsb' 8 4 ++ 0b0#1).toInt
  | .jal => (w.extractLsb' 31 1 ++ w.extractLsb' 12 8 ++ w.extractLsb' 20 1 ++ w.extractLsb' 21 10 ++ 0b0#1).toInt
  | .jalr => (w.extractLsb' 20 12).toInt
  | .upper => (w.extractLsb' 12 20).toNat

/-- The instruction named `m` with its operands taken from the fields of `w` (R54, R56). -/
def fieldsOf (m : Mnemonic) (w : Word) : Instr :=
  buildInstr m (w.extractLsb' 7 5) (w.extractLsb' 15 5) (w.extractLsb' 20 5) (immediateOf (operandForm m) w)

/-- A word is the instruction named `m`, with its fields, exactly when `w & mask = match` (R66, R67). -/
def SelectedBy (mask pattern : Word) (m : Mnemonic) : Prop :=
  ∀ w, w &&& mask = pattern ↔ decode w = .instr (fieldsOf m w)

/-! ## What a line and an immediate of assembly text mean -/

/-- The ranges of R90, a branch or `jal` offset even besides (R91). -/
def EncodableValue (m : Mnemonic) (v : Int) : Prop :=
  match m with
  | .add | .sub | .sll | .slt | .sltu | .xor | .srl | .sra | .or | .and => True
  | .addi | .slti | .sltiu | .xori | .ori | .andi => -2048 ≤ v ∧ v ≤ 2047
  | .slli | .srli | .srai => 0 ≤ v ∧ v ≤ 31
  | .lb | .lh | .lw | .lbu | .lhu => -2048 ≤ v ∧ v ≤ 2047
  | .sb | .sh | .sw => -2048 ≤ v ∧ v ≤ 2047
  | .beq | .bne | .blt | .bge | .bltu | .bgeu => v % 2 = 0 ∧ -4096 ≤ v ∧ v ≤ 4094
  | .jal => v % 2 = 0 ∧ -1048576 ≤ v ∧ v ≤ 1048574
  | .jalr => -2048 ≤ v ∧ v ≤ 2047
  | .lui | .auipc => 0 ≤ v ∧ v ≤ 1048575

/-- `lo = s(sext_12(A[11:0]))`, an integer in [-2048, 2047] (R112). -/
def signedLow12 (a : Nat) : Int := if a % 4096 < 2048 then a % 4096 else a % 4096 - 4096

/-- The value of an immediate of the instruction at byte address `addr`: a literal as is; a branch or `jal` label the
offset from that address; the parts of `la` from the label's absolute address (R98, R112). None for a label without
address. -/
def ImmediateIs (sym : List (Text × Nat)) (addr : Nat) (imm : ImmToken) (v : Int) : Prop :=
  match imm with
  | .value x => v = x
  | .label name => ∃ a, symbolAddress sym name = some a ∧ v = (a : Int) - addr
  | .hi name => ∃ a, symbolAddress sym name = some a ∧ v = (a - signedLow12 a) % 2 ^ 32 / 2 ^ 12
  | .lo name => ∃ a, symbolAddress sym name = some a ∧ v = signedLow12 a

/-- The label an immediate refers to. -/
def labelOf : ImmToken → Option Text
  | .value _ => none
  | .label name => some name
  | .hi name => some name
  | .lo name => some name

/-- How many canonical instructions an instruction emits, by its mnemonic in lower case and its operands: two for `la`,
one or two for `li` by its literal, else one (R104, R107). -/
def instructionWords (name : Text) (ops : List Text) : Nat :=
  if name = "la".toList then 2
  else if name = "li".toList then
    match ops[1]?.bind readInt with
    | some v => if -2048 ≤ v ∧ v ≤ 2047 then 1 else 2
    | none => 1
  else 1

/-- How many canonical instructions a line emits, from the line's own text alone (R94): none where it has no
instruction. -/
def lineWords (line : Text) : Nat :=
  if lineBody line = [] then 0
  else instructionWords (lowerText (splitInstruction (lineBody line)).1) (splitInstruction (lineBody line)).2

/-- How many canonical instructions the first `k` lines emit. -/
def wordsBefore (lines : List Text) (k : Nat) : Nat := ((lines.take k).map lineWords).sum

/-! ## Kinds of instruction -/

/-- The register an instruction writes: none for stores and branches (R55). -/
def destinationOf : Instr → Option RegIdx
  | .add rd _ _ => some rd
  | .sub rd _ _ => some rd
  | .sll rd _ _ => some rd
  | .slt rd _ _ => some rd
  | .sltu rd _ _ => some rd
  | .xor rd _ _ => some rd
  | .srl rd _ _ => some rd
  | .sra rd _ _ => some rd
  | .or rd _ _ => some rd
  | .and rd _ _ => some rd
  | .addi rd _ _ => some rd
  | .slti rd _ _ => some rd
  | .sltiu rd _ _ => some rd
  | .xori rd _ _ => some rd
  | .ori rd _ _ => some rd
  | .andi rd _ _ => some rd
  | .slli rd _ _ => some rd
  | .srli rd _ _ => some rd
  | .srai rd _ _ => some rd
  | .lb rd _ _ => some rd
  | .lh rd _ _ => some rd
  | .lw rd _ _ => some rd
  | .lbu rd _ _ => some rd
  | .lhu rd _ _ => some rd
  | .sb _ _ _ => none
  | .sh _ _ _ => none
  | .sw _ _ _ => none
  | .beq _ _ _ => none
  | .bne _ _ _ => none
  | .blt _ _ _ => none
  | .bge _ _ _ => none
  | .bltu _ _ _ => none
  | .bgeu _ _ _ => none
  | .jal rd _ => some rd
  | .jalr rd _ _ => some rd
  | .lui rd _ => some rd
  | .auipc rd _ => some rd

/-- The address and width of the memory access of a load or store (R38, R43). -/
def accessOf (i : Instr) (s : State) : Option (Word × Nat) :=
  match i with
  | .lb _ rs1 imm12 => some (readReg s rs1 + imm12.signExtend 32, 1)
  | .lh _ rs1 imm12 => some (readReg s rs1 + imm12.signExtend 32, 2)
  | .lw _ rs1 imm12 => some (readReg s rs1 + imm12.signExtend 32, 4)
  | .lbu _ rs1 imm12 => some (readReg s rs1 + imm12.signExtend 32, 1)
  | .lhu _ rs1 imm12 => some (readReg s rs1 + imm12.signExtend 32, 2)
  | .sb rs1 _ imm12 => some (readReg s rs1 + imm12.signExtend 32, 1)
  | .sh rs1 _ imm12 => some (readReg s rs1 + imm12.signExtend 32, 2)
  | .sw rs1 _ imm12 => some (readReg s rs1 + imm12.signExtend 32, 4)
  | _ => none

/-- Where a taken branch, `jal` or `jalr` goes; none for every other instruction and for a branch not taken
(R125, R165 to R173). -/
def takenTarget (i : Instr) (s : State) : Option Word :=
  match i with
  | .beq rs1 rs2 imm13 => if readReg s rs1 = readReg s rs2 then some (s.pc + imm13.signExtend 32) else none
  | .bne rs1 rs2 imm13 => if readReg s rs1 = readReg s rs2 then none else some (s.pc + imm13.signExtend 32)
  | .blt rs1 rs2 imm13 =>
    if (readReg s rs1).toInt < (readReg s rs2).toInt then some (s.pc + imm13.signExtend 32) else none
  | .bge rs1 rs2 imm13 =>
    if (readReg s rs1).toInt < (readReg s rs2).toInt then none else some (s.pc + imm13.signExtend 32)
  | .bltu rs1 rs2 imm13 =>
    if (readReg s rs1).toNat < (readReg s rs2).toNat then some (s.pc + imm13.signExtend 32) else none
  | .bgeu rs1 rs2 imm13 =>
    if (readReg s rs1).toNat < (readReg s rs2).toNat then none else some (s.pc + imm13.signExtend 32)
  | .jal _ imm21 => some (s.pc + imm21.signExtend 32)
  | .jalr _ rs1 imm12 => some ((readReg s rs1 + imm12.signExtend 32) &&& 0xFFFFFFFE#32)
  | _ => none

/-! ## Warnings -/

/-- When a step records a warning, with the earlier checks passed (R178, R180): each cause excludes the others. -/
def WarningCause (s : State) : Warning → Prop
  | .fetch => s.cycles.toNat < Config.cycleCeiling ∧ s.memSize < s.pc.toNat + 4
  | .decode u =>
    s.cycles.toNat < Config.cycleCeiling ∧ s.pc.toNat + 4 ≤ s.memSize ∧ u = memRead32 s s.pc ∧
      ∀ r ∈ opcodeTable, u &&& r.mask ≠ r.pattern
  | .access ea =>
    s.cycles.toNat < Config.cycleCeiling ∧ s.pc.toNat + 4 ≤ s.memSize ∧
      ∃ i n, decode (memRead32 s s.pc) = .instr i ∧ accessOf i s = some (ea, n) ∧ s.memSize < ea.toNat + n

/-! ## Short sequences of instructions -/

/-- The instructions executed one after another: what an expansion of a pseudo-instruction does. -/
def execAll : List Instr → State → Host.Outcome State Fault Refusal
  | [], s => .next s
  | i :: is, s =>
    match exec i s with
    | .next t => execAll is t
    | .fault r => .fault r
    | .refused r => .refused r

end Sys2Proof.Machine
end

