-- ==== Sys2Proof/Certificates/Slice0/Obligations.lean ====
section
/-! DEFINITION. The statements, in the order of the spec's files. Words of a rule stand in OBLIGATIONS.json. -/

section

open Sys2Proof Sys2Proof.Machine

/-! ## Encoding and decoding (30_encoding.md) -/

/-- R55, R56, R67, R100: the decoder reads back every operand of every instruction the encoder can write. -/
def Obligations.DecodeOfEncode : Prop :=
  ∀ i : Instr, i.wellFormed = true → decode (encode i) = .instr i

/-- R55, R56, R67: a word that decodes to an instruction is the encoding of it, and of nothing else. -/
def Obligations.EncodeOfDecode : Prop :=
  ∀ (w : Word) (i : Instr), decode w = .instr i → i.wellFormed = true ∧ encode i = w

/-- R67: the decoder follows the opcode table on every word, with the operands taken from the fields. -/
def Obligations.DecodeFollowsTable : Prop :=
  ∀ w : Word,
    (∀ r ∈ opcodeTable, w &&& r.mask = r.pattern → decode w = .instr (fieldsOf r.mnemonic w)) ∧
    ((∀ r ∈ opcodeTable, w &&& r.mask ≠ r.pattern) → decode w = .unknown w)

/-- R66: every mnemonic has exactly one row, and no two rows match the same word. -/
def Obligations.RowsAreDisjoint : Prop :=
  opcodeTable.map (fun r => r.mnemonic) = allMnemonics ∧
    opcodeTable.Pairwise (fun a b => ∀ w : Word, w &&& a.mask = a.pattern → w &&& b.mask ≠ b.pattern)

/-- R68, R70: what never decodes: low bits other than 11, an opcode outside the nine (FENCE, SYSTEM and every custom
opcode among them), a funct7 outside R59 and R60, a funct3 outside R61 to R64. -/
def Obligations.StrictDecoding : Prop :=
  (∀ w : Word, w.extractLsb' 0 2 ≠ 3#2 → decode w = .unknown w) ∧
  (∀ w : Word, w.extractLsb' 0 7 ∉ [0x33#7, 0x13#7, 0x03#7, 0x23#7, 0x63#7, 0x6F#7, 0x67#7, 0x37#7, 0x17#7] →
    decode w = .unknown w) ∧
  (∀ w : Word, w.extractLsb' 0 7 = 0x33#7 → w.extractLsb' 25 7 ≠ 0x00#7 →
    ¬(w.extractLsb' 25 7 = 0x20#7 ∧ (w.extractLsb' 12 3 = 0#3 ∨ w.extractLsb' 12 3 = 5#3)) → decode w = .unknown w) ∧
  (∀ w : Word, w.extractLsb' 0 7 = 0x13#7 → w.extractLsb' 12 3 = 1#3 ∨ w.extractLsb' 12 3 = 5#3 →
    w.extractLsb' 25 7 ≠ 0x00#7 → ¬(w.extractLsb' 25 7 = 0x20#7 ∧ w.extractLsb' 12 3 = 5#3) → decode w = .unknown w) ∧
  (∀ w : Word, w.extractLsb' 0 7 = 0x03#7 → w.extractLsb' 12 3 ∈ [3#3, 6#3, 7#3] → decode w = .unknown w) ∧
  (∀ w : Word, w.extractLsb' 0 7 = 0x23#7 → w.extractLsb' 12 3 ∉ [0#3, 1#3, 2#3] → decode w = .unknown w) ∧
  (∀ w : Word, w.extractLsb' 0 7 = 0x63#7 → w.extractLsb' 12 3 ∈ [2#3, 3#3] → decode w = .unknown w) ∧
  (∀ w : Word, w.extractLsb' 0 7 = 0x67#7 → w.extractLsb' 12 3 ≠ 0#3 → decode w = .unknown w)

/-- The words of the examples of the rules, one or more per family, decode to the instruction they stand for. -/
def Obligations.ExampleWordsDecode : Prop :=
  decode 0x002081B3#32 = .instr (.add 3 1 2) ∧ decode 0x4020D1B3#32 = .instr (.sra 3 1 2) ∧
  decode 0x00A30293#32 = .instr (.addi 5 6 10) ∧ decode 0x41F35293#32 = .instr (.srai 5 6 31) ∧
  decode 0xFFC02183#32 = .instr (.lw 3 0 (-4)) ∧ decode 0x00112223#32 = .instr (.sw 2 1 4) ∧
  decode 0xFE208CE3#32 = .instr (.beq 1 2 (-8)) ∧ decode 0x00C000EF#32 = .instr (.jal 1 12) ∧
  decode 0x003280E7#32 = .instr (.jalr 1 5 3) ∧ decode 0x000012B7#32 = .instr (.lui 5 1) ∧
  decode 0x00001297#32 = .instr (.auipc 5 1) ∧ decode 0x00000073#32 = .unknown 0x00000073#32

/-! ## R-type (41_rtype.md) -/

/-- R135, R136: the sum and the difference modulo 2^32. -/
def Obligations.AddSub : Prop :=
  (∀ (s : State) (rd rs1 rs2 : RegIdx), ∃ t, exec (.add rd rs1 rs2) s = .next t ∧
    WritesRegister s t rd (BitVec.ofNat 32 ((readReg s rs1).toNat + (readReg s rs2).toNat)) (s.pc + 4)) ∧
  (∀ (s : State) (rd rs1 rs2 : RegIdx), ∃ t, exec (.sub rd rs1 rs2) s = .next t ∧
    WritesRegister s t rd (BitVec.ofInt 32 ((readReg s rs1).toInt - (readReg s rs2).toInt)) (s.pc + 4)) ∧
  SelectedBy 0xFE00707F#32 0x00000033#32 .add ∧ SelectedBy 0xFE00707F#32 0x40000033#32 .sub ∧
  decode 0x002081B3#32 = .instr (.add 3 1 2) ∧ decode 0x402081B3#32 = .instr (.sub 3 1 2)

/-- R137, R141, R142: the shift amount is the low 5 bits of `x[rs2]`; `sll` multiplies and drops what leaves bit 31,
`srl` divides the unsigned value, `sra` the signed value, towards minus infinity. -/
def Obligations.RegisterShifts : Prop :=
  (∀ (s : State) (rd rs1 rs2 : RegIdx), ∃ t, exec (.sll rd rs1 rs2) s = .next t ∧
    WritesRegister s t rd (BitVec.ofNat 32 ((readReg s rs1).toNat * 2 ^ ((readReg s rs2).toNat % 32))) (s.pc + 4)) ∧
  (∀ (s : State) (rd rs1 rs2 : RegIdx), ∃ t, exec (.srl rd rs1 rs2) s = .next t ∧
    WritesRegister s t rd (BitVec.ofNat 32 ((readReg s rs1).toNat / 2 ^ ((readReg s rs2).toNat % 32))) (s.pc + 4)) ∧
  (∀ (s : State) (rd rs1 rs2 : RegIdx), ∃ t, exec (.sra rd rs1 rs2) s = .next t ∧
    WritesRegister s t rd (BitVec.ofInt 32 ((readReg s rs1).toInt / 2 ^ ((readReg s rs2).toNat % 32))) (s.pc + 4)) ∧
  SelectedBy 0xFE00707F#32 0x00001033#32 .sll ∧ SelectedBy 0xFE00707F#32 0x00005033#32 .srl ∧
  SelectedBy 0xFE00707F#32 0x40005033#32 .sra ∧ decode 0x002091B3#32 = .instr (.sll 3 1 2) ∧
  decode 0x0020D1B3#32 = .instr (.srl 3 1 2) ∧ decode 0x4020D1B3#32 = .instr (.sra 3 1 2)

/-- R138, R139: 1 or 0 by the signed or the unsigned order. -/
def Obligations.RegisterCompares : Prop :=
  (∀ (s : State) (rd rs1 rs2 : RegIdx), ∃ t, exec (.slt rd rs1 rs2) s = .next t ∧
    WritesRegister s t rd (if (readReg s rs1).toInt < (readReg s rs2).toInt then 1 else 0) (s.pc + 4)) ∧
  (∀ (s : State) (rd rs1 rs2 : RegIdx), ∃ t, exec (.sltu rd rs1 rs2) s = .next t ∧
    WritesRegister s t rd (if (readReg s rs1).toNat < (readReg s rs2).toNat then 1 else 0) (s.pc + 4)) ∧
  SelectedBy 0xFE00707F#32 0x00002033#32 .slt ∧ SelectedBy 0xFE00707F#32 0x00003033#32 .sltu ∧
  decode 0x0020A1B3#32 = .instr (.slt 3 1 2) ∧ decode 0x0020B1B3#32 = .instr (.sltu 3 1 2)

/-- R140, R143, R144: bit by bit. -/
def Obligations.RegisterLogic : Prop :=
  (∀ (s : State) (rd rs1 rs2 : RegIdx), ∃ t v, exec (.xor rd rs1 rs2) s = .next t ∧
    WritesRegister s t rd v (s.pc + 4) ∧
    ∀ k, v.getLsbD k = ((readReg s rs1).getLsbD k).xor ((readReg s rs2).getLsbD k)) ∧
  (∀ (s : State) (rd rs1 rs2 : RegIdx), ∃ t v, exec (.or rd rs1 rs2) s = .next t ∧
    WritesRegister s t rd v (s.pc + 4) ∧ ∀ k, v.getLsbD k = ((readReg s rs1).getLsbD k || (readReg s rs2).getLsbD k)) ∧
  (∀ (s : State) (rd rs1 rs2 : RegIdx), ∃ t v, exec (.and rd rs1 rs2) s = .next t ∧
    WritesRegister s t rd v (s.pc + 4) ∧ ∀ k, v.getLsbD k = ((readReg s rs1).getLsbD k && (readReg s rs2).getLsbD k)) ∧
  SelectedBy 0xFE00707F#32 0x00004033#32 .xor ∧ SelectedBy 0xFE00707F#32 0x00006033#32 .or ∧
  SelectedBy 0xFE00707F#32 0x00007033#32 .and ∧ decode 0x0020C1B3#32 = .instr (.xor 3 1 2) ∧
  decode 0x0020E1B3#32 = .instr (.or 3 1 2) ∧ decode 0x0020F1B3#32 = .instr (.and 3 1 2)

/-! ## I-type (42_itype.md) -/

/-- R146: the sum with the signed immediate modulo 2^32; `nop`, `mv` and a `li` in range are this instruction. -/
def Obligations.AddImmediate : Prop :=
  (∀ (s : State) (rd rs1 : RegIdx) (imm12 : BitVec 12), ∃ t, exec (.addi rd rs1 imm12) s = .next t ∧
    WritesRegister s t rd (BitVec.ofInt 32 ((readReg s rs1).toNat + imm12.toInt)) (s.pc + 4)) ∧
  SelectedBy 0x0000707F#32 0x00000013#32 .addi ∧ decode 0x00000013#32 = .instr (.addi 0 0 0) ∧
  decode 0xFFF30293#32 = .instr (.addi 5 6 (-1)) ∧ decode 0x00A00293#32 = .instr (.addi 5 0 10) ∧
  expand .nop = some [instrToken (.addi 0 0 0)] ∧
  (∀ rd rs : RegIdx, expand (.mv rd rs) = some [instrToken (.addi rd rs 0)]) ∧
  (∀ (rd : RegIdx) (v : Int), -2048 ≤ v → v ≤ 2047 →
    expand (.li rd v) = some [instrToken (.addi rd 0 (BitVec.ofInt 12 v))] ∧ (BitVec.ofInt 12 v).toInt = v)

/-- R147, R148: comparison with the signed immediate, as signed, or after sign extension as unsigned. -/
def Obligations.ImmediateCompares : Prop :=
  (∀ (s : State) (rd rs1 : RegIdx) (imm12 : BitVec 12), ∃ t, exec (.slti rd rs1 imm12) s = .next t ∧
    WritesRegister s t rd (if (readReg s rs1).toInt < imm12.toInt then 1 else 0) (s.pc + 4)) ∧
  (∀ (s : State) (rd rs1 : RegIdx) (imm12 : BitVec 12), ∃ t, exec (.sltiu rd rs1 imm12) s = .next t ∧
    WritesRegister s t rd (if (readReg s rs1).toNat < (BitVec.ofInt 32 imm12.toInt).toNat then 1 else 0) (s.pc + 4)) ∧
  SelectedBy 0x0000707F#32 0x00002013#32 .slti ∧ SelectedBy 0x0000707F#32 0x00003013#32 .sltiu ∧
  decode 0x00032293#32 = .instr (.slti 5 6 0) ∧ decode 0xFFF33293#32 = .instr (.sltiu 5 6 (-1)) ∧
  (∀ rd rs : RegIdx, expand (.seqz rd rs) = some [instrToken (.sltiu rd rs 1)])

/-- R149, R150, R151: bit by bit with the sign-extended immediate, whose bits from 11 up are its bit 11. -/
def Obligations.ImmediateLogic : Prop :=
  (∀ (s : State) (rd rs1 : RegIdx) (imm12 : BitVec 12), ∃ t v, exec (.xori rd rs1 imm12) s = .next t ∧
    WritesRegister s t rd v (s.pc + 4) ∧
    ∀ k < 32, v.getLsbD k = ((readReg s rs1).getLsbD k).xor (imm12.getLsbD (min k 11))) ∧
  (∀ (s : State) (rd rs1 : RegIdx) (imm12 : BitVec 12), ∃ t v, exec (.ori rd rs1 imm12) s = .next t ∧
    WritesRegister s t rd v (s.pc + 4) ∧
    ∀ k < 32, v.getLsbD k = ((readReg s rs1).getLsbD k || imm12.getLsbD (min k 11))) ∧
  (∀ (s : State) (rd rs1 : RegIdx) (imm12 : BitVec 12), ∃ t v, exec (.andi rd rs1 imm12) s = .next t ∧
    WritesRegister s t rd v (s.pc + 4) ∧
    ∀ k < 32, v.getLsbD k = ((readReg s rs1).getLsbD k && imm12.getLsbD (min k 11))) ∧
  SelectedBy 0x0000707F#32 0x00004013#32 .xori ∧ SelectedBy 0x0000707F#32 0x00006013#32 .ori ∧
  SelectedBy 0x0000707F#32 0x00007013#32 .andi ∧ decode 0xFFF34293#32 = .instr (.xori 5 6 (-1)) ∧
  decode 0x80036293#32 = .instr (.ori 5 6 (-2048)) ∧ decode 0x0FF37293#32 = .instr (.andi 5 6 255) ∧
  (∀ rd rs : RegIdx, expand (.not rd rs) = some [instrToken (.xori rd rs (-1))])

/-- R152, R153, R154: shifts by the 5-bit field, with the encodings that select them; a word with bit 25 set selects
none (R60). -/
def Obligations.ImmediateShifts : Prop :=
  (∀ (s : State) (rd rs1 : RegIdx) (shamt : BitVec 5), ∃ t, exec (.slli rd rs1 shamt) s = .next t ∧
    WritesRegister s t rd (BitVec.ofNat 32 ((readReg s rs1).toNat * 2 ^ shamt.toNat)) (s.pc + 4)) ∧
  (∀ (s : State) (rd rs1 : RegIdx) (shamt : BitVec 5), ∃ t, exec (.srli rd rs1 shamt) s = .next t ∧
    WritesRegister s t rd (BitVec.ofNat 32 ((readReg s rs1).toNat / 2 ^ shamt.toNat)) (s.pc + 4)) ∧
  (∀ (s : State) (rd rs1 : RegIdx) (shamt : BitVec 5), ∃ t, exec (.srai rd rs1 shamt) s = .next t ∧
    WritesRegister s t rd (BitVec.ofInt 32 ((readReg s rs1).toInt / 2 ^ shamt.toNat)) (s.pc + 4)) ∧
  SelectedBy 0xFE00707F#32 0x00001013#32 .slli ∧ SelectedBy 0xFE00707F#32 0x00005013#32 .srli ∧
  SelectedBy 0xFE00707F#32 0x40005013#32 .srai

/-! ## Loads and stores (43_loads.md, 44_stores.md, 20_memory.md) -/

/-- R38: base plus signed displacement modulo 2^32, for every load and store. -/
def Obligations.EffectiveAddress : Prop :=
  ∀ (s : State) (rs1 : RegIdx) (imm12 : BitVec 12),
    effAddr s rs1 imm12 = BitVec.ofInt 32 ((readReg s rs1).toNat + imm12.toInt)

/-- R155 to R160, R41: an access inside memory, aligned or not, writes `rd` with the little-endian value, sign-extended
or zero-extended; nothing else changes. -/
def Obligations.LoadsInRange : Prop :=
  ∀ (s : State) (rd rs1 : RegIdx) (imm12 : BitVec 12) (a : Nat), a = (effAddr s rs1 imm12).toNat →
    (a + 1 ≤ s.memSize → ∃ t, exec (.lb rd rs1 imm12) s = .next t ∧
      WritesRegister s t rd (BitVec.ofInt 32 (readByte s a).toInt) (s.pc + 4)) ∧
    (a + 2 ≤ s.memSize → ∃ t, exec (.lh rd rs1 imm12) s = .next t ∧
      WritesRegister s t rd (BitVec.ofInt 32 (readByte s (a + 1) ++ readByte s a).toInt) (s.pc + 4)) ∧
    (a + 4 ≤ s.memSize → ∃ t, exec (.lw rd rs1 imm12) s = .next t ∧
      WritesRegister s t rd (BitVec.ofNat 32 ((readByte s a).toNat + 2 ^ 8 * (readByte s (a + 1)).toNat +
        2 ^ 16 * (readByte s (a + 2)).toNat + 2 ^ 24 * (readByte s (a + 3)).toNat)) (s.pc + 4)) ∧
    (a + 1 ≤ s.memSize → ∃ t, exec (.lbu rd rs1 imm12) s = .next t ∧
      WritesRegister s t rd (BitVec.ofNat 32 (readByte s a).toNat) (s.pc + 4)) ∧
    (a + 2 ≤ s.memSize → ∃ t, exec (.lhu rd rs1 imm12) s = .next t ∧
      WritesRegister s t rd (BitVec.ofNat 32 ((readByte s a).toNat + 2 ^ 8 * (readByte s (a + 1)).toNat)) (s.pc + 4))

/-- R45, R124 (the spec's decision D11): an access not wholly inside memory is a warning step with the effective
address, and `rd` keeps its value. -/
def Obligations.LoadsOutOfRange : Prop :=
  ∀ (s : State) (rd rs1 : RegIdx) (imm12 : BitVec 12) (ea : Word), ea = effAddr s rs1 imm12 →
    (s.memSize < ea.toNat + 1 → ∃ t, exec (.lb rd rs1 imm12) s = .next t ∧ OnlyWarns s t (.access ea)) ∧
    (s.memSize < ea.toNat + 2 → ∃ t, exec (.lh rd rs1 imm12) s = .next t ∧ OnlyWarns s t (.access ea)) ∧
    (s.memSize < ea.toNat + 4 → ∃ t, exec (.lw rd rs1 imm12) s = .next t ∧ OnlyWarns s t (.access ea)) ∧
    (s.memSize < ea.toNat + 1 → ∃ t, exec (.lbu rd rs1 imm12) s = .next t ∧ OnlyWarns s t (.access ea)) ∧
    (s.memSize < ea.toNat + 2 → ∃ t, exec (.lhu rd rs1 imm12) s = .next t ∧ OnlyWarns s t (.access ea))

/-- R161 to R164, R39, R41: the low bytes of `x[rs2]`, least significant first, at the effective address, aligned or
not; no other byte and no register changes. Premise: the memory list is canonical (Obligations.StepKeepsLegalState). -/
def Obligations.StoresInRange : Prop :=
  ∀ (s : State) (rs1 rs2 : RegIdx) (imm12 : BitVec 12) (a : Nat), Memory.wf s.mem = true →
    a = (effAddr s rs1 imm12).toNat →
    (a + 1 ≤ s.memSize → ∃ t, exec (.sb rs1 rs2 imm12) s = .next t ∧
      StoresBytes s t a [(readReg s rs2).extractLsb' 0 8]) ∧
    (a + 2 ≤ s.memSize → ∃ t, exec (.sh rs1 rs2 imm12) s = .next t ∧
      StoresBytes s t a [(readReg s rs2).extractLsb' 0 8, (readReg s rs2).extractLsb' 8 8]) ∧
    (a + 4 ≤ s.memSize → ∃ t, exec (.sw rs1 rs2 imm12) s = .next t ∧
      StoresBytes s t a [(readReg s rs2).extractLsb' 0 8, (readReg s rs2).extractLsb' 8 8,
        (readReg s rs2).extractLsb' 16 8, (readReg s rs2).extractLsb' 24 8])

/-- R46, R124 (the spec's decision D11): a store not wholly inside memory writes no byte at all and is a warning step
with the effective address. -/
def Obligations.StoresOutOfRange : Prop :=
  ∀ (s : State) (rs1 rs2 : RegIdx) (imm12 : BitVec 12) (ea : Word), ea = effAddr s rs1 imm12 →
    (s.memSize < ea.toNat + 1 → ∃ t, exec (.sb rs1 rs2 imm12) s = .next t ∧ OnlyWarns s t (.access ea)) ∧
    (s.memSize < ea.toNat + 2 → ∃ t, exec (.sh rs1 rs2 imm12) s = .next t ∧ OnlyWarns s t (.access ea)) ∧
    (s.memSize < ea.toNat + 4 → ∃ t, exec (.sw rs1 rs2 imm12) s = .next t ∧ OnlyWarns s t (.access ea))

/-- The encodings of the eight loads and stores (R156 to R160, R162 to R164). -/
def Obligations.LoadStoreEncodings : Prop :=
  SelectedBy 0x0000707F#32 0x00000003#32 .lb ∧ SelectedBy 0x0000707F#32 0x00001003#32 .lh ∧
  SelectedBy 0x0000707F#32 0x00002003#32 .lw ∧ SelectedBy 0x0000707F#32 0x00004003#32 .lbu ∧
  SelectedBy 0x0000707F#32 0x00005003#32 .lhu ∧ SelectedBy 0x0000707F#32 0x00000023#32 .sb ∧
  SelectedBy 0x0000707F#32 0x00001023#32 .sh ∧ SelectedBy 0x0000707F#32 0x00002023#32 .sw

/-- R39: what a wider store wrote, a narrower load sees byte by byte: after `sw` at `a`, `lbu` at `a + k` reads byte
`k` and `lhu` at `a + k` reads bytes `k` and `k + 1`; `lw` reads the word back. -/
def Obligations.StoreThenLoad : Prop :=
  ∀ (s t : State) (rs1 rs2 rd rb : RegIdx) (imm12 disp : BitVec 12) (k : Nat), Memory.wf s.mem = true →
    (effAddr s rs1 imm12).toNat + 4 ≤ s.memSize → exec (.sw rs1 rs2 imm12) s = .next t → rd ≠ 0 →
    (effAddr t rb disp).toNat = (effAddr s rs1 imm12).toNat + k →
    (k < 4 → ∃ u, exec (.lbu rd rb disp) t = .next u ∧
      (readReg u rd).toNat = (readReg s rs2).toNat / 2 ^ (8 * k) % 2 ^ 8) ∧
    (k < 3 → ∃ u, exec (.lhu rd rb disp) t = .next u ∧
      (readReg u rd).toNat = (readReg s rs2).toNat / 2 ^ (8 * k) % 2 ^ 16) ∧
    (k = 0 → ∃ u, exec (.lw rd rb disp) t = .next u ∧ readReg u rd = readReg s rs2)

/-- R52: a fetch from an address sees the word the last store wrote there. -/
def Obligations.FetchSeesStore : Prop :=
  ∀ (s t : State) (rs1 rs2 : RegIdx) (imm12 : BitVec 12), Memory.wf s.mem = true →
    (effAddr s rs1 imm12).toNat + 4 ≤ s.memSize → exec (.sw rs1 rs2 imm12) s = .next t →
    fetch { t with pc := effAddr s rs1 imm12 } = some (readReg s rs2)

/-- R43: no instruction but a load or a store touches memory: any memory does, and it comes out as it went in; a load
changes no byte. -/
def Obligations.OnlyLoadsAndStoresTouchMemory : Prop :=
  (∀ (i : Instr) (s t : State) (m : Memory), accessOf i s = none → exec i s = .next t →
    exec i { s with mem := m } = .next { t with mem := m }) ∧
  (∀ (i : Instr) (s t : State), (destinationOf i).isSome = true → exec i s = .next t → t.mem = s.mem)

/-- R43, R44: an access reads its own bytes only: memories that agree on them give the same registers, pc, cycles and
warnings. -/
def Obligations.AccessReadsOnlyItsBytes : Prop :=
  ∀ (i : Instr) (s t t' : State) (m : Memory),
    (∀ ea n k, accessOf i s = some (ea, n) → k < n → Memory.read m (ea.toNat + k) = readByte s (ea.toNat + k)) →
    exec i s = .next t → exec i { s with mem := m } = .next t' →
    t'.regs = t.regs ∧ t'.pc = t.pc ∧ t'.cycles = t.cycles ∧ t'.warnings = t.warnings

/-- R30: a memory is its bytes: canonical lists that read the same everywhere are the same data. -/
def Obligations.MemoryIsItsBytes : Prop :=
  ∀ m m' : Memory, Memory.wf m = true → Memory.wf m' = true → (∀ a, Memory.read m a = Memory.read m' a) → m = m'

/-! ## Branches, jumps and upper immediates (45_branches.md, 46_jumps.md, 47_utype.md) -/

/-- R165, R166, R167: to `pc` plus the signed offset if equal (`beq`) or not equal (`bne`), else on by 4; the target is
not checked (the spec's decision D13). -/
def Obligations.BranchEqual : Prop :=
  (∀ (s : State) (rs1 rs2 : RegIdx) (imm13 : BitVec 13), ∃ t, exec (.beq rs1 rs2 imm13) s = .next t ∧
    OnlyAdvances s t (if readReg s rs1 = readReg s rs2 then BitVec.ofInt 32 (s.pc.toNat + imm13.toInt)
      else s.pc + 4)) ∧
  (∀ (s : State) (rs1 rs2 : RegIdx) (imm13 : BitVec 13), ∃ t, exec (.bne rs1 rs2 imm13) s = .next t ∧
    OnlyAdvances s t (if readReg s rs1 ≠ readReg s rs2 then BitVec.ofInt 32 (s.pc.toNat + imm13.toInt)
      else s.pc + 4)) ∧
  SelectedBy 0x0000707F#32 0x00000063#32 .beq ∧ SelectedBy 0x0000707F#32 0x00001063#32 .bne

/-- R165, R168, R169: by the signed order. -/
def Obligations.BranchSigned : Prop :=
  (∀ (s : State) (rs1 rs2 : RegIdx) (imm13 : BitVec 13), ∃ t, exec (.blt rs1 rs2 imm13) s = .next t ∧
    OnlyAdvances s t (if (readReg s rs1).toInt < (readReg s rs2).toInt then BitVec.ofInt 32 (s.pc.toNat + imm13.toInt)
      else s.pc + 4)) ∧
  (∀ (s : State) (rs1 rs2 : RegIdx) (imm13 : BitVec 13), ∃ t, exec (.bge rs1 rs2 imm13) s = .next t ∧
    OnlyAdvances s t (if (readReg s rs1).toInt ≥ (readReg s rs2).toInt then BitVec.ofInt 32 (s.pc.toNat + imm13.toInt)
      else s.pc + 4)) ∧
  SelectedBy 0x0000707F#32 0x00004063#32 .blt ∧ SelectedBy 0x0000707F#32 0x00005063#32 .bge

/-- R165, R170, R171: by the unsigned order. -/
def Obligations.BranchUnsigned : Prop :=
  (∀ (s : State) (rs1 rs2 : RegIdx) (imm13 : BitVec 13), ∃ t, exec (.bltu rs1 rs2 imm13) s = .next t ∧
    OnlyAdvances s t (if (readReg s rs1).toNat < (readReg s rs2).toNat then BitVec.ofInt 32 (s.pc.toNat + imm13.toInt)
      else s.pc + 4)) ∧
  (∀ (s : State) (rs1 rs2 : RegIdx) (imm13 : BitVec 13), ∃ t, exec (.bgeu rs1 rs2 imm13) s = .next t ∧
    OnlyAdvances s t (if (readReg s rs1).toNat ≥ (readReg s rs2).toNat then BitVec.ofInt 32 (s.pc.toNat + imm13.toInt)
      else s.pc + 4)) ∧
  SelectedBy 0x0000707F#32 0x00006063#32 .bltu ∧ SelectedBy 0x0000707F#32 0x00007063#32 .bgeu

/-- R172, R174: `rd` gets `pc + 4`, `pc` the old `pc` plus the signed offset, unchecked (D13). -/
def Obligations.JumpAndLink : Prop :=
  (∀ (s : State) (rd : RegIdx) (imm21 : BitVec 21), ∃ t, exec (.jal rd imm21) s = .next t ∧
    WritesRegister s t rd (BitVec.ofNat 32 (s.pc.toNat + 4)) (BitVec.ofInt 32 (s.pc.toNat + imm21.toInt))) ∧
  SelectedBy 0x0000007F#32 0x0000006F#32 .jal

/-- R173, R174: `rd` gets `pc + 4`, `pc` the old `x[rs1]` plus the signed immediate with bit 0 cleared, unchecked
(D13), for `rd = rs1` too. -/
def Obligations.JumpAndLinkRegister : Prop :=
  (∀ (s : State) (rd rs1 : RegIdx) (imm12 : BitVec 12), ∃ t, exec (.jalr rd rs1 imm12) s = .next t ∧
    WritesRegister s t rd (BitVec.ofNat 32 (s.pc.toNat + 4))
      (BitVec.ofNat 32 (2 * ((BitVec.ofInt 32 ((readReg s rs1).toNat + imm12.toInt)).toNat / 2)))) ∧
  SelectedBy 0x0000707F#32 0x00000067#32 .jalr

/-- R175: the field in bits 31 to 12, zeros below; with an `addi` after it, `lui` builds any 32-bit constant. -/
def Obligations.LoadUpper : Prop :=
  (∀ (s : State) (rd : RegIdx) (imm20 : BitVec 20), ∃ t, exec (.lui rd imm20) s = .next t ∧
    WritesRegister s t rd (BitVec.ofNat 32 (imm20.toNat * 2 ^ 12)) (s.pc + 4)) ∧
  SelectedBy 0x0000007F#32 0x00000037#32 .lui ∧ decode 0x000012B7#32 = .instr (.lui 5 1) ∧
  decode 0xFFFFF2B7#32 = .instr (.lui 5 1048575) ∧
  (∀ (s : State) (rd : RegIdx) (c : Word), rd ≠ 0 → ∃ hi lo t,
    execAll [.lui rd hi, .addi rd rd lo] s = .next t ∧ readReg t rd = c)

/-- R176: the instruction's own address plus the upper immediate modulo 2^32. -/
def Obligations.AddUpperToPc : Prop :=
  (∀ (s : State) (rd : RegIdx) (imm20 : BitVec 20), ∃ t, exec (.auipc rd imm20) s = .next t ∧
    WritesRegister s t rd (BitVec.ofNat 32 (s.pc.toNat + imm20.toNat * 2 ^ 12)) (s.pc + 4)) ∧
  SelectedBy 0x0000007F#32 0x00000017#32 .auipc ∧ decode 0x00001297#32 = .instr (.auipc 5 1)

/-! ## Registers and the program counter over all instructions (10_state.md, 40_core_cycle.md) -/

/-- R18, R126: register 0 reads as 0; an instruction whose destination is register 0 changes no register; the host
reads 0 there after any sequence of commands. -/
def Obligations.RegisterZero : Prop :=
  (∀ s : State, readReg s 0 = 0) ∧
  (∀ (i : Instr) (s t : State), destinationOf i = some 0 → exec i s = .next t → ∀ r, readReg t r = readReg s r) ∧
  (∀ (n : Nat) (cs : List Command), (readOut (afterCommands cs (State.construct n))).regs[0]? = some 0)

/-- R21, R155, R161, R165: an instruction changes no register but its destination, never the memory size, and of the
warning record only its end. -/
def Obligations.OnlyDestinationChanges : Prop :=
  ∀ (i : Instr) (s t : State), exec i s = .next t →
    (∀ r, destinationOf i ≠ some r → readReg t r = readReg s r) ∧ t.memSize = s.memSize ∧ s.warnings <+: t.warnings

/-- R125: `pc + 4` but for a taken branch, `jal` and `jalr`, which go to their target; only a branch or jump to its own
address leaves `pc` unchanged. -/
def Obligations.NextPc : Prop :=
  ∀ (i : Instr) (s t : State), exec i s = .next t →
    t.pc = (takenTarget i s).getD (s.pc + 4) ∧ (t.pc = s.pc → takenTarget i s = some s.pc)

/-- R177: no trap: a step answers a next state whatever it meets, and control goes to `pc + 4` or to the target the
fetched instruction computes, nowhere else (a halted step goes nowhere). -/
def Obligations.NoTraps : Prop :=
  ∀ s : State, ∃ t, step s = .next t ∧
    (s.cycles.toNat < Config.cycleCeiling → t.pc = s.pc + 4 ∨
      ∃ w i, fetch s = some w ∧ decode w = .instr i ∧ takenTarget i s = some t.pc) ∧
    (Config.cycleCeiling ≤ s.cycles.toNat → t.pc = s.pc)

/-! ## The step (40_core_cycle.md, 60_exceptions.md) -/

/-- R121: when the four bytes at `pc` decode to an instruction, the step is that instruction's `exec`, with nothing
around it: `exec` itself moves `pc` and counts the cycle. -/
def Obligations.StepRunsDecoded : Prop :=
  ∀ (s : State) (i : Instr), s.cycles.toNat < Config.cycleCeiling → s.pc.toNat + 4 ≤ s.memSize →
    decode (wordOfBytes (readByte s s.pc.toNat) (readByte s (s.pc.toNat + 1)) (readByte s (s.pc.toNat + 2))
      (readByte s (s.pc.toNat + 3))) = .instr i → step s = exec i s

/-- R128: exactly one next state from every state, for a step and for every instruction. -/
def Obligations.StepIsTotal : Prop :=
  (∀ s : State, ∃ t, step s = .next t ∧ ∀ u, step s = .next u → u = t) ∧
  (∀ (i : Instr) (s : State), ∃ t, exec i s = .next t)

/-- R123, R70: a word that matches no row is a warning step with that word. -/
def Obligations.UnknownWordWarns : Prop :=
  ∀ (s : State) (w : Word), s.cycles.toNat < Config.cycleCeiling → fetch s = some w →
    (∀ r ∈ opcodeTable, w &&& r.mask ≠ r.pattern) → ∃ t, step s = .next t ∧ OnlyWarns s t (.decode w)

/-- R122, R42 (the spec's decision D10): with no four bytes at `pc` inside memory the step is a warning step. -/
def Obligations.FetchOutOfRangeWarns : Prop :=
  ∀ s : State, s.cycles.toNat < Config.cycleCeiling → s.memSize < s.pc.toNat + 4 →
    ∃ t, step s = .next t ∧ OnlyWarns s t .fetch

/-- R178, R180, R181, R124: a step records no warning and has no cause for one, or has exactly one cause and changes
nothing but the record, `pc` and `cycles`. -/
def Obligations.OneWarningPerStep : Prop :=
  (∀ s t : State, step s = .next t →
    (NoWarning s t ∧ ∀ w, ¬ WarningCause s w) ∨ (∃ w, WarningCause s w ∧ OnlyWarns s t w)) ∧
  (∀ (s : State) (w w' : Warning), WarningCause s w → WarningCause s w' → w = w')

/-- R129, R191: a step of a halted core is the identity. -/
def Obligations.HaltedStepDoesNothing : Prop :=
  ∀ s : State, Config.cycleCeiling ≤ s.cycles.toNat → step s = .next s

/-- R28: every step that is not halted counts 1, warning steps too; only `reset` and `load_program` go back, to 0; the
ceiling is never passed; no instruction reads the counter (the record of an access warning, which the host alone reads,
is where it shows). -/
def Obligations.CycleCounter : Prop :=
  (∀ s t : State, s.cycles.toNat < Config.cycleCeiling → step s = .next t → t.cycles.toNat = s.cycles.toNat + 1) ∧
  (∀ (s : State) (c : Command), (afterCommand c s).cycles.toNat < s.cycles.toNat →
    (afterCommand c s).cycles = 0 ∧ (c = .reset ∨ ∃ words, c = .loadProgram words)) ∧
  (∀ (n : Nat) (cs : List Command), (afterCommands cs (State.construct n)).cycles.toNat ≤ Config.cycleCeiling) ∧
  (∀ (i : Instr) (s t : State) (c : BitVec 32), exec i s = .next t → ∃ t', exec i { s with cycles := c } = .next t' ∧
    t'.regs = t.regs ∧ t'.pc = t.pc ∧ t'.mem = t.mem ∧ t'.cycles = c + 1) ∧
  (∀ s : State, (readOut s).cycles = s.cycles.toNat)

/-- R32: the record only grows, by what the step itself records, and no step reads it. -/
def Obligations.WarningsAreNeverRead : Prop :=
  ∀ (s t : State) (ws : List WarningEntry), step s = .next t → ∃ new, t.warnings = s.warnings ++ new ∧
    step { s with warnings := ws } = .next { t with warnings := ws ++ new }

/-! ## Invariant and runs -/

/-- The invariant of the machine: every step keeps a legal state legal. -/
def Obligations.StepKeepsLegalState : Prop :=
  ∀ s t : State, LegalState s → step s = .next t → LegalState t

/-- R35: the state after reset is legal, and so is a constructed core of every size the spec allows. -/
def Obligations.ResetIsLegal : Prop :=
  LegalState State.reset ∧ ∀ n : Nat, Config.memSizeOk n = true → LegalState (State.construct n)

/-- Every sequence of host commands keeps a legal state legal. -/
def Obligations.CommandsKeepLegalState : Prop :=
  ∀ (s : State) (cs : List Command), LegalState s → LegalState (afterCommands cs s)

/-- R130: `run()` from any state is exactly CYCLE_CEILING - `cycles` steps and ends with `cycles` at the ceiling; from a
halted state it is no step at all. -/
def Obligations.RunEndsAtCeiling : Prop :=
  ∀ s : State, ∃ t : State, run s = .next t ∧
    Host.Core.run Sys2Proof.core (Config.cycleCeiling - s.cycles.toNat) s = .next t ∧
    (s.cycles.toNat ≤ Config.cycleCeiling → t.cycles.toNat = Config.cycleCeiling) ∧
    (Config.cycleCeiling ≤ s.cycles.toNat → t = s)

/-! ## Host commands (70_reset_and_hazards.md) -/

/-- R194, R193, R35: after `reset()` every register and byte, `pc` and `cycles` are 0, the record is empty, the size is
kept; it is the constructed state, and twice is once. -/
def Obligations.ResetZeroes : Prop :=
  (∀ s : State, ∃ t, command .reset s = .next t ∧ (∀ r, readReg t r = 0) ∧ (∀ a, readByte t a = 0) ∧ t.pc = 0 ∧
    t.cycles = 0 ∧ t.warnings = [] ∧ t.memSize = s.memSize) ∧
  (∀ s : State, afterCommand .reset s = State.construct s.memSize) ∧
  (∀ s : State, afterCommands [.reset, .reset] s = afterCommands [.reset] s)

/-- R195 (the spec's decision D5): `load_program` puts each word's bytes at its address, keeps the rest of memory, and
leaves registers, `pc`, `cycles` and the record as at construction. -/
def Obligations.LoadProgramEffect : Prop :=
  ∀ (s : State) (words : List Word), Memory.wf s.mem = true → 4 * words.length ≤ s.memSize →
    ∃ t, command (.loadProgram words) s = .next t ∧ (∀ r, readReg t r = 0) ∧ t.pc = 0 ∧ t.cycles = 0 ∧
      t.warnings = [] ∧ t.memSize = s.memSize ∧
      (∀ (k : Nat) (w : Word) (j : Nat), words[k]? = some w → j < 4 →
        readByte t (4 * k + j) = w.extractLsb' (8 * j) 8) ∧
      (∀ a, 4 * words.length ≤ a → readByte t a = readByte s a)

/-- R196 (the spec's decision D6): a program longer than memory is refused, and the state stays. -/
def Obligations.LoadProgramTooLarge : Prop :=
  ∀ (s : State) (words : List Word), s.memSize < 4 * words.length →
    command (.loadProgram words) s = .refused (.programTooLarge words.length) ∧
      afterCommand (.loadProgram words) s = s

/-- R40: the fetched word is the little-endian word of the four bytes at `pc`, and `load_program` writes each word so:
word `k` of a loaded program is what is fetched at `4 * k`. -/
def Obligations.LittleEndianFetchAndLoad : Prop :=
  (∀ s : State, s.pc.toNat + 4 ≤ s.memSize →
    fetch s = some (BitVec.ofNat 32 ((readByte s s.pc.toNat).toNat + 2 ^ 8 * (readByte s (s.pc.toNat + 1)).toNat +
      2 ^ 16 * (readByte s (s.pc.toNat + 2)).toNat + 2 ^ 24 * (readByte s (s.pc.toNat + 3)).toNat))) ∧
  (∀ (s t : State) (words : List Word) (k : Nat) (w p : Word), Memory.wf s.mem = true →
    command (.loadProgram words) s = .next t → words[k]? = some w → p.toNat = 4 * k →
    readByte t (4 * k) = w.extractLsb' 0 8 ∧ readByte t (4 * k + 1) = w.extractLsb' 8 8 ∧
      readByte t (4 * k + 2) = w.extractLsb' 16 8 ∧ readByte t (4 * k + 3) = w.extractLsb' 24 8 ∧
      fetch { t with pc := p } = some w)

/-! ## Assembler and disassembler (35_assembler.md, 30_encoding.md) -/

/-- R85, R75: the text of every instruction word assembles back to that word, at any address. -/
def Obligations.AssembleOfDisassemble : Prop :=
  ∀ (w a : Word) (i : Instr), decode w = .instr i → assemble (disassemble w a) = .success ⟨[w], [], []⟩

/-- R98, R99, R100, R112, with the ranges of R90: a token whose immediate has a value in range becomes a word that
decodes to the token's instruction, its registers and that value; a value out of range, and exactly a label that is not
in the table, are the two errors, at the token's line. In a table without duplicates a label's address is the one
recorded with it (the spec's decisions D26, D27, D31). -/
def Obligations.PassTwoEncodes : Prop :=
  (∀ (sym : List (Text × Nat)) (p : PlacedToken),
    (∀ v, ImmediateIs sym p.address p.token.imm v →
      (EncodableValue p.token.mnemonic v → ∃ w,
        passTwoToken sym p = .ok w ∧ decode w = .instr (fieldsOf p.token.mnemonic w) ∧
        (operandForm p.token.mnemonic ≠ .r → immediateOf (operandForm p.token.mnemonic) w = v) ∧
        (operandForm p.token.mnemonic ∉ [.store, .branch] → w.extractLsb' 7 5 = p.token.rd) ∧
        (operandForm p.token.mnemonic ∉ [.jal, .upper] → w.extractLsb' 15 5 = p.token.rs1) ∧
        (operandForm p.token.mnemonic ∈ [.r, .store, .branch] → w.extractLsb' 20 5 = p.token.rs2) ∧
        tokenText (instrToken (fieldsOf p.token.mnemonic w)) = tokenText { p.token with imm := .value v }) ∧
      (¬ EncodableValue p.token.mnemonic v → ∃ message,
        passTwoToken sym p = .error ⟨.immediateRangeError, p.line, message⟩)) ∧
    ((∃ message, passTwoToken sym p = .error ⟨.undefinedLabelError, p.line, message⟩) ↔
      ∃ name, labelOf p.token.imm = some name ∧ name ∉ sym.map Prod.fst)) ∧
  (∀ (sym : List (Text × Nat)) (name : Text),
    (symbolAddress sym name = none ↔ name ∉ sym.map Prod.fst) ∧
    ((sym.map Prod.fst).Nodup → ∀ a, symbolAddress sym name = some a ↔ (name, a) ∈ sym))

/-- R92, R84, R94, R95, R101: token `k` of pass 1 stands at address `4 * k`; the tokens stand in line order, and each
line emits as many as R104 gives it. The table, a list in order of definition (log 8), holds every label once, and a
label defined on a line names the address 4 times the number of tokens emitted by the lines before it: the next
token's, or the end of the program (the spec's decisions D20, D29, D31). -/
def Obligations.PassOneAddresses : Prop :=
  ∀ (text : Text) (st : PassOne), passOne text = .ok st →
    (∀ (k : Nat) (p : PlacedToken), st.toks[k]? = some p → p.address = 4 * k) ∧ st.addr = 4 * st.toks.length ∧
    (st.toks.map PlacedToken.line).Pairwise (· ≤ ·) ∧
    (∀ k, st.toks.countP (fun p => p.line ≤ k) = wordsBefore (splitLines text) k) ∧
    st.toks.length = ((splitLines text).map lineWords).sum ∧
    st.sym.map Prod.fst = (splitLines text).flatMap lineLabels ∧ (st.sym.map Prod.fst).Nodup ∧
    (∀ e ∈ st.sym, e.2 % 4 = 0 ∧ e.2 ≤ st.addr) ∧
    ∀ (k : Nat) (l name : Text), (splitLines text)[k]? = some l → name ∈ lineLabels l →
      symbolAddress st.sym name = some (4 * st.toks.countP (fun p => p.line ≤ k))

/-- R114, R116: one log entry per pseudo-instruction; without any, the log is empty and there is one word per
instruction. -/
def Obligations.LogCountsPseudoInstructions : Prop :=
  ∀ (text : Text) (p : Assembled), assemble text = .success p →
    p.expansionLog.length = (splitLines text).countP isPseudoLine ∧
    ((splitLines text).countP isPseudoLine = 0 →
      p.expansionLog = [] ∧ p.machineCode.length = (splitLines text).countP (fun l => !(lineBody l).isEmpty))

/-- R97: a text with no instruction is no error: no word, no log entry, every label at address 0 (a label defined twice
is R84's error). The spec's `symbols` is a map (R79); that it is a list in order of definition is the model's choice
(log 8). -/
def Obligations.AssembleNoInstruction : Prop :=
  ∀ text : Text, (∀ l ∈ splitLines text, lineBody l = []) → ((splitLines text).flatMap lineLabels).Nodup →
    assemble text = .success ⟨[], ((splitLines text).flatMap lineLabels).map fun name => (name, 0#32), []⟩

/-- R79, R82, R102: a failure names a line of the text, and a failure of pass 1 comes before any of pass 2. -/
def Obligations.ErrorNamesALine : Prop :=
  (∀ (text : Text) (e : AsmError), assemble text = .failure e → 1 ≤ e.line ∧ e.line ≤ (splitLines text).length) ∧
  (∀ (text : Text) (e : AsmError), passOne text = .error e → assemble text = .failure e)

/-- R107, R112: what `li` and `la` emit, assembled and executed, leaves the constant in the register: `v mod 2^32`, and
the label's address; `li` outside [-2^31, 2^32-1] has no expansion. -/
def Obligations.LiAndLaBuildConstants : Prop :=
  (∀ (s : State) (rd : RegIdx) (v : Int) (sym : List (Text × Nat)) (line addr : Nat), rd ≠ 0 → -2 ^ 31 ≤ v →
    v ≤ 2 ^ 32 - 1 → ∃ ts is t, expand (.li rd v) = some ts ∧
      passTwo sym (place line addr ts) = .ok (is.map encode) ∧ execAll is s = .next t ∧
      readReg t rd = BitVec.ofInt 32 v) ∧
  (∀ (rd : RegIdx) (v : Int), v < -2 ^ 31 ∨ 2 ^ 32 - 1 < v → expand (.li rd v) = none) ∧
  (∀ (s : State) (rd : RegIdx) (name : Text) (a : Nat) (sym : List (Text × Nat)) (line addr : Nat), rd ≠ 0 →
    symbolAddress sym name = some a → ∃ ts is t, expand (.la rd name) = some ts ∧ ts.length = 2 ∧
      passTwo sym (place line addr ts) = .ok (is.map encode) ∧ execAll is s = .next t ∧
      readReg t rd = BitVec.ofNat 32 a)

/-- R19, R20, R87: the ABI names are those of R19's table, in its order and all different; both spellings of every
register, and nothing else, name it, in any case of their letters in a register operand; `fp` and a leading zero name
none (D22, D25). -/
def Obligations.RegisterNames : Prop :=
  (List.range 32).map (fun n => abiName (BitVec.ofNat 5 n)) =
    ["zero", "ra", "sp", "gp", "tp", "t0", "t1", "t2", "s0", "s1", "a0", "a1", "a2", "a3", "a4", "a5", "a6", "a7",
      "s2", "s3", "s4", "s5", "s6", "s7", "s8", "s9", "s10", "s11", "t3", "t4", "t5", "t6"].map String.toList ∧
  abiNames.length = 32 ∧ abiNames.Nodup ∧
  (∀ r : RegIdx, indexOf (abiName r) = some r ∧ indexOf (xName r) = some r) ∧
  (∀ (r : RegIdx) (name : Text), indexOf name = some r ↔ name = abiName r ∨ name = xName r) ∧
  (∀ (r : RegIdx) (t : Text), readRegister t = some r ↔ lowerText t = abiName r ∨ lowerText t = xName r) ∧
  (∀ t t' : Text, lowerText t = lowerText t' → readRegister t = readRegister t') ∧
  indexOf "fp".toList = none ∧ indexOf "x05".toList = none ∧ indexOf "x32".toList = none

end
end

