-- ==== Sys2Proof/Laws/Assembler.lean ====
section
/-! SUPPORT. What the passes of the assembler can answer; later proofs cite these and unfold no pass. -/

namespace Sys2Proof.Machine

/-- One instruction succeeds as a canonical instruction or as a pseudo-instruction with its log entry (R92). -/
theorem passOneInstr_ok {line : Nat} {t : Text} {st st' : PassOne} (h : passOneInstr line t st = .ok st') :
    (∃ m tok, canonicalMnemonic (lowerText (splitInstruction t).1) = some m ∧
      readCanonical m (splitInstruction t).2 = some tok ∧ st' = st.emit line [tok]) ∨
    (∃ f p ts, canonicalMnemonic (lowerText (splitInstruction t).1) = none ∧
      pseudoForm (lowerText (splitInstruction t).1) = some f ∧ readPseudo f (splitInstruction t).2 = some p ∧
      expand p = some ts ∧ st' = { st.emit line ts with log := st.log ++ [logEntry t ts] }) := by
  by_cases hd : ((splitInstruction t).1.head? == some '.') = true
  · simp [passOneInstr, hd] at h
  · simp only [passOneInstr, hd] at h
    cases hm : canonicalMnemonic (lowerText (splitInstruction t).1) with
    | some m =>
      cases ht : readCanonical m (splitInstruction t).2 <;> simp [hm, ht] at h
      exact .inl ⟨m, _, rfl, ht, h.symm⟩
    | none =>
      cases hf : pseudoForm (lowerText (splitInstruction t).1) with
      | none => simp [hm, hf] at h
      | some f =>
        cases hp : readPseudo f (splitInstruction t).2 with
        | none => simp [hm, hf, hp] at h
        | some p =>
          cases he : expand p with
          | none => simp [hm, hf, hp, he] at h
          | some ts =>
            simp [hm, hf, hp, he] at h
            exact .inr ⟨f, p, ts, rfl, rfl, hp, he, h.symm⟩

/-- An error of one instruction names its line (R79). -/
theorem passOneInstr_error {line : Nat} {t : Text} {st : PassOne} {e : AsmError}
    (h : passOneInstr line t st = .error e) : e.line = line := by
  by_cases hd : ((splitInstruction t).1.head? == some '.') = true
  · simp [passOneInstr, hd] at h; simp [← h]
  · simp only [passOneInstr, hd] at h
    cases hm : canonicalMnemonic (lowerText (splitInstruction t).1) with
    | some m => cases ht : readCanonical m (splitInstruction t).2 <;> simp [hm, ht] at h; simp [← h]
    | none =>
      cases hf : pseudoForm (lowerText (splitInstruction t).1) with
      | none => simp [hm, hf] at h; simp [← h]
      | some f =>
        cases hp : readPseudo f (splitInstruction t).2 with
        | none => simp [hm, hf, hp] at h; simp [← h]
        | some p => cases he : expand p <;> simp [hm, hf, hp, he] at h; simp [← h]

/-- A line succeeds with its labels recorded and, unless it has no instruction, its instruction emitted (R92). -/
theorem passOneLine_ok {line : Nat} {text : Text} {st st' : PassOne} (h : passOneLine line text st = .ok st') :
    ∃ sym, recordLabels st.addr st.sym (lineLabels text) = some sym ∧
      ((lineBody text = [] ∧ st' = { st with sym := sym }) ∨
        (lineBody text ≠ [] ∧ passOneInstr line (lineBody text) { st with sym := sym } = .ok st')) := by
  unfold passOneLine at h
  cases hr : recordLabels st.addr st.sym (lineLabels text) with
  | none => simp [hr] at h
  | some sym =>
    simp only [hr] at h
    refine ⟨sym, rfl, ?_⟩
    by_cases hb : lineBody text = []
    · simp [hb] at h
      exact .inl ⟨hb, h.symm⟩
    · simp [hb] at h
      exact .inr ⟨hb, h⟩

/-- An error of a line names it (R79). -/
theorem passOneLine_error {line : Nat} {text : Text} {st : PassOne} {e : AsmError}
    (h : passOneLine line text st = .error e) : e.line = line := by
  unfold passOneLine at h
  cases hr : recordLabels st.addr st.sym (lineLabels text) with
  | none => simp [hr] at h; simp [← h]
  | some sym =>
    simp only [hr] at h
    by_cases hb : lineBody text = []
    · simp [hb] at h
    · simp [hb] at h
      exact passOneInstr_error h

/-- Recorded labels are appended at the current address, and stay unique (R84). -/
theorem recordLabels_ok {addr : Nat} {names : List Text} {sym sym' : List (Text × Nat)}
    (h : recordLabels addr sym names = some sym') :
    sym' = sym ++ names.map (fun n => (n, addr)) ∧ ((sym.map Prod.fst).Nodup → (sym'.map Prod.fst).Nodup) := by
  induction names generalizing sym with
  | nil => cases h; simp
  | cons n ns ih =>
    unfold recordLabels at h
    split at h
    · cases h
    · rename_i hn
      obtain ⟨h1, h2⟩ := ih h
      refine ⟨by rw [h1]; simp, fun hd => h2 ?_⟩
      simp only [List.map_append, List.map_cons, List.map_nil, List.nodup_append]
      refine ⟨hd, by simp, fun a ha b hb => ?_⟩
      rintro rfl
      simp only [symbolAddress, Option.map_eq_none_iff, List.find?_eq_none] at hn
      obtain ⟨e, he, rfl⟩ := List.mem_map.mp ha
      exact hn e he (by simpa using hb)

/-- Placed tokens stand four bytes apart, on their line (R92, R113). -/
theorem place_getElem? {line addr k : Nat} {ts : List InstrToken} {p : PlacedToken}
    (h : (place line addr ts)[k]? = some p) : p.address = addr + 4 * k ∧ p.line = line := by
  induction ts generalizing addr k with
  | nil => simp [place] at h
  | cons t ts ih =>
    cases k with
    | zero => simp [place] at h; simp [← h]
    | succ k =>
      simp [place] at h
      obtain ⟨h1, h2⟩ := ih h
      exact ⟨by omega, h2⟩

@[simp] theorem place_length (line addr : Nat) (ts : List InstrToken) : (place line addr ts).length = ts.length := by
  induction ts generalizing addr with
  | nil => rfl
  | cons t ts ih => simp [place, ih]

/-- Pass 2 gives one word per token (R101). -/
theorem passTwo_length {sym : List (Text × Nat)} {ps : List PlacedToken} {ws : List Word}
    (h : passTwo sym ps = .ok ws) : ws.length = ps.length := by
  induction ps generalizing ws with
  | nil => cases h; rfl
  | cons p ps ih =>
    unfold passTwo at h
    cases h1 : passTwoToken sym p with
    | error e => simp [h1] at h
    | ok w =>
      cases h2 : passTwo sym ps with
      | error e => simp [h1, h2] at h
      | ok ws' => simp [h1, h2] at h; simp [← h, ih h2]

/-- No mnemonic is both canonical and a pseudo-instruction (R104). -/
theorem pseudoForm_mnemonicText (m : Mnemonic) : pseudoForm (mnemonicText m) = none := by
  have h : ∀ m ∈ allMnemonics, (pseudoForm (mnemonicText m)).isNone = true := by decide
  simpa using h m (by cases m <;> decide)

/-- A pseudo-instruction is its form applied to its operands; the literal of `li` is its second operand (R104). -/
theorem readPseudo_ok {f : PseudoForm} {ops : List Text} {p : PseudoToken} (h : readPseudo f ops = some p) :
    match f with
    | .none q => p = q
    | .oneReg g => ∃ r, p = g r
    | .twoRegs g => ∃ r r', p = g r r'
    | .target g => ∃ t, p = g t
    | .regTarget g => ∃ r t, p = g r t
    | .twoRegsTarget g => ∃ r r' t, p = g r r' t
    | .regInt g => ∃ r v, ops[1]?.bind readInt = some v ∧ p = g r v
    | .regLabel g => ∃ r name, p = g r name := by
  unfold readPseudo at h
  split at h
  · exact (Option.some.inj h).symm
  · obtain ⟨r, _, h⟩ := Option.bind_eq_some_iff.mp h
    exact ⟨r, (Option.some.inj h).symm⟩
  · obtain ⟨r, _, h⟩ := Option.bind_eq_some_iff.mp h
    obtain ⟨r', _, h⟩ := Option.bind_eq_some_iff.mp h
    exact ⟨r, r', (Option.some.inj h).symm⟩
  · obtain ⟨t, _, h⟩ := Option.bind_eq_some_iff.mp h
    exact ⟨t, (Option.some.inj h).symm⟩
  · obtain ⟨r, _, h⟩ := Option.bind_eq_some_iff.mp h
    obtain ⟨t, _, h⟩ := Option.bind_eq_some_iff.mp h
    exact ⟨r, t, (Option.some.inj h).symm⟩
  · obtain ⟨r, _, h⟩ := Option.bind_eq_some_iff.mp h
    obtain ⟨r', _, h⟩ := Option.bind_eq_some_iff.mp h
    obtain ⟨t, _, h⟩ := Option.bind_eq_some_iff.mp h
    exact ⟨r, r', t, (Option.some.inj h).symm⟩
  · obtain ⟨r, _, h⟩ := Option.bind_eq_some_iff.mp h
    obtain ⟨v, hv, h⟩ := Option.bind_eq_some_iff.mp h
    exact ⟨r, v, hv, (Option.some.inj h).symm⟩
  · obtain ⟨r, _, h⟩ := Option.bind_eq_some_iff.mp h
    split at h
    · exact ⟨r, _, (Option.some.inj h).symm⟩
    · cases h
  · cases h

/-- `li` emits one instruction for a literal in the range of `addi`, else two (R107, D29). -/
theorem expandLi_length {rd : RegIdx} {v : Int} {ts : List InstrToken} (h : expandLi rd v = some ts) :
    ts.length = if -2048 ≤ v ∧ v ≤ 2047 then 1 else 2 := by
  unfold expandLi at h
  split at h
  · cases h
  · simp only [Bool.and_eq_true, decide_eq_true_eq] at h
    split at h <;> cases h <;> simp_all

/-- How many canonical instructions each entry of R104's table expands to, by its mnemonic and operands. -/
theorem pseudoTable_words : ∀ e ∈ pseudoTable, ∀ (ops : List Text) (p : PseudoToken) (ts : List InstrToken),
    readPseudo e.2 ops = some p → expand p = some ts →
    ts.length = instructionWords e.1 ops := by
  simp only [pseudoTable, List.cons_append, List.nil_append, List.forall_mem_cons]
  and_intros
  all_goals try (intro ops p ts hp he; have hp := readPseudo_ok hp)
  all_goals
    first
    | (obtain ⟨_, v, hv, rfl⟩ := hp
       rw [expandLi_length he]
       simp [instructionWords, hv])
    | (first | subst hp | (obtain ⟨_, rfl⟩ := hp) | (obtain ⟨_, _, rfl⟩ := hp) | (obtain ⟨_, _, _, rfl⟩ := hp)
       cases he
       rfl)
    | simp

/-- How many canonical instructions a pseudo-instruction expands to, by its mnemonic and operands (R104, R107). -/
theorem expand_length {name : Text} {f : PseudoForm} {ops : List Text} {p : PseudoToken} {ts : List InstrToken}
    (hf : pseudoForm name = some f) (hp : readPseudo f ops = some p) (he : expand p = some ts) :
    ts.length = instructionWords name ops := by
  obtain ⟨e, hfind, rfl⟩ := Option.map_eq_some_iff.mp hf
  obtain rfl : e.1 = name := by simpa using List.find?_some hfind
  exact pseudoTable_words e (List.mem_of_find?_eq_some hfind) ops p ts hp he

/-- No line of a canonical instruction is counted as `la` or `li`. -/
theorem canonicalMnemonic_ne {name : Text} {m : Mnemonic} (h : canonicalMnemonic name = some m) :
    name ≠ "la".toList ∧ name ≠ "li".toList := by
  obtain rfl : mnemonicText m = name := by simpa using List.find?_some h
  cases m <;> decide

/-- What a line adds: its labels at the current address, and as many tokens as `lineWords` says (R92, R94). -/
theorem passOneLine_adds {line : Nat} {text : Text} {st st' : PassOne} (h : passOneLine line text st = .ok st') :
    recordLabels st.addr st.sym (lineLabels text) = some st'.sym ∧
      ∃ ts, ts.length = lineWords text ∧ st'.toks = st.toks ++ place line st.addr ts ∧
        st'.addr = st.addr + 4 * ts.length := by
  obtain ⟨sym, hs, ⟨hb, rfl⟩ | ⟨hb, hi⟩⟩ := passOneLine_ok h
  · exact ⟨hs, [], by simp [lineWords, hb], by simp [place], rfl⟩
  · obtain ⟨m, tok, hm, _, rfl⟩ | ⟨f, p, ts, _, hf, hp, he, rfl⟩ := passOneInstr_ok hi
    · obtain ⟨h1, h2⟩ := canonicalMnemonic_ne hm
      exact ⟨hs, [tok], by rw [lineWords, if_neg hb, instructionWords, if_neg h1, if_neg h2]; rfl, rfl, rfl⟩
    · exact ⟨hs, ts, by rw [lineWords, if_neg hb]; exact expand_length hf hp he, rfl, rfl⟩

/-- The range check is that of R90 (R99). -/
theorem immInRange_iff (m : Mnemonic) (v : Int) :
    immInRange (operandForm m) v = true ↔ EncodableValue m v := by
  cases m <;> simp [operandForm, immInRange, EncodableValue, and_assoc]

/-- A label has no address exactly when it is not in the table (R98). -/
theorem symbolAddress_eq_none {sym : List (Text × Nat)} {name : Text} :
    symbolAddress sym name = none ↔ name ∉ sym.map Prod.fst := by
  simp only [symbolAddress, Option.map_eq_none_iff, List.find?_eq_none, beq_iff_eq, List.mem_map, not_exists, not_and]

/-- In a table without duplicates a label has the address recorded with it (R84, R98). -/
theorem symbolAddress_eq_some {sym : List (Text × Nat)} {name : Text} {a : Nat} (hd : (sym.map Prod.fst).Nodup) :
    symbolAddress sym name = some a ↔ (name, a) ∈ sym := by
  induction sym with
  | nil => simp [symbolAddress]
  | cons e es ih =>
    obtain ⟨n, b⟩ := e
    simp only [List.map_cons, List.nodup_cons] at hd
    by_cases h : n = name
    · subst h
      have : (n, a) ∉ es := fun h => hd.1 (List.mem_map_of_mem (f := Prod.fst) h)
      simp [symbolAddress, this, eq_comm]
    · have hn : (n == name) = false := by simpa using h
      simpa [symbolAddress, hn, Ne.symm h] using ih hd.2

/-- The low part of an address as an integer (R112). -/
theorem loPart_absoluteAddress (a : Nat) : (loPart (absoluteAddress a)).toInt = signedLow12 a := by
  have : (loPart (absoluteAddress a)).toNat = a % 4096 := by
    simp [loPart, absoluteAddress]
  rw [BitVec.toInt_eq_toNat_cond, this]
  unfold signedLow12; simp only [Int.natCast_emod]; split <;> split <;> omega

/-- The high part of an address as an integer (R112). -/
theorem hiPart_absoluteAddress (a : Nat) :
    ((hiPart (absoluteAddress a)).toNat : Int) = ((a : Int) - signedLow12 a) % 2 ^ 32 / 2 ^ 12 := by
  have h1 : (absoluteAddress a - signImm12 (loPart (absoluteAddress a))) = BitVec.ofInt 32 (a - signedLow12 a) := by
    rw [signImm12, BitVec.signExtend, loPart_absoluteAddress]
    apply BitVec.eq_of_toInt_eq
    rw [BitVec.toInt_sub, BitVec.toInt_ofInt, BitVec.toInt_ofInt, absoluteAddress, BitVec.toInt_eq_toNat_cond,
      BitVec.toNat_ofNat]
    simp only [Int.bmod, Nat.reducePow]
    omega
  rw [hiPart, h1, BitVec.extractLsb'_toNat, BitVec.toNat_ofInt]
  generalize (a : Int) - signedLow12 a = d
  simp [Nat.shiftRight_eq_div_pow]; omega

/-- The values an immediate resolves to (R98, R112). -/
theorem resolveImm_eq_some {sym : List (Text × Nat)} {addr : Nat} {imm : ImmToken} {v : Int} :
    resolveImm sym addr imm = some v ↔ ImmediateIs sym addr imm v := by
  cases imm <;> simp [resolveImm, ImmediateIs, hiPart_absoluteAddress, loPart_absoluteAddress, eq_comm]

/-- An immediate does not resolve exactly when its label is not in the table (R98). -/
theorem resolveImm_eq_none {sym : List (Text × Nat)} {addr : Nat} {imm : ImmToken} :
    resolveImm sym addr imm = none ↔ ∃ name, labelOf imm = some name ∧ name ∉ sym.map Prod.fst := by
  cases imm <;> simp [-List.mem_map, resolveImm, labelOf, symbolAddress_eq_none]

end Sys2Proof.Machine
end

