-- ==== Sys2Proof/Laws/State.lean ====
section
/-! SUPPORT. What each update of the state leaves in each field, one lemma a field, so that no proof unfolds a record
update. -/

namespace Sys2Proof.Machine

@[simp] theorem finish_regs (s : State) (p : Word) : (finish s p).regs = s.regs := rfl
@[simp] theorem finish_pc (s : State) (p : Word) : (finish s p).pc = p := rfl
@[simp] theorem finish_mem (s : State) (p : Word) : (finish s p).mem = s.mem := rfl
@[simp] theorem finish_cycles (s : State) (p : Word) : (finish s p).cycles = s.cycles + 1 := rfl
@[simp] theorem finish_warnings (s : State) (p : Word) : (finish s p).warnings = s.warnings := rfl
@[simp] theorem finish_memSize (s : State) (p : Word) : (finish s p).memSize = s.memSize := rfl

@[simp] theorem warnStep_regs (s : State) (w : Warning) : (warnStep s w).regs = s.regs := rfl
@[simp] theorem warnStep_pc (s : State) (w : Warning) : (warnStep s w).pc = s.pc + 4 := rfl
@[simp] theorem warnStep_mem (s : State) (w : Warning) : (warnStep s w).mem = s.mem := rfl
@[simp] theorem warnStep_cycles (s : State) (w : Warning) : (warnStep s w).cycles = s.cycles + 1 := rfl
@[simp] theorem warnStep_warnings (s : State) (w : Warning) : (warnStep s w).warnings = s.warnings ++ [⟨s.cycles, s.pc, w⟩] := rfl
@[simp] theorem warnStep_memSize (s : State) (w : Warning) : (warnStep s w).memSize = s.memSize := rfl

@[simp] theorem writeReg_pc (s : State) (r : RegIdx) (v : Word) : (writeReg s r v).pc = s.pc := by
  unfold writeReg; split <;> rfl
@[simp] theorem writeReg_mem (s : State) (r : RegIdx) (v : Word) : (writeReg s r v).mem = s.mem := by
  unfold writeReg; split <;> rfl
@[simp] theorem writeReg_cycles (s : State) (r : RegIdx) (v : Word) : (writeReg s r v).cycles = s.cycles := by
  unfold writeReg; split <;> rfl
@[simp] theorem writeReg_warnings (s : State) (r : RegIdx) (v : Word) : (writeReg s r v).warnings = s.warnings := by
  unfold writeReg; split <;> rfl
@[simp] theorem writeReg_memSize (s : State) (r : RegIdx) (v : Word) : (writeReg s r v).memSize = s.memSize := by
  unfold writeReg; split <;> rfl

@[simp] theorem writeAndAdvance_regs (s : State) (r : RegIdx) (v : Word) : (writeAndAdvance s r v).regs = (writeReg s r v).regs := by
  simp [writeAndAdvance, pcPlus4]
@[simp] theorem writeAndAdvance_pc (s : State) (r : RegIdx) (v : Word) : (writeAndAdvance s r v).pc = s.pc + 4 := by
  simp [writeAndAdvance, pcPlus4]
@[simp] theorem writeAndAdvance_mem (s : State) (r : RegIdx) (v : Word) : (writeAndAdvance s r v).mem = s.mem := by
  simp [writeAndAdvance, pcPlus4]
@[simp] theorem writeAndAdvance_cycles (s : State) (r : RegIdx) (v : Word) : (writeAndAdvance s r v).cycles = s.cycles + 1 := by
  simp [writeAndAdvance, pcPlus4]
@[simp] theorem writeAndAdvance_warnings (s : State) (r : RegIdx) (v : Word) : (writeAndAdvance s r v).warnings = s.warnings := by
  simp [writeAndAdvance, pcPlus4]
@[simp] theorem writeAndAdvance_memSize (s : State) (r : RegIdx) (v : Word) : (writeAndAdvance s r v).memSize = s.memSize := by
  simp [writeAndAdvance, pcPlus4]

@[simp] theorem linkAndJump_regs (s : State) (r : RegIdx) (p : Word) : (linkAndJump s r p).regs = (writeReg s r (s.pc + 4)).regs := by
  simp [linkAndJump, pcPlus4]
@[simp] theorem linkAndJump_pc (s : State) (r : RegIdx) (p : Word) : (linkAndJump s r p).pc = p := by
  simp [linkAndJump, pcPlus4]
@[simp] theorem linkAndJump_mem (s : State) (r : RegIdx) (p : Word) : (linkAndJump s r p).mem = s.mem := by
  simp [linkAndJump, pcPlus4]
@[simp] theorem linkAndJump_cycles (s : State) (r : RegIdx) (p : Word) : (linkAndJump s r p).cycles = s.cycles + 1 := by
  simp [linkAndJump, pcPlus4]
@[simp] theorem linkAndJump_warnings (s : State) (r : RegIdx) (p : Word) : (linkAndJump s r p).warnings = s.warnings := by
  simp [linkAndJump, pcPlus4]
@[simp] theorem linkAndJump_memSize (s : State) (r : RegIdx) (p : Word) : (linkAndJump s r p).memSize = s.memSize := by
  simp [linkAndJump, pcPlus4]

@[simp] theorem writeBytes_regs (s : State) (a : Nat) (bs : List Byte) : (writeBytes s a bs).regs = s.regs := rfl
@[simp] theorem writeBytes_pc (s : State) (a : Nat) (bs : List Byte) : (writeBytes s a bs).pc = s.pc := rfl
@[simp] theorem writeBytes_mem (s : State) (a : Nat) (bs : List Byte) : (writeBytes s a bs).mem = Memory.writeList s.mem a bs := rfl
@[simp] theorem writeBytes_cycles (s : State) (a : Nat) (bs : List Byte) : (writeBytes s a bs).cycles = s.cycles := rfl
@[simp] theorem writeBytes_warnings (s : State) (a : Nat) (bs : List Byte) : (writeBytes s a bs).warnings = s.warnings := rfl
@[simp] theorem writeBytes_memSize (s : State) (a : Nat) (bs : List Byte) : (writeBytes s a bs).memSize = s.memSize := rfl

@[simp] theorem memWrite8_regs (s : State) (a v : Word) : (memWrite8 s a v).regs = s.regs := rfl
@[simp] theorem memWrite8_pc (s : State) (a v : Word) : (memWrite8 s a v).pc = s.pc := rfl
@[simp] theorem memWrite8_mem (s : State) (a v : Word) : (memWrite8 s a v).mem = Memory.writeList s.mem a.toNat [wordByte v 0] := rfl
@[simp] theorem memWrite8_cycles (s : State) (a v : Word) : (memWrite8 s a v).cycles = s.cycles := rfl
@[simp] theorem memWrite8_warnings (s : State) (a v : Word) : (memWrite8 s a v).warnings = s.warnings := rfl
@[simp] theorem memWrite8_memSize (s : State) (a v : Word) : (memWrite8 s a v).memSize = s.memSize := rfl

@[simp] theorem memWrite16_regs (s : State) (a v : Word) : (memWrite16 s a v).regs = s.regs := rfl
@[simp] theorem memWrite16_pc (s : State) (a v : Word) : (memWrite16 s a v).pc = s.pc := rfl
@[simp] theorem memWrite16_mem (s : State) (a v : Word) : (memWrite16 s a v).mem = Memory.writeList s.mem a.toNat [wordByte v 0, wordByte v 1] := rfl
@[simp] theorem memWrite16_cycles (s : State) (a v : Word) : (memWrite16 s a v).cycles = s.cycles := rfl
@[simp] theorem memWrite16_warnings (s : State) (a v : Word) : (memWrite16 s a v).warnings = s.warnings := rfl
@[simp] theorem memWrite16_memSize (s : State) (a v : Word) : (memWrite16 s a v).memSize = s.memSize := rfl

@[simp] theorem memWrite32_regs (s : State) (a v : Word) : (memWrite32 s a v).regs = s.regs := rfl
@[simp] theorem memWrite32_pc (s : State) (a v : Word) : (memWrite32 s a v).pc = s.pc := rfl
@[simp] theorem memWrite32_mem (s : State) (a v : Word) : (memWrite32 s a v).mem = Memory.writeList s.mem a.toNat (bytesOfWord v) := rfl
@[simp] theorem memWrite32_cycles (s : State) (a v : Word) : (memWrite32 s a v).cycles = s.cycles := rfl
@[simp] theorem memWrite32_warnings (s : State) (a v : Word) : (memWrite32 s a v).warnings = s.warnings := rfl
@[simp] theorem memWrite32_memSize (s : State) (a v : Word) : (memWrite32 s a v).memSize = s.memSize := rfl

@[simp] theorem construct_regs (n : Nat) : (State.construct n).regs = Vector.replicate 32 0#32 := rfl
@[simp] theorem construct_pc (n : Nat) : (State.construct n).pc = 0#32 := rfl
@[simp] theorem construct_mem (n : Nat) : (State.construct n).mem = [] := rfl
@[simp] theorem construct_cycles (n : Nat) : (State.construct n).cycles = 0#32 := rfl
@[simp] theorem construct_warnings (n : Nat) : (State.construct n).warnings = [] := rfl
@[simp] theorem construct_memSize (n : Nat) : (State.construct n).memSize = n := rfl

/-- A register read looks at the register file only. -/
theorem readReg_congr {s t : State} (h : t.regs = s.regs) (r : RegIdx) : readReg t r = readReg s r := by
  unfold readReg; simp only [h]

/-- A byte read looks at the memory image only. -/
theorem readByte_congr {s t : State} (h : t.mem = s.mem) (a : Nat) : readByte t a = readByte s a := by
  unfold readByte; rw [h]

end Sys2Proof.Machine
end

