-- ==== Sys2Proof/Laws/Memory.lean ====
section
/-! SUPPORT. The laws of the memory image: a byte read after a write, and the canonical form every operation keeps. -/

namespace Sys2Proof.Machine

theorem Memory.above_iff {a : Nat} {m : Memory} : Memory.above a m = true ↔ ∀ c ∈ m, a < c.1 := by
  simp [Memory.above]

theorem Memory.within_iff {n : Nat} {m : Memory} : Memory.within n m = true ↔ ∀ c ∈ m, c.1 < n := by
  simp [Memory.within]

@[simp] theorem Memory.read_nil (a : Nat) : Memory.read [] a = 0#8 := rfl

@[simp] theorem Memory.read_cons (c : Host.Cell) (m : Memory) (a : Nat) :
    Memory.read (c :: m) a = if a = c.1 then c.2 else Memory.read m a := rfl

/-- An address below every listed one reads as 0. -/
theorem Memory.read_of_above {a b : Nat} {m : Memory} (h : Memory.above a m = true) (hb : b ≤ a) :
    Memory.read m b = 0#8 := by
  induction m with
  | nil => rfl
  | cons c m ih =>
    obtain ⟨c1, c2⟩ := c
    rw [Memory.above_iff] at h
    have h1 := h (c1, c2) (by simp)
    have : b ≠ c1 := by simp at h1; omega
    simp only [Memory.read, this, if_false]
    exact ih (Memory.above_iff.mpr fun c hc => h c (by simp [hc]))

/-- Every cell of the written image is the written one or was there before. -/
theorem Memory.mem_write {m : Memory} {a : Nat} {v : Byte} {c : Host.Cell} (h : c ∈ Memory.write m a v) :
    c = (a, v) ∨ c ∈ m := by
  induction m with
  | nil => unfold Memory.write at h; split at h <;> simp_all
  | cons d m ih =>
    obtain ⟨b, w⟩ := d
    unfold Memory.write at h
    repeat' split at h
    all_goals simp only [List.mem_cons] at h ⊢
    all_goals grind

/-- A write keeps the canonical form. -/
theorem Memory.wf_write {m : Memory} (h : Memory.wf m = true) (a : Nat) (v : Byte) :
    Memory.wf (Memory.write m a v) = true := by
  induction m with
  | nil => unfold Memory.write; split <;> simp_all [Memory.wf, Memory.above]
  | cons d m ih =>
    obtain ⟨b, w⟩ := d
    simp only [Memory.wf, Bool.and_eq_true, bne_iff_ne, ne_eq] at h
    obtain ⟨⟨hw, hab⟩, hm⟩ := h
    have hab' := Memory.above_iff.mp hab
    unfold Memory.write
    repeat' split
    · simp_all [Memory.wf]
    · simp only [Memory.wf, Bool.and_eq_true, bne_iff_ne, ne_eq, Memory.above_iff, List.mem_cons]
      grind
    · exact hm
    · simp_all [Memory.wf]
    · simp only [Memory.wf, Bool.and_eq_true, bne_iff_ne, ne_eq, Memory.above_iff]
      refine ⟨⟨hw, fun c hc => ?_⟩, ih hm⟩
      rcases Memory.mem_write hc with rfl | hc
      · show b < a; omega
      · exact hab' c hc

/-- Reading after a write: the byte written at its address, every other byte as before. -/
theorem Memory.read_write {m : Memory} (h : Memory.wf m = true) (a : Nat) (v : Byte) (b : Nat) :
    Memory.read (Memory.write m a v) b = if b = a then v else Memory.read m b := by
  induction m with
  | nil => unfold Memory.write; split <;> simp_all [Memory.read]
  | cons d m ih =>
    obtain ⟨c, w⟩ := d
    simp only [Memory.wf, Bool.and_eq_true, bne_iff_ne, ne_eq] at h
    obtain ⟨⟨hw, hab⟩, hm⟩ := h
    have ih := ih hm
    have hz : b < c ∨ b = c → Memory.read m b = 0#8 := fun e => Memory.read_of_above hab (by omega)
    by_cases hlt : a < c
    · by_cases hv : v = 0#8 <;> simp only [Memory.write, hlt, hv, if_true, if_false, Memory.read_cons] <;> grind
    · by_cases heq : a = c
      · subst heq
        by_cases hv : v = 0#8 <;> simp only [Memory.write, hlt, hv, if_true, if_false, Memory.read_cons] <;> grind
      · simp only [Memory.write, hlt, heq, if_false, Memory.read_cons, ih]; grind

/-- A write inside the image lists nothing outside it. -/
theorem Memory.within_write {m : Memory} {n : Nat} (h : Memory.within n m = true) {a : Nat} (ha : a < n) (v : Byte) :
    Memory.within n (Memory.write m a v) = true := by
  rw [Memory.within_iff] at h ⊢
  intro c hc
  rcases Memory.mem_write hc with rfl | hc
  · exact ha
  · exact h c hc

theorem Memory.wf_writeList {m : Memory} (h : Memory.wf m = true) (a : Nat) (bs : List Byte) :
    Memory.wf (Memory.writeList m a bs) = true := by
  induction bs generalizing m a with
  | nil => exact h
  | cons b bs ih => exact ih (Memory.wf_write h a b) (a + 1)

theorem Memory.within_writeList {m : Memory} {n : Nat} (h : Memory.within n m = true) (a : Nat) (bs : List Byte)
    (ha : a + bs.length ≤ n) : Memory.within n (Memory.writeList m a bs) = true := by
  induction bs generalizing m a with
  | nil => exact h
  | cons b bs ih =>
    simp only [List.length_cons] at ha
    exact ih (Memory.within_write h (by omega) b) (a + 1) (by omega)

/-- Reading after consecutive bytes are written: byte `k` of the list at `a + k`, every other byte as before. -/
theorem Memory.read_writeList {m : Memory} (h : Memory.wf m = true) (a : Nat) (bs : List Byte) (b : Nat) :
    Memory.read (Memory.writeList m a bs) b = if a ≤ b then (bs[b - a]?).getD (Memory.read m b) else Memory.read m b := by
  induction bs generalizing m a with
  | nil => simp [Memory.writeList]
  | cons v bs ih =>
    rw [Memory.writeList, ih (Memory.wf_write h a v), Memory.read_write h]
    by_cases h1 : a + 1 ≤ b
    · have h2 : b - a = (b - (a + 1)) + 1 := by omega
      have h3 : b ≠ a := by omega
      have h4 : a ≤ b := by omega
      simp [h1, h2, h3, h4]
    · by_cases h2 : b = a
      · subst h2; simp
      · have h3 : ¬ a ≤ b := by omega
        simp [h1, h2, h3]

/-- The memory of a constructed or reset core is canonical. -/
theorem Memory.wf_construct (n : Nat) : Memory.wf (State.construct n).mem = true := rfl

theorem Memory.wf_reset : Memory.wf State.reset.mem = true := rfl

/-- The three stores and the placing of bytes keep the canonical form. -/
theorem wf_writeBytes {s : State} (h : Memory.wf s.mem = true) (a : Nat) (bs : List Byte) :
    Memory.wf (writeBytes s a bs).mem = true := Memory.wf_writeList h a bs

end Sys2Proof.Machine
end

