-- ==== Sys2Proof/Laws/Registers.lean ====
section
/-! SUPPORT. Reading a register after writing one (10_state.md R18, R126). -/

namespace Sys2Proof.Machine

@[simp] theorem readReg_zero (s : State) : readReg s 0#5 = 0#32 := rfl

@[simp] theorem writeReg_zero (s : State) (v : Word) : writeReg s 0#5 v = s := rfl

/-- The one law of the register file: the written register reads as written unless it is `x0`, every other register as
before. -/
theorem readReg_writeReg (s : State) (rd r : RegIdx) (v : Word) :
    readReg (writeReg s rd v) r = if r = rd ∧ rd ≠ 0#5 then v else readReg s r := by
  by_cases h0 : rd = 0#5
  · subst h0; simp
  · by_cases hr : r = 0#5
    · subst hr; simp [Ne.symm h0]
    · by_cases he : r = rd
      · subst he; simp [readReg, writeReg, h0]
      · have hne : rd.toNat ≠ r.toNat := fun h => he (BitVec.eq_of_toNat_eq h.symm)
        simp [readReg, writeReg, h0, hr, he, hne]

/-- A register write never reaches the stored register 0 (R18). -/
@[simp] theorem writeReg_slot_zero (s : State) (rd : RegIdx) (v : Word) : (writeReg s rd v).regs[0] = s.regs[0] := by
  unfold writeReg
  split
  · rfl
  · rename_i h
    have : rd.toNat ≠ 0 := fun h0 => h (BitVec.eq_of_toNat_eq h0)
    simp [this]

theorem readReg_writeAndAdvance (s : State) (rd r : RegIdx) (v : Word) :
    readReg (writeAndAdvance s rd v) r = if r = rd ∧ rd ≠ 0#5 then v else readReg s r := by
  rw [← readReg_writeReg]; exact readReg_congr (by simp) r

theorem readReg_linkAndJump (s : State) (rd r : RegIdx) (p : Word) :
    readReg (linkAndJump s rd p) r = if r = rd ∧ rd ≠ 0#5 then s.pc + 4 else readReg s r := by
  rw [← readReg_writeReg]; exact readReg_congr (by simp) r

end Sys2Proof.Machine
end

