-- ==== Sys2Proof/Laws/Effects.lean ====
section
/-! SUPPORT. What each shared operation of the machine does, said once in the terms of Safety. -/

namespace Sys2Proof.Machine

/-- The end of every executed instruction, alone: it only advances. -/
theorem finish_onlyAdvances (s : State) (p : Word) : OnlyAdvances s (finish s p) p :=
  ⟨fun _ => rfl, fun _ => rfl, rfl, rfl, rfl, rfl⟩

/-- Write a register and go on. -/
theorem writeAndAdvance_writesRegister (s : State) (rd : RegIdx) (v : Word) :
    WritesRegister s (writeAndAdvance s rd v) rd v (s.pc + 4) :=
  ⟨(readReg_writeAndAdvance s rd · v), fun _ => readByte_congr (by simp) _, by simp, by simp, by simp, by simp⟩

/-- Link and jump. -/
theorem linkAndJump_writesRegister (s : State) (rd : RegIdx) (p : Word) :
    WritesRegister s (linkAndJump s rd p) rd (s.pc + 4) p :=
  ⟨(readReg_linkAndJump s rd · p), fun _ => readByte_congr (by simp) _, by simp, by simp, by simp, by simp⟩

/-- The warning step. -/
theorem warnStep_onlyWarns (s : State) (w : Warning) : OnlyWarns s (warnStep s w) w :=
  ⟨fun _ => rfl, fun _ => rfl, rfl, rfl, rfl, rfl⟩

/-- Store bytes and go on. -/
theorem writeBytes_storesBytes {s : State} (h : Memory.wf s.mem = true) (a : Nat) (bs : List Byte) :
    StoresBytes s (finish (writeBytes s a bs) (pcPlus4 s)) a bs :=
  ⟨fun _ => rfl, fun b => by simp only [readByte, finish_mem, writeBytes_mem, Memory.read_writeList h a bs b],
    rfl, rfl, rfl, rfl⟩

/-! ## The shared meanings: every outcome of each -/

theorem regReg_next {s t : State} {f : Word → Word → Word} {rd rs1 rs2 : RegIdx}
    (h : regReg s f rd rs1 rs2 = .next t) : t = writeAndAdvance s rd (f (readReg s rs1) (readReg s rs2)) := by
  cases h; rfl

theorem regImm_next {s t : State} {f : Word → Word → Word} {rd rs1 : RegIdx} {imm12 : BitVec 12}
    (h : regImm s f rd rs1 imm12 = .next t) : t = writeAndAdvance s rd (f (readReg s rs1) (signImm12 imm12)) := by
  cases h; rfl

theorem regShamt_next {s t : State} {f : Word → Nat → Word} {rd rs1 : RegIdx} {shamt : BitVec 5}
    (h : regShamt s f rd rs1 shamt = .next t) : t = writeAndAdvance s rd (f (readReg s rs1) shamt.toNat) := by
  cases h; rfl

/-- A load in range writes its register; out of range it is a warning step. -/
theorem loadWith_next {s t : State} {n : Nat} {value : State → Word → Word} {rd rs1 : RegIdx} {imm12 : BitVec 12}
    (h : loadWith s n value rd rs1 imm12 = .next t) :
    (inRange s (effAddr s rs1 imm12) n = true ∧ t = writeAndAdvance s rd (value s (effAddr s rs1 imm12))) ∨
      (inRange s (effAddr s rs1 imm12) n = false ∧ t = warnStep s (.access (effAddr s rs1 imm12))) := by
  unfold loadWith at h
  cases hr : inRange s (effAddr s rs1 imm12) n <;> simp only [hr] at h <;> cases h <;> simp

/-- A store in range writes its bytes; out of range it is a warning step. -/
theorem storeWith_next {s t : State} {n : Nat} {write : State → Word → Word → State} {rs1 rs2 : RegIdx}
    {imm12 : BitVec 12} (h : storeWith s n write rs1 rs2 imm12 = .next t) :
    (inRange s (effAddr s rs1 imm12) n = true ∧
        t = finish (write s (effAddr s rs1 imm12) (readReg s rs2)) (pcPlus4 s)) ∨
      (inRange s (effAddr s rs1 imm12) n = false ∧ t = warnStep s (.access (effAddr s rs1 imm12))) := by
  unfold storeWith at h
  cases hr : inRange s (effAddr s rs1 imm12) n <;> simp only [hr] at h <;> cases h <;> simp

/-- The answer of a load in range. -/
theorem loadWith_of_inRange {s : State} {n : Nat} {rd rs1 : RegIdx} {imm12 : BitVec 12}
    (h : (effAddr s rs1 imm12).toNat + n ≤ s.memSize) (value : State → Word → Word) :
    loadWith s n value rd rs1 imm12 = .next (writeAndAdvance s rd (value s (effAddr s rs1 imm12))) := by
  simp [loadWith, inRange, h]

/-- The answer of a load out of range. -/
theorem loadWith_of_outOfRange {s : State} {n : Nat} {rd rs1 : RegIdx} {imm12 : BitVec 12}
    (h : s.memSize < (effAddr s rs1 imm12).toNat + n) (value : State → Word → Word) :
    loadWith s n value rd rs1 imm12 = .next (warnStep s (.access (effAddr s rs1 imm12))) := by
  simp [loadWith, inRange, h]

/-- The answer of a store in range. -/
theorem storeWith_of_inRange {s : State} {n : Nat} {rs1 rs2 : RegIdx} {imm12 : BitVec 12}
    (h : (effAddr s rs1 imm12).toNat + n ≤ s.memSize) (write : State → Word → Word → State) :
    storeWith s n write rs1 rs2 imm12 =
      .next (finish (write s (effAddr s rs1 imm12) (readReg s rs2)) (pcPlus4 s)) := by
  simp [storeWith, inRange, h]

/-- The answer of a store out of range. -/
theorem storeWith_of_outOfRange {s : State} {n : Nat} {rs1 rs2 : RegIdx} {imm12 : BitVec 12}
    (h : s.memSize < (effAddr s rs1 imm12).toNat + n) (write : State → Word → Word → State) :
    storeWith s n write rs1 rs2 imm12 = .next (warnStep s (.access (effAddr s rs1 imm12))) := by
  simp [storeWith, inRange, h]

/-- The value of two bytes, the first at the lower address (R11). -/
theorem memRead16_toNat (s : State) (a : Word) :
    (memRead16 s a).toNat = (readByte s a.toNat).toNat + 2 ^ 8 * (readByte s (a.toNat + 1)).toNat := by
  simp only [memRead16, BitVec.toNat_cast, BitVec.toNat_append]
  rw [← Nat.shiftLeft_add_eq_or_of_lt (BitVec.isLt _), Nat.shiftLeft_eq]
  omega

/-- The value of four bytes, the first at the lowest address (R11, R40). -/
theorem wordOfBytes_toNat (b0 b1 b2 b3 : Byte) :
    (wordOfBytes b0 b1 b2 b3).toNat = b0.toNat + 2 ^ 8 * b1.toNat + 2 ^ 16 * b2.toNat + 2 ^ 24 * b3.toNat := by
  simp only [wordOfBytes, BitVec.toNat_cast, BitVec.toNat_append]
  have h0 := b0.isLt; have h1 := b1.isLt; have h2 := b2.isLt
  rw [← Nat.shiftLeft_add_eq_or_of_lt h2, ← Nat.shiftLeft_add_eq_or_of_lt h1, ← Nat.shiftLeft_add_eq_or_of_lt h0]
  simp only [Nat.shiftLeft_eq]
  omega

/-- A branch only advances, to its target or to the next instruction. -/
theorem branchIf_next {s t : State} {cond : Word → Word → Bool} {rs1 rs2 : RegIdx} {imm13 : BitVec 13}
    (h : branchIf s cond rs1 rs2 imm13 = .next t) :
    t = finish s (if cond (readReg s rs1) (readReg s rs2) then branchTarget s imm13 else pcPlus4 s) := by
  cases h; rfl

/-- Every answer of `step`, with the condition it is given under, in the order of the checks (R121, R180). -/
theorem step_cases (s : State) :
    (halted s = true ∧ step s = .next s) ∨
    (halted s = false ∧ fetch s = none ∧ step s = .next (warnStep s .fetch)) ∨
    (∃ w u, halted s = false ∧ fetch s = some w ∧ decode w = .unknown u ∧ step s = .next (warnStep s (.decode u))) ∨
    (∃ w i, halted s = false ∧ fetch s = some w ∧ decode w = .instr i ∧ step s = exec i s) := by
  unfold step
  cases hh : halted s with
  | true => simp
  | false =>
    cases hf : fetch s with
    | none => simp
    | some w => cases hd : decode w <;> simp [hd]

theorem inRange_iff {s : State} {a : Word} {n : Nat} : inRange s a n = true ↔ a.toNat + n ≤ s.memSize := by
  simp [inRange]

theorem inRange_eq_false {s : State} {a : Word} {n : Nat} : inRange s a n = false ↔ s.memSize < a.toNat + n := by
  simp [inRange]

theorem halted_iff {s : State} : halted s = true ↔ Config.cycleCeiling ≤ s.cycles.toNat := by
  simp [halted]

theorem halted_eq_false {s : State} : halted s = false ↔ s.cycles.toNat < Config.cycleCeiling := by
  simp [halted]

/-- The word of the four bytes of a word is that word (R40). -/
theorem wordOfBytes_wordByte (w : Word) :
    wordOfBytes (wordByte w 0) (wordByte w 1) (wordByte w 2) (wordByte w 3) = w := by
  unfold wordOfBytes wordByte
  ext i h
  simp only [BitVec.getElem_cast, BitVec.getElem_append, BitVec.getElem_extractLsb']
  interval_cases i <;> simp_all

/-- A word placed where the core fetches is the word it fetches next, and the core is not halted: the first step after
`withFetchWord` runs the instruction of that word (log 6). -/
theorem withFetchWord_fetch {s : State} (hm : Memory.wf s.mem = true) (h4 : 4 ≤ s.memSize) (nbits w : Nat) :
    fetch (s.withFetchWord nbits w) = some (BitVec.ofNat 32 (w % 2 ^ nbits)) ∧
      halted (s.withFetchWord nbits w) = false := by
  have hr : inRange (s.withFetchWord nbits w) (s.withFetchWord nbits w).pc 4 = true := by
    simp only [State.withFetchWord, memWrite32_pc, readyToFetch, inRange_iff, memWrite32_memSize]
    split
    · rename_i h; simpa [inRange_iff] using h
    · simpa using h4
  constructor
  · unfold fetch
    rw [if_pos hr]
    simp only [memRead32, readByte, State.withFetchWord, memWrite32_pc, memWrite32_mem]
    have hm' : Memory.wf (readyToFetch s).mem = true := hm
    simp only [Memory.read_writeList hm']
    simp [bytesOfWord, wordOfBytes_wordByte]
  · simp only [halted_eq_false, State.withFetchWord, memWrite32_cycles, readyToFetch]
    split
    · decide
    · rename_i h; simpa [halted_iff] using h

end Sys2Proof.Machine
end

