-- ==== Sys2Proof/Laws/Encoding.lean ====
section
/-! SUPPORT. The fields of an encoded word, one lemma per format (30_encoding.md R55, R56), and `w & mask = match` in
terms of the fields (R66). -/

namespace Sys2Proof

set_option linter.unusedSimpArgs false

/-- The fields of the R and I-shift formats. -/
theorem encodeR_fields (f7 : BitVec 7) (f3 : BitVec 3) (op : BitVec 7) (rd rs1 rs2 : RegIdx) :
    opcodeField (encodeR f7 f3 op rd rs1 rs2) = op ∧
      funct3Field (encodeR f7 f3 op rd rs1 rs2) = f3 ∧
      funct7Field (encodeR f7 f3 op rd rs1 rs2) = f7 ∧
      rdField (encodeR f7 f3 op rd rs1 rs2) = rd ∧
      rs1Field (encodeR f7 f3 op rd rs1 rs2) = rs1 ∧
      rs2Field (encodeR f7 f3 op rd rs1 rs2) = rs2 := by
  unfold encodeR opcodeField funct3Field funct7Field rdField rs1Field rs2Field
  refine ⟨?_, ?_, ?_, ?_, ?_, ?_⟩
  all_goals
    · ext i h
      simp only [BitVec.getElem_cast, BitVec.getElem_append, BitVec.getElem_extractLsb', BitVec.getLsbD_cast,
        BitVec.getLsbD_append, BitVec.getLsbD_extractLsb']
      interval_cases i <;> simp_all

/-- The fields of the I format. -/
theorem encodeI_fields (f3 : BitVec 3) (op : BitVec 7) (rd rs1 : RegIdx) (imm12 : BitVec 12) :
    opcodeField (encodeI f3 op rd rs1 imm12) = op ∧
      funct3Field (encodeI f3 op rd rs1 imm12) = f3 ∧
      rdField (encodeI f3 op rd rs1 imm12) = rd ∧
      rs1Field (encodeI f3 op rd rs1 imm12) = rs1 ∧
      immI (encodeI f3 op rd rs1 imm12) = imm12 := by
  unfold encodeI opcodeField funct3Field rdField rs1Field immI
  refine ⟨?_, ?_, ?_, ?_, ?_⟩
  all_goals
    · ext i h
      simp only [BitVec.getElem_cast, BitVec.getElem_append, BitVec.getElem_extractLsb', BitVec.getLsbD_cast,
        BitVec.getLsbD_append, BitVec.getLsbD_extractLsb']
      interval_cases i <;> simp_all

/-- The fields of the S format. -/
theorem encodeS_fields (f3 : BitVec 3) (op : BitVec 7) (rs1 rs2 : RegIdx) (imm12 : BitVec 12) :
    opcodeField (encodeS f3 op rs1 rs2 imm12) = op ∧
      funct3Field (encodeS f3 op rs1 rs2 imm12) = f3 ∧
      rs1Field (encodeS f3 op rs1 rs2 imm12) = rs1 ∧
      rs2Field (encodeS f3 op rs1 rs2 imm12) = rs2 ∧
      immS (encodeS f3 op rs1 rs2 imm12) = imm12 := by
  unfold encodeS opcodeField funct3Field rs1Field rs2Field immS
  refine ⟨?_, ?_, ?_, ?_, ?_⟩
  all_goals
    · ext i h
      simp only [BitVec.getElem_cast, BitVec.getElem_append, BitVec.getElem_extractLsb', BitVec.getLsbD_cast,
        BitVec.getLsbD_append, BitVec.getLsbD_extractLsb']
      interval_cases i <;> simp_all

/-- The fields of the B format; an even offset comes back. -/
theorem encodeB_fields (f3 : BitVec 3) (op : BitVec 7) (rs1 rs2 : RegIdx) (imm13 : BitVec 13) :
    opcodeField (encodeB f3 op rs1 rs2 imm13) = op ∧
      funct3Field (encodeB f3 op rs1 rs2 imm13) = f3 ∧
      rs1Field (encodeB f3 op rs1 rs2 imm13) = rs1 ∧
      rs2Field (encodeB f3 op rs1 rs2 imm13) = rs2 ∧
      (imm13.getLsbD 0 = false → immB (encodeB f3 op rs1 rs2 imm13) = imm13) := by
  unfold encodeB opcodeField funct3Field rs1Field rs2Field immB
  refine ⟨?_, ?_, ?_, ?_, ?_⟩
  on_goal 5 => intro h0
  all_goals
    · ext i h
      simp only [BitVec.getElem_cast, BitVec.getElem_append, BitVec.getElem_extractLsb', BitVec.getLsbD_cast,
        BitVec.getLsbD_append, BitVec.getLsbD_extractLsb']
      interval_cases i <;> simp_all

/-- The fields of the U format. -/
theorem encodeU_fields (op : BitVec 7) (rd : RegIdx) (imm20 : BitVec 20) :
    opcodeField (encodeU op rd imm20) = op ∧
      rdField (encodeU op rd imm20) = rd ∧
      immU (encodeU op rd imm20) = imm20 := by
  unfold encodeU opcodeField rdField immU
  refine ⟨?_, ?_, ?_⟩
  all_goals
    · ext i h
      simp only [BitVec.getElem_cast, BitVec.getElem_append, BitVec.getElem_extractLsb', BitVec.getLsbD_cast,
        BitVec.getLsbD_append, BitVec.getLsbD_extractLsb']
      interval_cases i <;> simp_all

/-- The fields of the J format; an even offset comes back. -/
theorem encodeJ_fields (op : BitVec 7) (rd : RegIdx) (imm21 : BitVec 21) :
    opcodeField (encodeJ op rd imm21) = op ∧
      rdField (encodeJ op rd imm21) = rd ∧
      (imm21.getLsbD 0 = false → immJ (encodeJ op rd imm21) = imm21) := by
  unfold encodeJ opcodeField rdField immJ
  refine ⟨?_, ?_, ?_⟩
  on_goal 3 => intro h0
  all_goals
    · ext i h
      simp only [BitVec.getElem_cast, BitVec.getElem_append, BitVec.getElem_extractLsb', BitVec.getLsbD_cast,
        BitVec.getLsbD_append, BitVec.getLsbD_extractLsb']
      interval_cases i <;> simp_all

/-- The offset fields of a word have bit 0 zero (R56). -/
theorem immB_even (w : Word) : (immB w).getLsbD 0 = false := by
  unfold immB
  simp only [BitVec.getLsbD_cast, BitVec.getLsbD_append]
  simp

theorem immJ_even (w : Word) : (immJ w).getLsbD 0 = false := by
  unfold immJ
  simp only [BitVec.getLsbD_cast, BitVec.getLsbD_append]
  simp

/-- Bits of a word from a field: equal fields have equal bits. -/
theorem field_bits {w p : Word} {lo n : Nat} (h : w.extractLsb' lo n = p.extractLsb' lo n) {i : Nat} (h1 : lo ≤ i)
    (h2 : i < lo + n) : w.getLsbD i = p.getLsbD i := by
  have := congrArg (·.getLsbD (i - lo)) h
  simp only [BitVec.getLsbD_extractLsb', show i - lo < n by omega, decide_true, Bool.true_and,
    show lo + (i - lo) = i by omega] at this
  exact this

/-- The mask of the rows with opcode, funct3 and funct7 fixed. -/
theorem mask_opcode_funct3_funct7 (w p : Word) (hp : p &&& 0xFE00707F#32 = p) :
    w &&& 0xFE00707F#32 = p ↔ 
      opcodeField w = opcodeField p ∧ funct3Field w = funct3Field p ∧ funct7Field w = funct7Field p := by
  unfold opcodeField funct3Field funct7Field
  constructor
  · intro h
    subst h
    refine ⟨?_, ?_, ?_⟩ <;>
    · ext i h
      simp only [BitVec.getElem_extractLsb', BitVec.getLsbD_and]
      interval_cases i <;> simp
  · rintro ⟨h0, h1, h2⟩
    rw [← hp]
    apply BitVec.eq_of_getLsbD_eq
    intro i hi
    rw [BitVec.getLsbD_and, BitVec.getLsbD_and]
    by_cases hf : (0 ≤ i ∧ i < 7) ∨ (12 ≤ i ∧ i < 15) ∨ (25 ≤ i ∧ i < 32)
    · have : w.getLsbD i = p.getLsbD i := by
        rcases hf with hf | hf | hf <;>
          first | exact field_bits h0 hf.1 hf.2 | exact field_bits h1 hf.1 hf.2 | exact field_bits h2 hf.1 hf.2
      rw [this]
    · have hz : ∀ j ∈ [7, 8, 9, 10, 11, 15, 16, 17, 18, 19, 20, 21, 22, 23, 24],
          (0xFE00707F#32).getLsbD j = false := by decide
      rw [hz i (by simp; omega), Bool.and_false, Bool.and_false]

/-- The mask of the rows with opcode and funct3 fixed. -/
theorem mask_opcode_funct3 (w p : Word) (hp : p &&& 0x0000707F#32 = p) :
    w &&& 0x0000707F#32 = p ↔ opcodeField w = opcodeField p ∧ funct3Field w = funct3Field p := by
  unfold opcodeField funct3Field
  constructor
  · intro h
    subst h
    refine ⟨?_, ?_⟩ <;>
    · ext i h
      simp only [BitVec.getElem_extractLsb', BitVec.getLsbD_and]
      interval_cases i <;> simp
  · rintro ⟨h0, h1⟩
    rw [← hp]
    apply BitVec.eq_of_getLsbD_eq
    intro i hi
    rw [BitVec.getLsbD_and, BitVec.getLsbD_and]
    by_cases hf : (0 ≤ i ∧ i < 7) ∨ (12 ≤ i ∧ i < 15)
    · have : w.getLsbD i = p.getLsbD i := by
        rcases hf with hf | hf <;>
          first | exact field_bits h0 hf.1 hf.2 | exact field_bits h1 hf.1 hf.2
      rw [this]
    · have hz : ∀ j ∈ [7, 8, 9, 10, 11, 15, 16, 17, 18, 19, 20, 21, 22, 23, 24, 25, 26, 27, 28, 29, 30, 31],
          (0x0000707F#32).getLsbD j = false := by decide
      rw [hz i (by simp; omega), Bool.and_false, Bool.and_false]

/-- The mask of the rows with only the opcode fixed. -/
theorem mask_opcode (w p : Word) (hp : p &&& 0x0000007F#32 = p) :
    w &&& 0x0000007F#32 = p ↔ opcodeField w = opcodeField p := by
  unfold opcodeField
  constructor
  · intro h
    subst h
    ext i h
    simp only [BitVec.getElem_extractLsb', BitVec.getLsbD_and]
    interval_cases i <;> simp
  · intro h0
    rw [← hp]
    apply BitVec.eq_of_getLsbD_eq
    intro i hi
    rw [BitVec.getLsbD_and, BitVec.getLsbD_and]
    by_cases hf : (0 ≤ i ∧ i < 7)
    · rw [field_bits h0 hf.1 hf.2]
    · have hz : ∀ j ∈ [7, 8, 9, 10, 11, 12, 13, 14, 15, 16, 17, 18, 19, 20, 21, 22, 23, 24, 25, 26, 27, 28, 29, 30, 31],
          (0x0000007F#32).getLsbD j = false := by decide
      rw [hz i (by simp; omega), Bool.and_false, Bool.and_false]

end Sys2Proof
end

