-- ==== Sys2Proof/Laws/Exec.lean ====
section
/-! SUPPORT. `exec` of each instruction in terms of the shared operations, and the one case analysis of what an
instruction can do; later proofs cite these and unfold no meaning. -/

namespace Sys2Proof.Machine

variable (s : State) (rd rs1 rs2 : RegIdx) (imm12 : BitVec 12) (shamt : BitVec 5) (imm13 : BitVec 13)
  (imm20 : BitVec 20) (imm21 : BitVec 21)

theorem exec_add : exec (.add rd rs1 rs2) s =
    .next (writeAndAdvance s rd (readReg s rs1 + readReg s rs2)) := rfl

theorem exec_sub : exec (.sub rd rs1 rs2) s =
    .next (writeAndAdvance s rd (readReg s rs1 - readReg s rs2)) := rfl

theorem exec_sll : exec (.sll rd rs1 rs2) s =
    .next (writeAndAdvance s rd (readReg s rs1 <<< shiftAmount (readReg s rs2))) := rfl

theorem exec_slt : exec (.slt rd rs1 rs2) s =
    .next (writeAndAdvance s rd (boolWord (lessSigned (readReg s rs1) (readReg s rs2)))) := rfl

theorem exec_sltu : exec (.sltu rd rs1 rs2) s =
    .next (writeAndAdvance s rd (boolWord (lessUnsigned (readReg s rs1) (readReg s rs2)))) := rfl

theorem exec_xor : exec (.xor rd rs1 rs2) s =
    .next (writeAndAdvance s rd (readReg s rs1 ^^^ readReg s rs2)) := rfl

theorem exec_srl : exec (.srl rd rs1 rs2) s =
    .next (writeAndAdvance s rd (readReg s rs1 >>> shiftAmount (readReg s rs2))) := rfl

theorem exec_sra : exec (.sra rd rs1 rs2) s =
    .next (writeAndAdvance s rd ((readReg s rs1).sshiftRight (shiftAmount (readReg s rs2)))) := rfl

theorem exec_or : exec (.or rd rs1 rs2) s =
    .next (writeAndAdvance s rd (readReg s rs1 ||| readReg s rs2)) := rfl

theorem exec_and : exec (.and rd rs1 rs2) s =
    .next (writeAndAdvance s rd (readReg s rs1 &&& readReg s rs2)) := rfl

theorem exec_addi : exec (.addi rd rs1 imm12) s =
    .next (writeAndAdvance s rd (readReg s rs1 + signImm12 imm12)) := rfl

theorem exec_slti : exec (.slti rd rs1 imm12) s =
    .next (writeAndAdvance s rd (boolWord (lessSigned (readReg s rs1) (signImm12 imm12)))) := rfl

theorem exec_sltiu : exec (.sltiu rd rs1 imm12) s =
    .next (writeAndAdvance s rd (boolWord (lessUnsigned (readReg s rs1) (signImm12 imm12)))) := rfl

theorem exec_xori : exec (.xori rd rs1 imm12) s =
    .next (writeAndAdvance s rd (readReg s rs1 ^^^ signImm12 imm12)) := rfl

theorem exec_ori : exec (.ori rd rs1 imm12) s =
    .next (writeAndAdvance s rd (readReg s rs1 ||| signImm12 imm12)) := rfl

theorem exec_andi : exec (.andi rd rs1 imm12) s =
    .next (writeAndAdvance s rd (readReg s rs1 &&& signImm12 imm12)) := rfl

theorem exec_slli : exec (.slli rd rs1 shamt) s =
    .next (writeAndAdvance s rd (readReg s rs1 <<< shamt.toNat)) := rfl

theorem exec_srli : exec (.srli rd rs1 shamt) s =
    .next (writeAndAdvance s rd (readReg s rs1 >>> shamt.toNat)) := rfl

theorem exec_srai : exec (.srai rd rs1 shamt) s =
    .next (writeAndAdvance s rd ((readReg s rs1).sshiftRight shamt.toNat)) := rfl

theorem exec_lb : exec (.lb rd rs1 imm12) s =
    loadWith s 1 (fun t ea => (memRead8 t ea).signExtend 32) rd rs1 imm12 := rfl

theorem exec_lh : exec (.lh rd rs1 imm12) s =
    loadWith s 2 (fun t ea => (memRead16 t ea).signExtend 32) rd rs1 imm12 := rfl

theorem exec_lw : exec (.lw rd rs1 imm12) s =
    loadWith s 4 (fun t ea => memRead32 t ea) rd rs1 imm12 := rfl

theorem exec_lbu : exec (.lbu rd rs1 imm12) s =
    loadWith s 1 (fun t ea => (memRead8 t ea).setWidth 32) rd rs1 imm12 := rfl

theorem exec_lhu : exec (.lhu rd rs1 imm12) s =
    loadWith s 2 (fun t ea => (memRead16 t ea).setWidth 32) rd rs1 imm12 := rfl

theorem exec_sb : exec (.sb rs1 rs2 imm12) s =
    storeWith s 1 memWrite8 rs1 rs2 imm12 := rfl

theorem exec_sh : exec (.sh rs1 rs2 imm12) s =
    storeWith s 2 memWrite16 rs1 rs2 imm12 := rfl

theorem exec_sw : exec (.sw rs1 rs2 imm12) s =
    storeWith s 4 memWrite32 rs1 rs2 imm12 := rfl

theorem exec_beq : exec (.beq rs1 rs2 imm13) s =
    .next (finish s (if readReg s rs1 == readReg s rs2 then branchTarget s imm13 else pcPlus4 s)) := rfl

theorem exec_bne : exec (.bne rs1 rs2 imm13) s =
    .next (finish s (if readReg s rs1 != readReg s rs2 then branchTarget s imm13 else pcPlus4 s)) := rfl

theorem exec_blt : exec (.blt rs1 rs2 imm13) s =
    .next (finish s (if lessSigned (readReg s rs1) (readReg s rs2) then branchTarget s imm13 else pcPlus4 s)) := rfl

theorem exec_bge : exec (.bge rs1 rs2 imm13) s =
    .next (finish s (if !lessSigned (readReg s rs1) (readReg s rs2) then branchTarget s imm13 else pcPlus4 s)) := rfl

theorem exec_bltu : exec (.bltu rs1 rs2 imm13) s =
    .next (finish s (if lessUnsigned (readReg s rs1) (readReg s rs2) then branchTarget s imm13 else pcPlus4 s)) := rfl

theorem exec_bgeu : exec (.bgeu rs1 rs2 imm13) s =
    .next (finish s (if !lessUnsigned (readReg s rs1) (readReg s rs2) then branchTarget s imm13 else pcPlus4 s)) := rfl

theorem exec_jal : exec (.jal rd imm21) s =
    .next (linkAndJump s rd (jalTarget s imm21)) := rfl

theorem exec_jalr : exec (.jalr rd rs1 imm12) s =
    .next (linkAndJump s rd (jalrTarget s rs1 imm12)) := rfl

theorem exec_lui : exec (.lui rd imm20) s =
    .next (writeAndAdvance s rd (upperImm imm20)) := rfl

theorem exec_auipc : exec (.auipc rd imm20) s =
    .next (writeAndAdvance s rd (s.pc + upperImm imm20)) := rfl

/-- What an instruction can do, with what its kind is in the terms of Safety. -/
inductive Shape (i : Instr) (s : State) : Prop where
  /-- It writes its register and goes on; a load, if it is one, is in range. -/
  | writes (rd : RegIdx) (v : Word) (hd : destinationOf i = some rd) (ht : takenTarget i s = none)
      (ha : ∀ ea n, accessOf i s = some (ea, n) → inRange s ea n = true)
      (h : exec i s = .next (writeAndAdvance s rd v))
  /-- It goes to its target or on (a branch). -/
  | moves (p : Word) (hd : destinationOf i = none) (ha : accessOf i s = none)
      (ht : p = (takenTarget i s).getD (s.pc + 4)) (h : exec i s = .next (finish s p))
  /-- It links and jumps. -/
  | links (rd : RegIdx) (p : Word) (hd : destinationOf i = some rd) (ha : accessOf i s = none)
      (ht : takenTarget i s = some p) (h : exec i s = .next (linkAndJump s rd p))
  /-- It stores inside memory. -/
  | stores (ea : Word) (bs : List Byte) (hd : destinationOf i = none) (ha : accessOf i s = some (ea, bs.length))
      (hr : inRange s ea bs.length = true) (ht : takenTarget i s = none)
      (h : exec i s = .next (finish (writeBytes s ea.toNat bs) (pcPlus4 s)))
  /-- Its access is out of range. -/
  | warns (ea : Word) (n : Nat) (ha : accessOf i s = some (ea, n)) (hr : inRange s ea n = false)
      (ht : takenTarget i s = none) (h : exec i s = .next (warnStep s (.access ea)))

/-- A load has one of two shapes. -/
theorem Shape.of_load {i : Instr} {s : State} {n : Nat} {value : State → Word → Word} {rd rs1 : RegIdx}
    {imm12 : BitVec 12} (h : exec i s = loadWith s n value rd rs1 imm12) (hd : destinationOf i = some rd)
    (ha : accessOf i s = some (effAddr s rs1 imm12, n)) (ht : takenTarget i s = none) : Shape i s := by
  cases hr : inRange s (effAddr s rs1 imm12) n with
  | true =>
    refine .writes rd _ hd ht ?_ (h.trans (loadWith_of_inRange (inRange_iff.mp hr) value))
    intro ea k hk
    cases ha.symm.trans hk
    exact hr
  | false => exact .warns _ n ha hr ht (h.trans (loadWith_of_outOfRange (inRange_eq_false.mp hr) value))

/-- A store has one of two shapes. -/
theorem Shape.of_store {i : Instr} {s : State} {write : State → Word → Word → State} {rs1 rs2 : RegIdx}
    {imm12 : BitVec 12} (bs : List Byte) (h : exec i s = storeWith s bs.length write rs1 rs2 imm12)
    (hw : write s (effAddr s rs1 imm12) (readReg s rs2) = writeBytes s (effAddr s rs1 imm12).toNat bs)
    (hd : destinationOf i = none) (ha : accessOf i s = some (effAddr s rs1 imm12, bs.length))
    (ht : takenTarget i s = none) : Shape i s := by
  cases hr : inRange s (effAddr s rs1 imm12) bs.length with
  | true =>
    refine .stores _ bs hd ha hr ht ?_
    rw [h, storeWith_of_inRange (inRange_iff.mp hr), hw]
  | false => exact .warns _ _ ha hr ht (h.trans (storeWith_of_outOfRange (inRange_eq_false.mp hr) write))

/-- A branch goes to its target exactly where `takenTarget` has one. -/
theorem Shape.of_branch {i : Instr} {s : State} {c : Bool} {imm13 : BitVec 13}
    (h : exec i s = .next (finish s (if c then branchTarget s imm13 else pcPlus4 s))) (hd : destinationOf i = none)
    (ha : accessOf i s = none) (ht : takenTarget i s = if c then some (branchTarget s imm13) else none) :
    Shape i s := by
  refine .moves _ hd ha ?_ h
  rw [ht]
  cases c <;> rfl

/-- Every instruction has a shape. -/
theorem exec_shape (i : Instr) (s : State) : Shape i s := by
  cases i with
  | add rd rs1 rs2 => exact .writes rd _ rfl rfl nofun (exec_add ..)
  | sub rd rs1 rs2 => exact .writes rd _ rfl rfl nofun (exec_sub ..)
  | sll rd rs1 rs2 => exact .writes rd _ rfl rfl nofun (exec_sll ..)
  | slt rd rs1 rs2 => exact .writes rd _ rfl rfl nofun (exec_slt ..)
  | sltu rd rs1 rs2 => exact .writes rd _ rfl rfl nofun (exec_sltu ..)
  | xor rd rs1 rs2 => exact .writes rd _ rfl rfl nofun (exec_xor ..)
  | srl rd rs1 rs2 => exact .writes rd _ rfl rfl nofun (exec_srl ..)
  | sra rd rs1 rs2 => exact .writes rd _ rfl rfl nofun (exec_sra ..)
  | or rd rs1 rs2 => exact .writes rd _ rfl rfl nofun (exec_or ..)
  | and rd rs1 rs2 => exact .writes rd _ rfl rfl nofun (exec_and ..)
  | addi rd rs1 imm12 => exact .writes rd _ rfl rfl nofun (exec_addi ..)
  | slti rd rs1 imm12 => exact .writes rd _ rfl rfl nofun (exec_slti ..)
  | sltiu rd rs1 imm12 => exact .writes rd _ rfl rfl nofun (exec_sltiu ..)
  | xori rd rs1 imm12 => exact .writes rd _ rfl rfl nofun (exec_xori ..)
  | ori rd rs1 imm12 => exact .writes rd _ rfl rfl nofun (exec_ori ..)
  | andi rd rs1 imm12 => exact .writes rd _ rfl rfl nofun (exec_andi ..)
  | slli rd rs1 shamt => exact .writes rd _ rfl rfl nofun (exec_slli ..)
  | srli rd rs1 shamt => exact .writes rd _ rfl rfl nofun (exec_srli ..)
  | srai rd rs1 shamt => exact .writes rd _ rfl rfl nofun (exec_srai ..)
  | lb rd rs1 imm12 => exact .of_load (exec_lb ..) rfl rfl rfl
  | lh rd rs1 imm12 => exact .of_load (exec_lh ..) rfl rfl rfl
  | lw rd rs1 imm12 => exact .of_load (exec_lw ..) rfl rfl rfl
  | lbu rd rs1 imm12 => exact .of_load (exec_lbu ..) rfl rfl rfl
  | lhu rd rs1 imm12 => exact .of_load (exec_lhu ..) rfl rfl rfl
  | sb rs1 rs2 imm12 => exact .of_store [wordByte (readReg s rs2) 0] (exec_sb ..) rfl rfl rfl rfl
  | sh rs1 rs2 imm12 => exact .of_store [wordByte (readReg s rs2) 0, wordByte (readReg s rs2) 1] (exec_sh ..) rfl rfl rfl rfl
  | sw rs1 rs2 imm12 => exact .of_store (bytesOfWord (readReg s rs2)) (exec_sw ..) rfl rfl rfl rfl
  | beq rs1 rs2 imm13 => exact .of_branch (exec_beq ..) rfl rfl (by simp [takenTarget, branchTarget, signImm13])
  | bne rs1 rs2 imm13 => exact .of_branch (exec_bne ..) rfl rfl (by simp [takenTarget, branchTarget, signImm13])
  | blt rs1 rs2 imm13 => exact .of_branch (exec_blt ..) rfl rfl (by simp [takenTarget, branchTarget, signImm13, lessSigned, BitVec.slt])
  | bge rs1 rs2 imm13 => exact .of_branch (exec_bge ..) rfl rfl (by simp only [takenTarget]; split <;> simp_all [branchTarget, signImm13, lessSigned, BitVec.slt])
  | bltu rs1 rs2 imm13 => exact .of_branch (exec_bltu ..) rfl rfl (by simp [takenTarget, branchTarget, signImm13, lessUnsigned, BitVec.ult])
  | bgeu rs1 rs2 imm13 => exact .of_branch (exec_bgeu ..) rfl rfl (by simp only [takenTarget]; split <;> simp_all [branchTarget, signImm13, lessUnsigned, BitVec.ult])
  | jal rd imm21 => exact .links rd _ rfl rfl rfl (exec_jal ..)
  | jalr rd rs1 imm12 => exact .links rd _ rfl rfl rfl (exec_jalr ..)
  | lui rd imm20 => exact .writes rd _ rfl rfl nofun (exec_lui ..)
  | auipc rd imm20 => exact .writes rd _ rfl rfl nofun (exec_auipc ..)

end Sys2Proof.Machine
end

