-- ==== Sys2Proof/Laws/PerInstr.lean ====
section
/-! SUPPORT. The family EncodedRow, one lemma per instruction: the encoder writes the fixed bits of the instruction's
row of the opcode table, and only that row selects the word's fixed bits (30_encoding.md R66, 35_assembler.md R100). -/

namespace Sys2Proof.Laws.EncodedRow

/-- The row of the opcode table that carries the instruction's name selects its word. -/
def Statement (i : Instr) : Prop := ∃ r ∈ opcodeTable, r.mnemonic = i.mnemonic ∧ r.selects (encode i) = true

/-- A row of the table that selects the word proves the statement. -/
theorem of_row {i : Instr} (r : OpcodeRow) (h1 : r ∈ opcodeTable) (h2 : r.mnemonic = i.mnemonic)
    (h3 : encode i &&& r.mask = r.pattern) : Statement i :=
  ⟨r, h1, h2, by simp [OpcodeRow.selects, h3]⟩

theorem add (rd rs1 rs2 : RegIdx) : Statement (.add rd rs1 rs2) :=
  have h := encodeR_fields 0b0000000#7 0b000#3 0x33#7 rd rs1 rs2
  of_row ⟨.add, 0xFE00707F#32, 0x00000033#32⟩ (by decide) rfl ((mask_opcode_funct3_funct7 _ _ (by decide)).mpr ⟨h.1, h.2.1, h.2.2.1⟩)

theorem sub (rd rs1 rs2 : RegIdx) : Statement (.sub rd rs1 rs2) :=
  have h := encodeR_fields 0b0100000#7 0b000#3 0x33#7 rd rs1 rs2
  of_row ⟨.sub, 0xFE00707F#32, 0x40000033#32⟩ (by decide) rfl ((mask_opcode_funct3_funct7 _ _ (by decide)).mpr ⟨h.1, h.2.1, h.2.2.1⟩)

theorem sll (rd rs1 rs2 : RegIdx) : Statement (.sll rd rs1 rs2) :=
  have h := encodeR_fields 0b0000000#7 0b001#3 0x33#7 rd rs1 rs2
  of_row ⟨.sll, 0xFE00707F#32, 0x00001033#32⟩ (by decide) rfl ((mask_opcode_funct3_funct7 _ _ (by decide)).mpr ⟨h.1, h.2.1, h.2.2.1⟩)

theorem slt (rd rs1 rs2 : RegIdx) : Statement (.slt rd rs1 rs2) :=
  have h := encodeR_fields 0b0000000#7 0b010#3 0x33#7 rd rs1 rs2
  of_row ⟨.slt, 0xFE00707F#32, 0x00002033#32⟩ (by decide) rfl ((mask_opcode_funct3_funct7 _ _ (by decide)).mpr ⟨h.1, h.2.1, h.2.2.1⟩)

theorem sltu (rd rs1 rs2 : RegIdx) : Statement (.sltu rd rs1 rs2) :=
  have h := encodeR_fields 0b0000000#7 0b011#3 0x33#7 rd rs1 rs2
  of_row ⟨.sltu, 0xFE00707F#32, 0x00003033#32⟩ (by decide) rfl ((mask_opcode_funct3_funct7 _ _ (by decide)).mpr ⟨h.1, h.2.1, h.2.2.1⟩)

theorem xor (rd rs1 rs2 : RegIdx) : Statement (.xor rd rs1 rs2) :=
  have h := encodeR_fields 0b0000000#7 0b100#3 0x33#7 rd rs1 rs2
  of_row ⟨.xor, 0xFE00707F#32, 0x00004033#32⟩ (by decide) rfl ((mask_opcode_funct3_funct7 _ _ (by decide)).mpr ⟨h.1, h.2.1, h.2.2.1⟩)

theorem srl (rd rs1 rs2 : RegIdx) : Statement (.srl rd rs1 rs2) :=
  have h := encodeR_fields 0b0000000#7 0b101#3 0x33#7 rd rs1 rs2
  of_row ⟨.srl, 0xFE00707F#32, 0x00005033#32⟩ (by decide) rfl ((mask_opcode_funct3_funct7 _ _ (by decide)).mpr ⟨h.1, h.2.1, h.2.2.1⟩)

theorem sra (rd rs1 rs2 : RegIdx) : Statement (.sra rd rs1 rs2) :=
  have h := encodeR_fields 0b0100000#7 0b101#3 0x33#7 rd rs1 rs2
  of_row ⟨.sra, 0xFE00707F#32, 0x40005033#32⟩ (by decide) rfl ((mask_opcode_funct3_funct7 _ _ (by decide)).mpr ⟨h.1, h.2.1, h.2.2.1⟩)

theorem or (rd rs1 rs2 : RegIdx) : Statement (.or rd rs1 rs2) :=
  have h := encodeR_fields 0b0000000#7 0b110#3 0x33#7 rd rs1 rs2
  of_row ⟨.or, 0xFE00707F#32, 0x00006033#32⟩ (by decide) rfl ((mask_opcode_funct3_funct7 _ _ (by decide)).mpr ⟨h.1, h.2.1, h.2.2.1⟩)

theorem and (rd rs1 rs2 : RegIdx) : Statement (.and rd rs1 rs2) :=
  have h := encodeR_fields 0b0000000#7 0b111#3 0x33#7 rd rs1 rs2
  of_row ⟨.and, 0xFE00707F#32, 0x00007033#32⟩ (by decide) rfl ((mask_opcode_funct3_funct7 _ _ (by decide)).mpr ⟨h.1, h.2.1, h.2.2.1⟩)

theorem addi (rd rs1 : RegIdx) (imm12 : BitVec 12) : Statement (.addi rd rs1 imm12) :=
  have h := encodeI_fields 0b000#3 0x13#7 rd rs1 imm12
  of_row ⟨.addi, 0x0000707F#32, 0x00000013#32⟩ (by decide) rfl ((mask_opcode_funct3 _ _ (by decide)).mpr ⟨h.1, h.2.1⟩)

theorem slti (rd rs1 : RegIdx) (imm12 : BitVec 12) : Statement (.slti rd rs1 imm12) :=
  have h := encodeI_fields 0b010#3 0x13#7 rd rs1 imm12
  of_row ⟨.slti, 0x0000707F#32, 0x00002013#32⟩ (by decide) rfl ((mask_opcode_funct3 _ _ (by decide)).mpr ⟨h.1, h.2.1⟩)

theorem sltiu (rd rs1 : RegIdx) (imm12 : BitVec 12) : Statement (.sltiu rd rs1 imm12) :=
  have h := encodeI_fields 0b011#3 0x13#7 rd rs1 imm12
  of_row ⟨.sltiu, 0x0000707F#32, 0x00003013#32⟩ (by decide) rfl ((mask_opcode_funct3 _ _ (by decide)).mpr ⟨h.1, h.2.1⟩)

theorem xori (rd rs1 : RegIdx) (imm12 : BitVec 12) : Statement (.xori rd rs1 imm12) :=
  have h := encodeI_fields 0b100#3 0x13#7 rd rs1 imm12
  of_row ⟨.xori, 0x0000707F#32, 0x00004013#32⟩ (by decide) rfl ((mask_opcode_funct3 _ _ (by decide)).mpr ⟨h.1, h.2.1⟩)

theorem ori (rd rs1 : RegIdx) (imm12 : BitVec 12) : Statement (.ori rd rs1 imm12) :=
  have h := encodeI_fields 0b110#3 0x13#7 rd rs1 imm12
  of_row ⟨.ori, 0x0000707F#32, 0x00006013#32⟩ (by decide) rfl ((mask_opcode_funct3 _ _ (by decide)).mpr ⟨h.1, h.2.1⟩)

theorem andi (rd rs1 : RegIdx) (imm12 : BitVec 12) : Statement (.andi rd rs1 imm12) :=
  have h := encodeI_fields 0b111#3 0x13#7 rd rs1 imm12
  of_row ⟨.andi, 0x0000707F#32, 0x00007013#32⟩ (by decide) rfl ((mask_opcode_funct3 _ _ (by decide)).mpr ⟨h.1, h.2.1⟩)

theorem slli (rd rs1 : RegIdx) (shamt : BitVec 5) : Statement (.slli rd rs1 shamt) :=
  have h := encodeR_fields 0b0000000#7 0b001#3 0x13#7 rd rs1 shamt
  of_row ⟨.slli, 0xFE00707F#32, 0x00001013#32⟩ (by decide) rfl ((mask_opcode_funct3_funct7 _ _ (by decide)).mpr ⟨h.1, h.2.1, h.2.2.1⟩)

theorem srli (rd rs1 : RegIdx) (shamt : BitVec 5) : Statement (.srli rd rs1 shamt) :=
  have h := encodeR_fields 0b0000000#7 0b101#3 0x13#7 rd rs1 shamt
  of_row ⟨.srli, 0xFE00707F#32, 0x00005013#32⟩ (by decide) rfl ((mask_opcode_funct3_funct7 _ _ (by decide)).mpr ⟨h.1, h.2.1, h.2.2.1⟩)

theorem srai (rd rs1 : RegIdx) (shamt : BitVec 5) : Statement (.srai rd rs1 shamt) :=
  have h := encodeR_fields 0b0100000#7 0b101#3 0x13#7 rd rs1 shamt
  of_row ⟨.srai, 0xFE00707F#32, 0x40005013#32⟩ (by decide) rfl ((mask_opcode_funct3_funct7 _ _ (by decide)).mpr ⟨h.1, h.2.1, h.2.2.1⟩)

theorem lb (rd rs1 : RegIdx) (imm12 : BitVec 12) : Statement (.lb rd rs1 imm12) :=
  have h := encodeI_fields 0b000#3 0x03#7 rd rs1 imm12
  of_row ⟨.lb, 0x0000707F#32, 0x00000003#32⟩ (by decide) rfl ((mask_opcode_funct3 _ _ (by decide)).mpr ⟨h.1, h.2.1⟩)

theorem lh (rd rs1 : RegIdx) (imm12 : BitVec 12) : Statement (.lh rd rs1 imm12) :=
  have h := encodeI_fields 0b001#3 0x03#7 rd rs1 imm12
  of_row ⟨.lh, 0x0000707F#32, 0x00001003#32⟩ (by decide) rfl ((mask_opcode_funct3 _ _ (by decide)).mpr ⟨h.1, h.2.1⟩)

theorem lw (rd rs1 : RegIdx) (imm12 : BitVec 12) : Statement (.lw rd rs1 imm12) :=
  have h := encodeI_fields 0b010#3 0x03#7 rd rs1 imm12
  of_row ⟨.lw, 0x0000707F#32, 0x00002003#32⟩ (by decide) rfl ((mask_opcode_funct3 _ _ (by decide)).mpr ⟨h.1, h.2.1⟩)

theorem lbu (rd rs1 : RegIdx) (imm12 : BitVec 12) : Statement (.lbu rd rs1 imm12) :=
  have h := encodeI_fields 0b100#3 0x03#7 rd rs1 imm12
  of_row ⟨.lbu, 0x0000707F#32, 0x00004003#32⟩ (by decide) rfl ((mask_opcode_funct3 _ _ (by decide)).mpr ⟨h.1, h.2.1⟩)

theorem lhu (rd rs1 : RegIdx) (imm12 : BitVec 12) : Statement (.lhu rd rs1 imm12) :=
  have h := encodeI_fields 0b101#3 0x03#7 rd rs1 imm12
  of_row ⟨.lhu, 0x0000707F#32, 0x00005003#32⟩ (by decide) rfl ((mask_opcode_funct3 _ _ (by decide)).mpr ⟨h.1, h.2.1⟩)

theorem sb (rs1 rs2 : RegIdx) (imm12 : BitVec 12) : Statement (.sb rs1 rs2 imm12) :=
  have h := encodeS_fields 0b000#3 0x23#7 rs1 rs2 imm12
  of_row ⟨.sb, 0x0000707F#32, 0x00000023#32⟩ (by decide) rfl ((mask_opcode_funct3 _ _ (by decide)).mpr ⟨h.1, h.2.1⟩)

theorem sh (rs1 rs2 : RegIdx) (imm12 : BitVec 12) : Statement (.sh rs1 rs2 imm12) :=
  have h := encodeS_fields 0b001#3 0x23#7 rs1 rs2 imm12
  of_row ⟨.sh, 0x0000707F#32, 0x00001023#32⟩ (by decide) rfl ((mask_opcode_funct3 _ _ (by decide)).mpr ⟨h.1, h.2.1⟩)

theorem sw (rs1 rs2 : RegIdx) (imm12 : BitVec 12) : Statement (.sw rs1 rs2 imm12) :=
  have h := encodeS_fields 0b010#3 0x23#7 rs1 rs2 imm12
  of_row ⟨.sw, 0x0000707F#32, 0x00002023#32⟩ (by decide) rfl ((mask_opcode_funct3 _ _ (by decide)).mpr ⟨h.1, h.2.1⟩)

theorem beq (rs1 rs2 : RegIdx) (imm13 : BitVec 13) : Statement (.beq rs1 rs2 imm13) :=
  have h := encodeB_fields 0b000#3 0x63#7 rs1 rs2 imm13
  of_row ⟨.beq, 0x0000707F#32, 0x00000063#32⟩ (by decide) rfl ((mask_opcode_funct3 _ _ (by decide)).mpr ⟨h.1, h.2.1⟩)

theorem bne (rs1 rs2 : RegIdx) (imm13 : BitVec 13) : Statement (.bne rs1 rs2 imm13) :=
  have h := encodeB_fields 0b001#3 0x63#7 rs1 rs2 imm13
  of_row ⟨.bne, 0x0000707F#32, 0x00001063#32⟩ (by decide) rfl ((mask_opcode_funct3 _ _ (by decide)).mpr ⟨h.1, h.2.1⟩)

theorem blt (rs1 rs2 : RegIdx) (imm13 : BitVec 13) : Statement (.blt rs1 rs2 imm13) :=
  have h := encodeB_fields 0b100#3 0x63#7 rs1 rs2 imm13
  of_row ⟨.blt, 0x0000707F#32, 0x00004063#32⟩ (by decide) rfl ((mask_opcode_funct3 _ _ (by decide)).mpr ⟨h.1, h.2.1⟩)

theorem bge (rs1 rs2 : RegIdx) (imm13 : BitVec 13) : Statement (.bge rs1 rs2 imm13) :=
  have h := encodeB_fields 0b101#3 0x63#7 rs1 rs2 imm13
  of_row ⟨.bge, 0x0000707F#32, 0x00005063#32⟩ (by decide) rfl ((mask_opcode_funct3 _ _ (by decide)).mpr ⟨h.1, h.2.1⟩)

theorem bltu (rs1 rs2 : RegIdx) (imm13 : BitVec 13) : Statement (.bltu rs1 rs2 imm13) :=
  have h := encodeB_fields 0b110#3 0x63#7 rs1 rs2 imm13
  of_row ⟨.bltu, 0x0000707F#32, 0x00006063#32⟩ (by decide) rfl ((mask_opcode_funct3 _ _ (by decide)).mpr ⟨h.1, h.2.1⟩)

theorem bgeu (rs1 rs2 : RegIdx) (imm13 : BitVec 13) : Statement (.bgeu rs1 rs2 imm13) :=
  have h := encodeB_fields 0b111#3 0x63#7 rs1 rs2 imm13
  of_row ⟨.bgeu, 0x0000707F#32, 0x00007063#32⟩ (by decide) rfl ((mask_opcode_funct3 _ _ (by decide)).mpr ⟨h.1, h.2.1⟩)

theorem jal (rd : RegIdx) (imm21 : BitVec 21) : Statement (.jal rd imm21) :=
  have h := encodeJ_fields 0x6F#7 rd imm21
  of_row ⟨.jal, 0x0000007F#32, 0x0000006F#32⟩ (by decide) rfl ((mask_opcode _ _ (by decide)).mpr h.1)

theorem jalr (rd rs1 : RegIdx) (imm12 : BitVec 12) : Statement (.jalr rd rs1 imm12) :=
  have h := encodeI_fields 0b000#3 0x67#7 rd rs1 imm12
  of_row ⟨.jalr, 0x0000707F#32, 0x00000067#32⟩ (by decide) rfl ((mask_opcode_funct3 _ _ (by decide)).mpr ⟨h.1, h.2.1⟩)

theorem lui (rd : RegIdx) (imm20 : BitVec 20) : Statement (.lui rd imm20) :=
  have h := encodeU_fields 0x37#7 rd imm20
  of_row ⟨.lui, 0x0000007F#32, 0x00000037#32⟩ (by decide) rfl ((mask_opcode _ _ (by decide)).mpr h.1)

theorem auipc (rd : RegIdx) (imm20 : BitVec 20) : Statement (.auipc rd imm20) :=
  have h := encodeU_fields 0x17#7 rd imm20
  of_row ⟨.auipc, 0x0000007F#32, 0x00000017#32⟩ (by decide) rfl ((mask_opcode _ _ (by decide)).mpr h.1)

end Sys2Proof.Laws.EncodedRow
end

