-- ==== Sys2Proof/Laws/Text.lean ====
section
/-! SUPPORT. The assembler reads the decimal numbers the disassembler writes (35_assembler.md R85, R88; 30_encoding.md
R75). -/

namespace Sys2Proof.Machine

/-- The value of the digit written for a number below ten. -/
theorem digitValue_digitChar {n : Nat} (h : n < 10) : digitValue (Nat.digitChar n) = some n := by
  have : ∀ n < 10, digitValue (Nat.digitChar n) = some n := by decide
  exact this n h

/-- Reading decimal digits after what has been read so far. -/
theorem readDigits_append_digit {acc k d : Nat} {t : Text} (h : readDigits 10 acc t = some k) (hd : d < 10) :
    readDigits 10 acc (t ++ [Nat.digitChar d]) = some (10 * k + d) := by
  induction t generalizing acc with
  | nil => cases h; simp [readDigits, digitValue_digitChar hd, hd]
  | cons c cs ih =>
    simp only [readDigits, List.cons_append] at h ⊢
    split at h
    · split at h
      · rename_i hlt
        rw [if_pos hlt]; exact ih h
      · cases h
    · cases h

/-- The digits of a number read back as that number. -/
theorem readDigits_decimal (n : Nat) : readDigits 10 0 (decimal n) = some n := by
  induction n using Nat.strong_induction_on with
  | _ n ih =>
    by_cases h : n < 10
    · rw [decimal, Nat.toDigits_of_lt_base h]
      simp [readDigits, digitValue_digitChar h, h]
    · rw [decimal, Nat.toDigits_of_base_le (by decide) (by omega)]
      have := readDigits_append_digit (ih (n / 10) (by omega)) (Nat.mod_lt n (by decide : 0 < 10))
      rw [decimal] at this
      rw [this]
      congr 1
      omega

/-- A decimal text is not empty. -/
theorem decimal_ne_nil (n : Nat) : decimal n ≠ [] := Nat.toDigits_ne_nil

/-- A decimal text holds digits only. -/
theorem isDecDigit_of_mem_decimal {n : Nat} {c : Char} (h : c ∈ decimal n) : isDecDigit c = true := by
  have hc := Nat.isDigit_of_mem_toDigits (by decide : 0 < 10) (by decide) h
  simp only [Char.isDigit, Bool.and_eq_true, decide_eq_true_eq] at hc
  simp only [isDecDigit, Bool.and_eq_true, decide_eq_true_eq]
  exact ⟨hc.1, hc.2⟩

/-- The unsigned part of a literal that is a decimal text. -/
theorem readMagnitude_decimal (n : Nat) : readMagnitude (decimal n) = some n := by
  have hn : readNumber 10 (decimal n) = some n := by
    simp [readNumber, decimal_ne_nil, readDigits_decimal]
  unfold readMagnitude
  split
  · rename_i h
    have := isDecDigit_of_mem_decimal (n := n) (c := 'x') (by rw [h]; simp)
    exact absurd this (by decide)
  · rename_i h
    have := isDecDigit_of_mem_decimal (n := n) (c := 'X') (by rw [h]; simp)
    exact absurd this (by decide)
  · exact hn

/-- A signed decimal text reads back as its integer. -/
theorem readInt_signedDecimal (v : Int) : readInt (signedDecimal v) = some v := by
  unfold signedDecimal
  split
  · rw [readInt, readMagnitude_decimal, Option.map_some, show -((v.natAbs : Nat) : Int) = v by omega]
  · unfold readInt
    split
    · rename_i h
      have := isDecDigit_of_mem_decimal (n := v.natAbs) (c := '-') (by rw [h]; simp)
      exact absurd this (by decide)
    · rename_i h
      have := isDecDigit_of_mem_decimal (n := v.natAbs) (c := '+') (by rw [h]; simp)
      exact absurd this (by decide)
    · rw [readMagnitude_decimal, Option.map_some, show ((v.natAbs : Nat) : Int) = v by omega]

end Sys2Proof.Machine
end

