-- ==== Sys2Proof/Tests/Slice0.lean ====
section
/-! SUPPORT. The model's own tests. Expected values come from the examples of the rules (41_rtype.md to 47_utype.md) and
from the vectors of 95_test_vectors.md; the section is named at each group. -/

namespace Sys2Proof.Tests

open Sys2Proof.Machine

/-- A start state of 95_test_vectors.md: reset, with some registers and bytes set, `w` at `pc`. -/
def start (pc w : Word) (regs : List (RegIdx × Word)) (bytes : List Host.Cell) : State :=
  let s := regs.foldl (fun s r => writeReg s r.1 r.2) { State.reset with pc := pc }
  memWrite32 { s with mem := bytes.foldl (fun m c => Memory.write m c.1 c.2) [] } pc w

/-- The state after one step. -/
def after (s : State) : State :=
  match step s with
  | .next t => t
  | .fault _ => s
  | .refused _ => s

/-- `x3` after one step at 0 with `x1` and `x2` set. -/
def x3After (w x1 x2 : Word) : Word := readReg (after (start 0 w [(1, x1), (2, x2)] [])) 3

/-- `x5` after one step at 0 with `x6` set. -/
def x5After (w x6 : Word) : Word := readReg (after (start 0 w [(6, x6)] [])) 5

/-- `pc` after one step at 16 with `x1` and `x2` set. -/
def pcAfter (w x1 x2 : Word) : Word := (after (start 16 w [(1, x1), (2, x2)] [])).pc

/-! ## WellFormed: an ill-formed term for each check -/

theorem test_wellFormed_refuses_odd_branch_offsets :
    (Instr.beq 1 2 3).wellFormed = false ∧ (Instr.bne 1 2 1).wellFormed = false ∧
    (Instr.blt 1 2 (-1)).wellFormed = false ∧ (Instr.bge 1 2 5).wellFormed = false ∧
    (Instr.bltu 1 2 4095).wellFormed = false ∧ (Instr.bgeu 1 2 (-4095)).wellFormed = false := by decide

theorem test_wellFormed_refuses_odd_jal_offset : (Instr.jal 1 1).wellFormed = false := by decide

theorem test_wellFormed_accepts_even_offsets :
    (Instr.beq 1 2 (-4096)).wellFormed = true ∧ (Instr.jal 1 1048574).wellFormed = true := by decide

/-! ## Decoding: a word of the rules for every constructor -/

theorem test_decode_rtype :
    decode 0x002081B3 = .instr (.add 3 1 2) ∧ decode 0x402081B3 = .instr (.sub 3 1 2) ∧
    decode 0x002091B3 = .instr (.sll 3 1 2) ∧ decode 0x0020A1B3 = .instr (.slt 3 1 2) ∧
    decode 0x0020B1B3 = .instr (.sltu 3 1 2) ∧ decode 0x0020C1B3 = .instr (.xor 3 1 2) ∧
    decode 0x0020D1B3 = .instr (.srl 3 1 2) ∧ decode 0x4020D1B3 = .instr (.sra 3 1 2) ∧
    decode 0x0020E1B3 = .instr (.or 3 1 2) ∧ decode 0x0020F1B3 = .instr (.and 3 1 2) := by decide

theorem test_decode_itype :
    decode 0xFFF30293 = .instr (.addi 5 6 (-1)) ∧ decode 0x00032293 = .instr (.slti 5 6 0) ∧
    decode 0xFFF33293 = .instr (.sltiu 5 6 (-1)) ∧ decode 0xFFF34293 = .instr (.xori 5 6 (-1)) ∧
    decode 0x80036293 = .instr (.ori 5 6 (-2048)) ∧ decode 0x0FF37293 = .instr (.andi 5 6 255) ∧
    decode 0x01F31293 = .instr (.slli 5 6 31) ∧ decode 0x01F35293 = .instr (.srli 5 6 31) ∧
    decode 0x41F35293 = .instr (.srai 5 6 31) := by decide

theorem test_decode_loads_and_stores :
    decode 0x00010183 = .instr (.lb 3 2 0) ∧ decode 0x00011183 = .instr (.lh 3 2 0) ∧
    decode 0xFFC02183 = .instr (.lw 3 0 (-4)) ∧ decode 0x00014183 = .instr (.lbu 3 2 0) ∧
    decode 0x00015183 = .instr (.lhu 3 2 0) ∧ decode 0x00110223 = .instr (.sb 2 1 4) ∧
    decode 0x00111223 = .instr (.sh 2 1 4) ∧ decode 0x00112223 = .instr (.sw 2 1 4) := by decide

theorem test_decode_branches :
    decode 0xFE208CE3 = .instr (.beq 1 2 (-8)) ∧ decode 0xFE209CE3 = .instr (.bne 1 2 (-8)) ∧
    decode 0xFE20CCE3 = .instr (.blt 1 2 (-8)) ∧ decode 0xFE20DCE3 = .instr (.bge 1 2 (-8)) ∧
    decode 0xFE20ECE3 = .instr (.bltu 1 2 (-8)) ∧ decode 0xFE20FCE3 = .instr (.bgeu 1 2 (-8)) ∧
    decode 0x7E000FE3 = .instr (.beq 0 0 4094) ∧ decode 0x80000063 = .instr (.beq 0 0 (-4096)) := by decide

theorem test_decode_jumps_and_upper :
    decode 0x00C000EF = .instr (.jal 1 12) ∧ decode 0x7FFFF06F = .instr (.jal 0 1048574) ∧
    decode 0x0000706F = .instr (.jal 0 28672) ∧ decode 0x003280E7 = .instr (.jalr 1 5 3) ∧
    decode 0xFFFFF2B7 = .instr (.lui 5 0xFFFFF) ∧ decode 0x00001297 = .instr (.auipc 5 1) := by decide

/-- 95_test_vectors.md 2.1, 2.2, 2.5 and 2.8. -/
theorem test_unknown_words :
    ([0x00000000, 0xFFFFFFFF, 0x00000073, 0x00100073, 0x0000000F, 0x0000100F, 0x30200073, 0x10500073] ++
      [0xC0002073, 0x00001067, 0x00003003, 0x00003023, 0x0000000B, 0x02000033, 0x40006033, 0x0200D013] ++
      [0x40001013, 0x00002063, 0x00930020]).all (fun w => decide (decode w = Decoded.unknown w)) = true := by decide

theorem test_encode_is_the_inverse :
    encode (.sra 3 1 2) = 0x4020D1B3 ∧ encode (.srai 5 6 31) = 0x41F35293 ∧ encode (.lw 3 0 (-4)) = 0xFFC02183 ∧
    encode (.sw 2 1 4) = 0x00112223 ∧ encode (.beq 1 2 (-8)) = 0xFE208CE3 ∧ encode (.jal 0 1048574) = 0x7FFFF06F ∧
    encode (.auipc 5 1) = 0x00001297 := by decide

/-- Bytes in memory order: the first byte is the least significant (R40). -/
theorem test_decodeBytes_little_endian :
    decodeBytes [0xB3, 0x81, 0x20, 0x00, 0x13] = .instr (.add 3 1 2) [0x13] ∧ decodeBytes [0x13, 0, 0] = .truncated := by
  decide

theorem test_decodeTableWord :
    decodeTableWord 32 0x002081B3 = some (.add 3 1 2) ∧ decodeTableWord 32 0 = none := by decide

/-! ## One step of each instruction (95_test_vectors.md 2.1 to 2.7) -/

theorem test_add_wraps : x3After 0x002081B3 0xFFFFFFFF 1 = 0 := by decide
theorem test_sub_borrows : x3After 0x402081B3 0 1 = 0xFFFFFFFF := by decide
theorem test_sll_masks_amount : x3After 0x002091B3 1 33 = 2 := by decide
theorem test_slt_is_signed : x3After 0x0020A1B3 0xFFFFFFFF 1 = 1 := by decide
theorem test_sltu_is_unsigned : x3After 0x0020B1B3 0xFFFFFFFF 1 = 0 := by decide
theorem test_xor : x3After 0x0020C1B3 0xF0F0 0xFF00 = 0x0FF0 := by decide
theorem test_srl_zero_fills : x3After 0x0020D1B3 0x80000000 4 = 0x08000000 := by decide
theorem test_sra_sign_fills : x3After 0x4020D1B3 0x80000000 4 = 0xF8000000 := by decide
theorem test_or : x3After 0x0020E1B3 0xF0 0x0F = 0xFF := by decide
theorem test_and : x3After 0x0020F1B3 0xF0 0x3C = 0x30 := by decide

theorem test_add_to_x0_is_discarded :
    (after (start 0 0x00208033 [(1, 5), (2, 6)] [])).regs[0] = 0 ∧ (after (start 0 0x00208033 [] [])).pc = 4 := by decide

theorem test_addi_negative : x5After 0xFFF30293 0 = 0xFFFFFFFF := by decide
theorem test_slti_negative_operand : x5After 0x00032293 0xFFFFFFFB = 1 := by decide
theorem test_sltiu_sign_extends_first : x5After 0xFFF33293 5 = 1 := by decide
theorem test_xori_minus_one_is_not : x5After 0xFFF34293 0x0F = 0xFFFFFFF0 := by decide
theorem test_ori_sign_extends : x5After 0x80036293 1 = 0xFFFFF801 := by decide
theorem test_andi_low_byte : x5After 0x0FF37293 0x12345678 = 0x78 := by decide
theorem test_slli_31 : x5After 0x01F31293 3 = 0x80000000 := by decide
theorem test_srli_31 : x5After 0x01F35293 0x80000000 = 1 := by decide
theorem test_srai_31 : x5After 0x41F35293 0x80000000 = 0xFFFFFFFF := by decide

/-- `x3` after a load at 0 with `x2` set, from the bytes of 95_test_vectors.md 2.3. -/
def loaded (w x2 : Word) : Word :=
  readReg (after (start 0 w [(2, x2), (3, 7)] [(512, 0x80), (513, 0xFF), (514, 0x34), (515, 0x12), (1023, 0xAB)])) 3

theorem test_lb_sign_extends : loaded 0x00010183 512 = 0xFFFFFF80 := by decide
theorem test_lh_sign_extends : loaded 0x00011183 512 = 0xFFFFFF80 := by decide
theorem test_lw_little_endian : loaded 0x00012183 512 = 0x1234FF80 := by decide
theorem test_lbu_zero_extends : loaded 0x00014183 512 = 0x80 := by decide
theorem test_lhu_zero_extends : loaded 0x00015183 512 = 0xFF80 := by decide
theorem test_lbu_last_byte : loaded 0x00014183 1023 = 0xAB := by decide
theorem test_lw_misaligned : loaded 0x00012183 513 = 0x001234FF := by decide
theorem test_lh_out_of_range_keeps_rd : loaded 0x00011183 1023 = 7 := by decide

theorem test_lw_out_of_range_warns :
    (after (start 0 0xFFC02183 [] [])).warnings = [⟨0, 0, .access 0xFFFFFFFC⟩] ∧
    (after (start 0 0xFFC02183 [] [])).pc = 4 ∧ (after (start 0 0xFFC02183 [] [])).cycles = 1 := by decide

/-- The bytes at 516 to 519 after a store at 0 with `x1` and `x2` of 95_test_vectors.md 2.4. -/
def stored (w : Word) : List Byte :=
  [516, 517, 518, 519].map (readByte (after (start 0 w [(1, 0x11223344), (2, 512)] [])))

theorem test_sb : stored 0x00110223 = [0x44, 0, 0, 0] := by decide
theorem test_sh : stored 0x00111223 = [0x44, 0x33, 0, 0] := by decide
theorem test_sw : stored 0x00112223 = [0x44, 0x33, 0x22, 0x11] := by decide

theorem test_sh_out_of_range_writes_nothing :
    readByte (after (start 0 0x00111023 [(1, 0x11223344), (2, 1023)] [(1023, 0xAB)])) 1023 = 0xAB ∧
    (after (start 0 0x00111023 [(1, 0x11223344), (2, 1023)] [(1023, 0xAB)])).warnings = [⟨0, 0, .access 1023⟩] := by
  decide

theorem test_beq : pcAfter 0xFE208CE3 0xFFFFFFFF 1 = 20 ∧ pcAfter 0xFE208CE3 1 1 = 8 := by decide
theorem test_bne : pcAfter 0xFE209CE3 0xFFFFFFFF 1 = 8 ∧ pcAfter 0xFE209CE3 1 1 = 20 := by decide
theorem test_blt : pcAfter 0xFE20CCE3 0xFFFFFFFF 1 = 8 ∧ pcAfter 0xFE20CCE3 1 1 = 20 := by decide
theorem test_bge : pcAfter 0xFE20DCE3 0xFFFFFFFF 1 = 20 ∧ pcAfter 0xFE20DCE3 1 1 = 8 := by decide
theorem test_bltu : pcAfter 0xFE20ECE3 0xFFFFFFFF 1 = 20 ∧ pcAfter 0xFE20ECE3 1 1 = 20 := by decide
theorem test_bgeu : pcAfter 0xFE20FCE3 0xFFFFFFFF 1 = 8 ∧ pcAfter 0xFE20FCE3 1 1 = 8 := by decide

theorem test_branch_below_zero_wraps : (after (start 0 0x80000063 [] [])).pc = 0xFFFFF000 := by decide

theorem test_jal_links :
    readReg (after (start 8 0x00C000EF [] [])) 1 = 12 ∧ (after (start 8 0x00C000EF [] [])).pc = 20 := by decide
theorem test_jalr_clears_bit_0 :
    readReg (after (start 8 0x003280E7 [(5, 20)] [])) 1 = 12 ∧ (after (start 8 0x003280E7 [(5, 20)] [])).pc = 22 := by
  decide
theorem test_jalr_same_register_uses_old_value :
    readReg (after (start 8 0x000282E7 [(5, 100)] [])) 5 = 12 ∧
    (after (start 8 0x000282E7 [(5, 100)] [])).pc = 100 := by decide

theorem test_lui : readReg (after (start 0 0xFFFFF2B7 [] [])) 5 = 0xFFFFF000 := by decide
theorem test_auipc : readReg (after (start 8 0x00001297 [] [])) 5 = 0x1008 := by decide

/-! ## Steps that warn, the ceiling, commands (95_test_vectors.md 2.6, 2.8, 2.9, 1.7) -/

theorem test_unknown_word_warns :
    (after (start 0 0x00000073 [] [])).warnings = [⟨0, 0, .decode 0x73⟩] ∧ (after (start 0 0x00000073 [] [])).pc = 4 := by
  decide

theorem test_misaligned_fetch_is_literal :
    (after { start 0 0x0020006F [] [(4, 0x93), (6, 0x10)] with pc := 2, cycles := 1 }).warnings =
      [⟨1, 2, .decode 0x00930020⟩] := by decide

theorem test_fetch_at_edge :
    (after { State.reset with pc := 1021, cycles := 9 }).warnings = [⟨9, 1021, .fetch⟩] ∧
    (after { State.reset with pc := 1020 }).warnings = [⟨0, 1020, .decode 0⟩] := by decide

theorem test_pc_wraps : (after { State.reset with pc := 0xFFFFFFFC }).pc = 0 := by decide

theorem test_last_step_then_halted :
    (after { start 0 0x00000063 [] [] with cycles := 4999 }).cycles = 5000 ∧
    after { start 0 0x00000063 [] [] with cycles := 5000 } = { start 0 0x00000063 [] [] with cycles := 5000 } := by decide

theorem test_loadProgram_resets_and_keeps_the_rest :
    afterCommand (.loadProgram [0x00A00293]) (start 8 0x00112223 [(5, 9)] [(100, 0xAB)]) =
      { State.reset with mem := [(0, 0x93), (1, 0x02), (2, 0xA0), (8, 0x23), (9, 0x22), (10, 0x11), (100, 0xAB)] } := by
  decide

theorem test_reset_zeroes :
    afterCommand .reset { start 8 0x00112223 [(5, 9)] [(100, 0xAB)] with cycles := 7 } = State.reset := by decide

theorem test_withFetchWord_is_fetched :
    (after (State.reset.withFetchWord 32 0x00A00293)).regs[5] = 10 ∧
    fetch ((State.reset.withFetchWord 32 0x00112223).withFetchWord 32 0x13) = some 0x13 := by decide

/-! ## Assembler and disassembler (95_test_vectors.md 1.1, 2.8, 2.10) -/

theorem test_disassemble :
    disassemble 0x00A30293 0 = "addi x5, x6, 10".toList ∧ disassemble 0x000012B7 0 = "lui x5, 1".toList ∧
    disassemble 0 0 = [] ∧ disassemble 0x0000000B 0 = "unknown 0x0000000b".toList ∧
    disassemble 0x00112223 0 = "sw x1, 4(x2)".toList := by decide

theorem test_assemble_canonical :
    assemble "addi x5, x0, 10\naddi x6, x5, 5".toList = .success ⟨[0x00A00293, 0x00528313], [], []⟩ := by decide

theorem test_assemble_label_and_call :
    assemble "call f\nf: ret".toList =
      .success ⟨[0x004000EF, 0x00008067], [("f".toList, 4)],
        ["call f -> jal x1, f".toList, "ret -> jalr x0, x1, 0".toList]⟩ := by decide

theorem test_assemble_li_two_words :
    assemble "li x5, 2048".toList =
      .success ⟨[0x000012B7, 0x80028293], [], ["li x5, 2048 -> lui x5, 1; addi x5, x5, -2048".toList]⟩ := by decide

theorem test_assemble_case_and_comment :
    assemble "ADDI X5, ZERO, 1 # comment\r\nlw x1, 0( x2 )".toList = .success ⟨[0x00100293, 0x00012083], [], []⟩ := by
  decide

/-- The kind and the line of the error of a text. -/
def errorOf (text : String) : Option (AsmErrorKind × Nat) :=
  match assemble text.toList with
  | .success _ => none
  | .failure e => some (e.kind, e.line)

theorem test_assemble_range_errors :
    errorOf "addi x1, x0, 2048" = some (.immediateRangeError, 1) ∧
    errorOf "beq x0, x0, 3" = some (.immediateRangeError, 1) ∧
    errorOf "lui x1, -1" = some (.immediateRangeError, 1) ∧
    errorOf "li x5, 4294967296" = some (.immediateRangeError, 1) := by decide

theorem test_assemble_syntax_errors :
    errorOf "addi x5, x05, 1" = some (.syntaxError, 1) ∧ errorOf "addi x5, fp, 1" = some (.syntaxError, 1) ∧
    errorOf "addi x5, x0, 1," = some (.syntaxError, 1) ∧ errorOf "lw x1, (x2)" = some (.syntaxError, 1) ∧
    errorOf ".word 5" = some (.syntaxError, 1) ∧ errorOf "ecall" = some (.syntaxError, 1) ∧
    errorOf "foo: foo: nop" = some (.syntaxError, 1) := by decide

theorem test_assemble_first_error :
    errorOf "nop\nj undefined_label\naddi x1, x0, 5000" = some (.undefinedLabelError, 2) ∧
    errorOf "addi x1, x0, 5000\nfoo bar" = some (.syntaxError, 2) := by decide

/-! ## Witnesses: the hypotheses of each statement can be met, at the boundary of each clause -/

theorem witness_DecodeOfEncode :
    (Instr.bgeu 31 30 (-4096)).wellFormed = true ∧ (Instr.jal 31 (-1048576)).wellFormed = true := by decide

theorem witness_EncodeOfDecode : decode 0x80000063 = .instr (.beq 0 0 (-4096)) := by decide

theorem witness_DecodeFollowsTable :
    (⟨.sra, 0xFE00707F, 0x40005033⟩ ∈ opcodeTable ∧ 0x4020D1B3#32 &&& 0xFE00707F = 0x40005033) ∧
    ∀ r ∈ opcodeTable, 0x00002063#32 &&& r.mask ≠ r.pattern := by decide

theorem witness_RowsAreDisjoint : 0x002081B3#32 &&& 0xFE00707F = 0x00000033 := by decide

theorem witness_StrictDecoding_opcode :
    (0x00000010#32).extractLsb' 0 2 ≠ 3#2 ∧
    (0x00000073#32).extractLsb' 0 7 ∉ [0x33#7, 0x13#7, 0x03#7, 0x23#7, 0x63#7, 0x6F#7, 0x67#7, 0x37#7, 0x17#7] := by
  decide

theorem witness_StrictDecoding_funct7 :
    ((0x40006033#32).extractLsb' 0 7 = 0x33#7 ∧ (0x40006033#32).extractLsb' 25 7 ≠ 0x00#7 ∧
      ¬((0x40006033#32).extractLsb' 25 7 = 0x20#7 ∧
        ((0x40006033#32).extractLsb' 12 3 = 0#3 ∨ (0x40006033#32).extractLsb' 12 3 = 5#3))) ∧
    ((0x40001013#32).extractLsb' 0 7 = 0x13#7 ∧
      ((0x40001013#32).extractLsb' 12 3 = 1#3 ∨ (0x40001013#32).extractLsb' 12 3 = 5#3) ∧
      (0x40001013#32).extractLsb' 25 7 ≠ 0x00#7 ∧
      ¬((0x40001013#32).extractLsb' 25 7 = 0x20#7 ∧ (0x40001013#32).extractLsb' 12 3 = 5#3)) := by decide

theorem witness_StrictDecoding_funct3 :
    ((0x00003003#32).extractLsb' 0 7 = 0x03#7 ∧ (0x00003003#32).extractLsb' 12 3 ∈ [3#3, 6#3, 7#3]) ∧
    ((0x00003023#32).extractLsb' 0 7 = 0x23#7 ∧ (0x00003023#32).extractLsb' 12 3 ∉ [0#3, 1#3, 2#3]) ∧
    ((0x00002063#32).extractLsb' 0 7 = 0x63#7 ∧ (0x00002063#32).extractLsb' 12 3 ∈ [2#3, 3#3]) ∧
    ((0x00001067#32).extractLsb' 0 7 = 0x67#7 ∧ (0x00001067#32).extractLsb' 12 3 ≠ 0#3) := by decide

theorem witness_AddImmediate_li : (-2048 : Int) ≤ -2048 ∧ (-2048 : Int) ≤ 2047 ∧ (2047 : Int) ≤ 2047 := by decide

theorem witness_LoadUpper : (31 : RegIdx) ≠ 0 := by decide

/-- A state with base register `x2 = a`. -/
def based (a : Word) : State := start 0 0x13 [(1, 0x11223344), (2, a)] []

theorem witness_LoadsInRange :
    (effAddr (based 1023) 2 0).toNat + 1 ≤ (based 1023).memSize ∧
    (effAddr (based 1024) 2 (-2)).toNat + 2 ≤ (based 1024).memSize ∧
    (effAddr (based 1020) 2 0).toNat + 4 ≤ (based 1020).memSize := by decide

theorem witness_LoadsOutOfRange :
    (based 1023).memSize < (effAddr (based 1023) 2 1).toNat + 1 ∧
    (based 1023).memSize < (effAddr (based 1023) 2 0).toNat + 2 ∧
    (based 1021).memSize < (effAddr (based 1021) 2 0).toNat + 4 := by decide

theorem witness_StoresInRange :
    Memory.wf (based 1020).mem = true ∧ (effAddr (based 1020) 2 3).toNat + 1 ≤ (based 1020).memSize ∧
    (effAddr (based 1020) 2 2).toNat + 2 ≤ (based 1020).memSize ∧
    (effAddr (based 1020) 2 0).toNat + 4 ≤ (based 1020).memSize := by decide

theorem witness_StoresOutOfRange :
    (based 1020).memSize < (effAddr (based 1020) 2 4).toNat + 1 ∧
    (based 1020).memSize < (effAddr (based 1020) 2 3).toNat + 2 ∧
    (based 1020).memSize < (effAddr (based 1020) 2 1).toNat + 4 := by decide

/-- The state after `sw x1, 0(x2)` at the last word of memory. -/
def storedWord : State := finish (memWrite32 (based 1020) 1020 0x11223344) 4

theorem witness_StoreThenLoad :
    Memory.wf (based 1020).mem = true ∧ (effAddr (based 1020) 2 0).toNat + 4 ≤ (based 1020).memSize ∧
    exec (.sw 2 1 0) (based 1020) = .next storedWord ∧ (3 : RegIdx) ≠ 0 ∧
    (effAddr storedWord 2 3).toNat = (effAddr (based 1020) 2 0).toNat + 3 ∧
    (effAddr storedWord 2 2).toNat = (effAddr (based 1020) 2 0).toNat + 2 ∧
    (effAddr storedWord 2 0).toNat = (effAddr (based 1020) 2 0).toNat + 0 :=
  ⟨by decide, by decide, rfl, by decide, by decide, by decide, by decide⟩

theorem witness_FetchSeesStore :
    Memory.wf (based 1020).mem = true ∧ (effAddr (based 1020) 2 0).toNat + 4 ≤ (based 1020).memSize ∧
    exec (.sw 2 1 0) (based 1020) = .next storedWord := ⟨by decide, by decide, rfl⟩

theorem witness_OnlyLoadsAndStoresTouchMemory :
    accessOf (.add 3 1 2) (based 0) = none ∧ (∃ t, exec (.add 3 1 2) (based 0) = .next t) ∧
    (destinationOf (.lw 3 2 0)).isSome = true ∧ ∃ t, exec (.lw 3 2 0) (based 1020) = .next t :=
  ⟨rfl, ⟨_, rfl⟩, rfl, _, rfl⟩

/-- Two memories that differ outside the accessed word only. -/
theorem witness_AccessReadsOnlyItsBytes :
    (∀ ea n k, accessOf (.lw 3 2 0) (based 512) = some (ea, n) → k < n →
      Memory.read [(600, 1)] (ea.toNat + k) = readByte (based 512) (ea.toNat + k)) ∧
    (∃ t, exec (.lw 3 2 0) (based 512) = .next t) ∧
    (∃ t, exec (.lw 3 2 0) { based 512 with mem := [(600, 1)] } = .next t) := by
  refine ⟨fun ea n k h hk => ?_, ⟨_, rfl⟩, ⟨_, rfl⟩⟩
  cases h
  have : ∀ k < 4, Memory.read [(600, 1)] (512 + k) = readByte (based 512) (512 + k) := by decide
  exact this k hk

theorem witness_MemoryIsItsBytes :
    Memory.wf [(5, 1), (9, 2)] = true ∧ ∀ a, Memory.read [(5, 1), (9, 2)] a = Memory.read [(5, 1), (9, 2)] a :=
  ⟨by decide, fun _ => rfl⟩

theorem witness_RegisterZero :
    destinationOf (.jal 0 12) = some 0 ∧ ∃ t, exec (.jal 0 12) State.reset = .next t := ⟨rfl, _, rfl⟩

theorem witness_OnlyDestinationChanges :
    (∃ t, exec (.sub 3 1 2) State.reset = .next t) ∧ destinationOf (.sub 3 1 2) ≠ some 4 := ⟨⟨_, rfl⟩, by decide⟩

theorem witness_NextPc :
    ∃ t, exec (.beq 0 0 0) State.reset = .next t ∧ t.pc = State.reset.pc := ⟨_, rfl, by decide⟩

theorem witness_NoTraps :
    (4999#32).toNat < Config.cycleCeiling ∧ Config.cycleCeiling ≤ (5000#32).toNat := by decide

theorem witness_StepRunsDecoded :
    (start 1020 0x002081B3 [] []).cycles.toNat < Config.cycleCeiling ∧
    (start 1020 0x002081B3 [] []).pc.toNat + 4 ≤ (start 1020 0x002081B3 [] []).memSize ∧
    decode (wordOfBytes (readByte (start 1020 0x002081B3 [] []) 1020) (readByte (start 1020 0x002081B3 [] []) 1021)
      (readByte (start 1020 0x002081B3 [] []) 1022) (readByte (start 1020 0x002081B3 [] []) 1023)) =
      .instr (.add 3 1 2) := by decide

theorem witness_UnknownWordWarns :
    (start 1020 0x73 [] []).cycles.toNat < Config.cycleCeiling ∧ fetch (start 1020 0x73 [] []) = some 0x73 ∧
    ∀ r ∈ opcodeTable, 0x73#32 &&& r.mask ≠ r.pattern := by decide

/-- A core whose next fetch is the first that does not fit, one step below the ceiling. -/
def atEdge : State := { State.reset with pc := 1021, cycles := 4999 }

theorem witness_FetchOutOfRangeWarns :
    atEdge.cycles.toNat < Config.cycleCeiling ∧ atEdge.memSize < atEdge.pc.toNat + 4 := by decide

theorem witness_OneWarningPerStep :
    WarningCause atEdge .fetch ∧ WarningCause (start 0 0x73 [] []) (.decode 0x73) ∧
    WarningCause (start 0 0xFFC02183 [] []) (.access 0xFFFFFFFC) ∧ (∃ t, step (start 0 0x13 [] []) = .next t) := by
  refine ⟨⟨by decide, by decide⟩, ⟨by decide, by decide, by decide, by decide⟩, ⟨by decide, by decide, .lw 3 0 (-4), 4, ?_⟩,
    _, rfl⟩
  decide

theorem witness_HaltedStepDoesNothing :
    Config.cycleCeiling ≤ ({ State.reset with cycles := 5000 } : State).cycles.toNat := by decide

theorem witness_CycleCounter :
    atEdge.cycles.toNat < Config.cycleCeiling ∧ (∃ t, step atEdge = .next t) ∧
    (afterCommand .reset atEdge).cycles.toNat < atEdge.cycles.toNat ∧
    (∃ t, exec (.lw 3 0 (-4)) State.reset = .next t) := ⟨by decide, ⟨_, rfl⟩, by decide, _, rfl⟩

theorem witness_WarningsAreNeverRead : ∃ t, step atEdge = .next t := ⟨_, rfl⟩

/-- A legal state with something in every field. -/
def busy : State := { start 8 0xFFC02183 [(5, 9)] [(1023, 0xAB)] with cycles := 2, warnings := [⟨1, 4, .fetch⟩] }

theorem witness_StepKeepsLegalState : LegalState busy ∧ ∃ t, step busy = .next t := by
  refine ⟨⟨by decide, by decide, by decide, by decide, by decide, by decide, ?_, ?_⟩, _, rfl⟩
  · exact List.pairwise_singleton _ _
  · decide

theorem witness_ResetIsLegal : Config.memSizeOk 768 = true ∧ Config.memSizeOk (2 ^ 32) = true := by decide

theorem witness_CommandsKeepLegalState : LegalState busy := witness_StepKeepsLegalState.1

theorem witness_RunEndsAtCeiling :
    busy.cycles.toNat ≤ Config.cycleCeiling ∧
    Config.cycleCeiling ≤ ({ State.reset with cycles := 5000 } : State).cycles.toNat := by decide

theorem witness_LoadProgramEffect :
    Memory.wf busy.mem = true ∧ 4 * (List.replicate 256 0x13#32).length ≤ busy.memSize ∧
    (List.replicate 256 0x13#32)[255]? = some 0x13 := by
  refine ⟨by decide, ?_, List.getElem?_replicate_of_lt (by decide)⟩
  rw [List.length_replicate]
  decide

theorem witness_LoadProgramTooLarge : busy.memSize < 4 * (List.replicate 257 0x13#32).length := by
  rw [List.length_replicate]
  decide

theorem witness_LittleEndianFetchAndLoad :
    busy.pc.toNat + 4 ≤ busy.memSize ∧ Memory.wf busy.mem = true ∧
    (∃ t, command (.loadProgram [0x13, 0x00A00293]) busy = .next t) ∧
    [0x13#32, 0x00A00293#32][1]? = some 0x00A00293 ∧ (4#32).toNat = 4 * 1 :=
  ⟨by decide, by decide, ⟨_, rfl⟩, rfl, rfl⟩

theorem witness_AssembleOfDisassemble : decode 0xFE208CE3 = .instr (.beq 1 2 (-8)) := by decide

/-- A branch token at 8 on line 3. -/
def branchTo (imm : ImmToken) : PlacedToken := ⟨3, 8, ⟨.beq, 0, 1, 2, imm⟩⟩

/-- The clauses of PassTwoEncodes at their boundaries: branch offsets 4094 and 4096 of a label, a literal, the two parts
of an address whose low part is -2048, and a label that is not in the table. -/
theorem witness_PassTwoEncodes :
    ImmediateIs [("L".toList, 4102)] 8 (branchTo (.label "L".toList)).token.imm 4094 ∧ EncodableValue .beq 4094 ∧
    ImmediateIs [("L".toList, 4104)] 8 (branchTo (.label "L".toList)).token.imm 4096 ∧ ¬ EncodableValue .beq 4096 ∧
    ImmediateIs [] 8 (.value (-4096)) (-4096) ∧ EncodableValue .beq (-4096) ∧ ¬ EncodableValue .beq 3 ∧
    ImmediateIs [("L".toList, 0x12800)] 8 (.lo "L".toList) (-2048) ∧ EncodableValue .addi (-2048) ∧
    ImmediateIs [("L".toList, 0x12800)] 8 (.hi "L".toList) 0x13 ∧ EncodableValue .lui 0x13 ∧
    labelOf (branchTo (.label "M".toList)).token.imm = some "M".toList ∧
    "M".toList ∉ [("L".toList, 4102)].map Prod.fst ∧ ([("L".toList, 4102)].map Prod.fst).Nodup := by
  refine ⟨⟨4102, by decide⟩, ?_, ⟨4104, by decide⟩, ?_, rfl, ?_, ?_, ⟨0x12800, by decide⟩, ?_, ⟨0x12800, by decide⟩, ?_,
    rfl, by decide, by decide⟩
  all_goals
    simp only [EncodableValue]
    decide

/-- R98, R112: a branch at 8 to a label at 0 goes by -8, and `la` of 0x12800 has the parts 0x13 and -2048. -/
theorem test_passTwo_words :
    passTwoToken [("L".toList, 0)] (branchTo (.label "L".toList)) = .ok 0xFE208CE3 ∧
    passTwoToken [("L".toList, 0x12800)] ⟨1, 8, ⟨.lui, 5, 0, 0, .hi "L".toList⟩⟩ = .ok 0x000132B7 ∧
    passTwoToken [("L".toList, 0x12800)] ⟨1, 12, ⟨.addi, 5, 5, 0, .lo "L".toList⟩⟩ = .ok 0x80028293 := by decide

/-- A text with a label, a pseudo-instruction and a canonical instruction. -/
def sampleText : Text := "a: li x5, 2048\nb: addi x1, x1, 1\nc:".toList

/-- The first line emits two words, the second one; `a` stands before both, `b` between, `c` at the end. -/
theorem witness_PassOneAddresses :
    (∃ st, passOne sampleText = .ok st ∧ st.toks.length = 3 ∧ st.sym.length = 3) ∧
    (∃ l, (splitLines sampleText)[0]? = some l ∧ "a".toList ∈ lineLabels l ∧ lineWords l = 2) ∧
    (∃ l, (splitLines sampleText)[1]? = some l ∧ "b".toList ∈ lineLabels l ∧ lineWords l = 1) ∧
    (∃ l, (splitLines sampleText)[2]? = some l ∧ "c".toList ∈ lineLabels l ∧ lineWords l = 0) :=
  ⟨⟨_, rfl, by decide, by decide⟩, ⟨_, rfl, by decide, by decide⟩, ⟨_, rfl, by decide, by decide⟩,
    ⟨_, rfl, by decide, by decide⟩⟩

theorem witness_LogCountsPseudoInstructions :
    (∃ p, assemble sampleText = .success p) ∧ (∃ p, assemble "nop: addi x1, x1, 1".toList = .success p) ∧
    (splitLines "nop: addi x1, x1, 1".toList).countP isPseudoLine = 0 := ⟨⟨_, rfl⟩, ⟨_, rfl⟩, by decide⟩

theorem witness_AssembleNoInstruction :
    (∀ l ∈ splitLines "a: b:\n# c:\n".toList, lineBody l = []) ∧
    ((splitLines "a: b:\n# c:\n".toList).flatMap lineLabels).Nodup := by decide

theorem witness_ErrorNamesALine :
    (∃ e, assemble "\nj L".toList = .failure e ∧ e.line = 2) ∧ (∃ e, passOne "nope".toList = .error e ∧ e.line = 1) :=
  ⟨⟨_, rfl, by decide⟩, ⟨_, rfl, by decide⟩⟩

theorem witness_LiAndLaBuildConstants :
    (31 : RegIdx) ≠ 0 ∧ (-2 ^ 31 : Int) ≤ 2 ^ 32 - 1 ∧ (2 ^ 32 - 1 : Int) < 2 ^ 32 ∧
    symbolAddress [("L".toList, 4)] "L".toList = some 4 := by decide

theorem witness_RegisterNames :
    lowerText "Sp".toList = lowerText "sp".toList ∧ lowerText "Sp".toList = abiName 2 ∧
    lowerText "X31".toList = xName 31 ∧ lowerText "ZERO".toList = abiName 0 ∧ lowerText "T6".toList = abiName 31 := by
  decide

end Sys2Proof.Tests
end

section
/-! SUPPORT. What every step of a running core does to the state, said once; each invariant and frame statement of
10_state.md is read off it. -/

namespace Sys2Proof.Machine

/-- What every instruction and every warning step does: one cycle, at most one warning entry, and bytes stored inside
memory only. Registers other than `x0` and `pc` have lemmas of their own. -/
structure StepFrame (s t : State) : Prop where
  memSize : t.memSize = s.memSize
  slotZero : t.regs[0] = s.regs[0]
  cycles : t.cycles = s.cycles + 1
  warnings : t.warnings = s.warnings ∨ ∃ w, t.warnings = s.warnings ++ [⟨s.cycles, s.pc, w⟩]
  mem : t.mem = s.mem ∨ ∃ a bs, a + bs.length ≤ s.memSize ∧ t.mem = Memory.writeList s.mem a bs

theorem warnStep_stepFrame (s : State) (w : Warning) : StepFrame s (warnStep s w) :=
  ⟨rfl, rfl, rfl, .inr ⟨w, rfl⟩, .inl rfl⟩

theorem exec_stepFrame {i : Instr} {s t : State} (h : exec i s = .next t) : StepFrame s t := by
  cases exec_shape i s with
  | writes rd v _ _ _ he => cases he.symm.trans h; constructor <;> simp
  | moves p _ _ _ he => cases he.symm.trans h; constructor <;> simp
  | links rd p _ _ _ he => cases he.symm.trans h; constructor <;> simp
  | stores ea bs _ _ hr _ he =>
    cases he.symm.trans h
    exact ⟨rfl, rfl, rfl, .inl rfl, .inr ⟨ea.toNat, bs, inRange_iff.mp hr, rfl⟩⟩
  | warns ea n _ _ _ he => cases he.symm.trans h; exact warnStep_stepFrame s _

/-- A step of a halted core is the identity; any other has the frame. -/
theorem step_stepFrame {s t : State} (h : step s = .next t) :
    (halted s = true ∧ t = s) ∨ (halted s = false ∧ StepFrame s t) := by
  obtain ⟨hh, hs⟩ | ⟨hh, -, hs⟩ | ⟨_, _, hh, -, -, hs⟩ | ⟨_, i, hh, -, -, hs⟩ := step_cases s
  · cases hs.symm.trans h; exact .inl ⟨hh, rfl⟩
  · cases hs.symm.trans h; exact .inr ⟨hh, warnStep_stepFrame s _⟩
  · cases hs.symm.trans h; exact .inr ⟨hh, warnStep_stepFrame s _⟩
  · exact .inr ⟨hh, exec_stepFrame (hs.symm.trans h)⟩

/-- A running core is below the ceiling, so the count of one more step does not wrap. -/
theorem StepFrame.cycles_toNat {s t : State} (h : StepFrame s t) (hh : halted s = false) :
    t.cycles.toNat = s.cycles.toNat + 1 := by
  have hlt := halted_eq_false.mp hh
  simp only [Config.cycleCeiling] at hlt
  rw [h.cycles]
  bv_omega

/-- The warning record only grows at its end. -/
theorem StepFrame.warnings_grow {s t : State} (h : StepFrame s t) : s.warnings <+: t.warnings := by
  obtain hw | ⟨w, hw⟩ := h.warnings
  · rw [hw]
  · exact ⟨_, hw.symm⟩

theorem exec_pc {i : Instr} {s t : State} (h : exec i s = .next t) : t.pc = (takenTarget i s).getD (s.pc + 4) := by
  cases exec_shape i s with
  | writes rd v _ ht _ he => cases he.symm.trans h; simp [ht]
  | moves p _ _ ht he => cases he.symm.trans h; exact ht
  | links rd p _ _ ht he => cases he.symm.trans h; simp [ht]
  | stores ea bs _ _ _ ht he => cases he.symm.trans h; simp [ht, pcPlus4]
  | warns ea n _ _ ht he => cases he.symm.trans h; simp [ht]

theorem step_of_halted {s : State} (h : halted s = true) : step s = .next s := by
  simp [step, h]

theorem step_of_fetch_none {s : State} (hh : halted s = false) (hf : fetch s = none) :
    step s = .next (warnStep s .fetch) := by
  simp [step, hh, hf]

theorem step_of_decode_unknown {s : State} {w u : Word} (hh : halted s = false) (hf : fetch s = some w)
    (hd : decode w = .unknown u) : step s = .next (warnStep s (.decode u)) := by
  simp [step, hh, hf, hd]

theorem step_of_decode_instr {s : State} {w : Word} {i : Instr} (hh : halted s = false) (hf : fetch s = some w)
    (hd : decode w = .instr i) : step s = exec i s := by
  simp [step, hh, hf, hd]

/-- Where a running step goes: on by 4, or to the target of the instruction it fetched. -/
theorem step_pc {s t : State} (hh : halted s = false) (h : step s = .next t) :
    t.pc = s.pc + 4 ∨ ∃ w i, fetch s = some w ∧ decode w = .instr i ∧ takenTarget i s = some t.pc := by
  obtain ⟨hh', -⟩ | ⟨-, -, hs⟩ | ⟨_, _, -, -, -, hs⟩ | ⟨w, i, -, hf, hd, hs⟩ := step_cases s
  · simp [hh] at hh'
  · cases hs.symm.trans h; exact .inl rfl
  · cases hs.symm.trans h; exact .inl rfl
  · have hpc := exec_pc (hs.symm.trans h)
    cases ht : takenTarget i s with
    | none => left; simpa [ht] using hpc
    | some p => right; exact ⟨w, i, hf, hd, by simp [ht, hpc]⟩

/-- Only its destination register reads otherwise after an instruction, and `x0` never does. -/
theorem exec_readReg {i : Instr} {s t : State} (h : exec i s = .next t) (r : RegIdx)
    (hr : destinationOf i ≠ some r ∨ r = 0#5) : readReg t r = readReg s r := by
  have not_written (rd : RegIdx) (hd : destinationOf i = some rd) : ¬(r = rd ∧ rd ≠ 0#5) := by
    rintro ⟨rfl, h0⟩
    exact hr.elim (· hd) h0
  cases exec_shape i s with
  | writes rd v hd _ _ he =>
    cases he.symm.trans h; rw [readReg_writeAndAdvance, if_neg (not_written rd hd)]
  | moves p _ _ _ he => cases he.symm.trans h; rfl
  | links rd p hd _ _ he =>
    cases he.symm.trans h; rw [readReg_linkAndJump, if_neg (not_written rd hd)]
  | stores ea bs _ _ _ _ he => cases he.symm.trans h; rfl
  | warns ea n _ _ _ he => cases he.symm.trans h; rfl

end Sys2Proof.Machine
end

section
/-! SUPPORT. Every control target of a decoded instruction is even at an even `pc` (30_encoding.md R56, 46_jumps.md
R173). -/

namespace Sys2Proof

variable {w : Word} {i : Instr}

theorem wellFormed_of_decodeOp (h : decodeOp w = some i) : i.wellFormed = true := by
  unfold decodeOp at h
  repeat' split at h
  all_goals cases h
  all_goals rfl

theorem wellFormed_of_decodeOpImm (h : decodeOpImm w = some i) : i.wellFormed = true := by
  unfold decodeOpImm at h
  repeat' split at h
  all_goals cases h
  all_goals rfl

theorem wellFormed_of_decodeLoad (h : decodeLoad w = some i) : i.wellFormed = true := by
  unfold decodeLoad at h
  split at h
  all_goals cases h
  all_goals rfl

theorem wellFormed_of_decodeStore (h : decodeStore w = some i) : i.wellFormed = true := by
  unfold decodeStore at h
  split at h
  all_goals cases h
  all_goals rfl

theorem wellFormed_of_decodeBranch (h : decodeBranch w = some i) : i.wellFormed = true := by
  have he : branchOffsetOk (immB w) = true := by rw [branchOffsetOk, immB_even]; rfl
  unfold decodeBranch at h
  split at h
  all_goals cases h
  all_goals exact he

theorem wellFormed_of_decodeJalr (h : decodeJalr w = some i) : i.wellFormed = true := by
  unfold decodeJalr at h
  split at h
  all_goals cases h
  rfl

/-- The decoder answers well-formed instructions only: the offset fields end in an implicit 0 (R56). -/
theorem wellFormed_of_decode (h : decode w = .instr i) : i.wellFormed = true := by
  have hi : decodeInstr w = some i := by
    unfold decode at h
    split at h
    all_goals cases h
    assumption
  unfold decodeInstr at hi
  split at hi
  · exact wellFormed_of_decodeOp hi
  · exact wellFormed_of_decodeOpImm hi
  · exact wellFormed_of_decodeLoad hi
  · exact wellFormed_of_decodeStore hi
  · exact wellFormed_of_decodeBranch hi
  · cases hi; rw [Instr.wellFormed, jalOffsetOk, immJ_even]; rfl
  · exact wellFormed_of_decodeJalr hi
  · cases hi; rfl
  · cases hi; rfl
  · cases hi

end Sys2Proof

namespace Sys2Proof.Machine

/-- The sum of even words is even. -/
theorem add_even {a b : Word} (ha : a.getLsbD 0 = false) (hb : b.getLsbD 0 = false) : (a + b).getLsbD 0 = false := by
  rw [BitVec.getLsbD_add (by decide), ha, hb, BitVec.carry_zero]; rfl

/-- An even offset of at least one bit is even after sign extension. -/
theorem signExtend_even {n : Nat} {x : BitVec (n + 1)} (hx : x.getLsbD 0 = false) :
    (x.signExtend 32).getLsbD 0 = false := by
  rw [BitVec.getLsbD_signExtend, if_pos n.succ_pos, hx]; rfl

theorem takenTarget_even {i : Instr} {s : State} {p : Word} (hi : i.wellFormed = true) (hpc : s.pc.getLsbD 0 = false)
    (h : takenTarget i s = some p) : p.getLsbD 0 = false := by
  cases i with
  | beq rs1 rs2 imm13 | bne rs1 rs2 imm13 | blt rs1 rs2 imm13 | bge rs1 rs2 imm13 | bltu rs1 rs2 imm13
  | bgeu rs1 rs2 imm13 =>
    have himm : imm13.getLsbD 0 = false := by simpa [Instr.wellFormed, branchOffsetOk] using hi
    simp only [takenTarget] at h
    split at h
    all_goals cases h
    exact add_even hpc (signExtend_even himm)
  | jal rd imm21 =>
    have himm : imm21.getLsbD 0 = false := by simpa [Instr.wellFormed, jalOffsetOk] using hi
    cases h
    exact add_even hpc (signExtend_even himm)
  | jalr rd rs1 imm12 => cases h; simp
  | _ => cases h

end Sys2Proof.Machine
end

section
/-! PROOFS. The invariant of the machine: O45, O46. -/

namespace Sys2Proof.Machine

theorem WarningsInOrder.of_stepFrame {s t : State} (h : WarningsInOrder s) (hf : StepFrame s t)
    (hc : t.cycles.toNat = s.cycles.toNat + 1) : WarningsInOrder t := by
  obtain ⟨hrise, hbelow⟩ := h
  have hbelow' : ∀ e ∈ s.warnings, e.cycle.toNat < t.cycles.toNat := fun e he => by have := hbelow e he; omega
  obtain hw | ⟨w, hw⟩ := hf.warnings
  · rw [WarningsInOrder, hw]
    exact ⟨hrise, hbelow'⟩
  · rw [WarningsInOrder, hw]
    constructor
    · simpa [List.pairwise_append, hrise] using hbelow
    · intro e he
      obtain he | rfl : e ∈ s.warnings ∨ e = ⟨s.cycles, s.pc, w⟩ := by simpa using he
      · exact hbelow' e he
      · show s.cycles.toNat < _
        omega

/-- The memory image stays canonical and inside memory. -/
theorem StepFrame.mem_legal {s t : State} (h : StepFrame s t) (hwf : Memory.wf s.mem = true)
    (hin : Memory.within s.memSize s.mem = true) :
    Memory.wf t.mem = true ∧ Memory.within t.memSize t.mem = true := by
  obtain hm | ⟨a, bs, ha, hm⟩ := h.mem
  · rw [hm, h.memSize]; exact ⟨hwf, hin⟩
  · rw [hm, h.memSize]; exact ⟨Memory.wf_writeList hwf a bs, Memory.within_writeList hin a bs ha⟩

theorem step_pc_even {s t : State} (hh : halted s = false) (h : step s = .next t) (hpc : s.pc.getLsbD 0 = false) :
    t.pc.getLsbD 0 = false := by
  obtain h4 | ⟨w, i, -, hd, ht⟩ := step_pc hh h
  · rw [h4]; exact add_even hpc (by decide)
  · exact takenTarget_even (wellFormed_of_decode hd) hpc ht

/-- Settles O45: each part of `LegalState` from the frame of a running step; a halted step is the identity. -/
theorem stepKeepsLegalState : Obligations.StepKeepsLegalState := by
  intro s t hs h
  obtain ⟨-, rfl⟩ | ⟨hh, hf⟩ := step_stepFrame h
  · exact hs
  · have hc := hf.cycles_toNat hh
    obtain ⟨hwf, hin⟩ := hf.mem_legal hs.canonical hs.within
    exact {
      size := hf.memSize ▸ hs.size
      zeroReg := hf.slotZero.trans hs.zeroReg
      canonical := hwf
      within := hin
      ceiling := by have := halted_eq_false.mp hh; omega
      evenPc := step_pc_even hh h hs.evenPc
      order := hs.order.of_stepFrame hf hc }

theorem construct_legalState {n : Nat} (hn : Config.memSizeOk n = true) : LegalState (State.construct n) where
  size := hn
  zeroReg := by simp
  canonical := Memory.wf_construct n
  within := rfl
  ceiling := by simp
  evenPc := by simp
  order := ⟨.nil, nofun⟩

/-- Settles O46: both states are constructed ones of an allowed size. -/
theorem resetIsLegal : Obligations.ResetIsLegal :=
  ⟨construct_legalState (by decide), fun _ => construct_legalState⟩

end Sys2Proof.Machine
end

section
/-! SUPPORT. Invariants of command sequences: what `reset`, `load_program` and every step keep, every sequence keeps
(70_reset_and_hazards.md R193 to R196, 40_core_cycle.md R130, R133). -/

namespace Sys2Proof.Machine

theorem runSteps_invariant {P : State → Prop} (hstep : ∀ s t, P s → step s = .next t → P t) {fuel : Nat}
    {s t : State} (hs : P s) (h : runSteps fuel s = .next t) : P t := by
  induction fuel generalizing s with
  | zero => cases h; exact hs
  | succ fuel ih =>
    unfold runSteps at h
    split at h
    · cases h; exact hs
    · split at h
      next u hu => exact ih (hstep s u hs hu) h
      · cases h
      · cases h

theorem loadProgram_next {words : List Word} {s t : State} (h : loadProgram words s = .next t) :
    4 * words.length ≤ s.memSize ∧
      t = { State.construct s.memSize with mem := Memory.writeList s.mem 0 (programBytes words) } := by
  unfold loadProgram at h
  split at h
  next hle => cases h; exact ⟨hle, rfl⟩
  · cases h

/-- A command answers the state after it, or is refused and leaves the state as it was. -/
theorem afterCommand_cases (c : Command) (s : State) :
    command c s = .next (afterCommand c s) ∨ afterCommand c s = s := by
  unfold afterCommand
  split
  next h => exact .inl h
  · exact .inr rfl
  · exact .inr rfl

/-- What a property must satisfy to hold after every sequence of commands: each command that goes on keeps it. -/
structure CommandInvariant (P : State → Prop) : Prop where
  step : ∀ s t, P s → step s = .next t → P t
  reset : ∀ s, P s → P (resetCore s)
  load : ∀ words s t, P s → loadProgram words s = .next t → P t

theorem CommandInvariant.afterCommand {P : State → Prop} (hP : CommandInvariant P) {s : State} (hs : P s)
    (c : Command) : P (afterCommand c s) := by
  obtain h | h := afterCommand_cases c s
  · cases c with
    | loadProgram words => exact hP.load words s _ hs h
    | step => exact hP.step s _ hs h
    | run => exact runSteps_invariant hP.step hs h
    | reset => cases h; exact hP.reset s hs
  · rw [h]; exact hs

theorem CommandInvariant.afterCommands {P : State → Prop} (hP : CommandInvariant P) {s : State} (hs : P s)
    (cs : List Command) : P (afterCommands cs s) := by
  induction cs generalizing s with
  | nil => exact hs
  | cons c cs ih => exact ih (hP.afterCommand hs c)

end Sys2Proof.Machine
end

section
/-! PROOFS. Registers over all instructions and commands: O33, O34. -/

namespace Sys2Proof.Machine

theorem slotZero_invariant : CommandInvariant (fun s => s.regs[0] = 0#32) where
  step s t hs h := by
    obtain ⟨-, rfl⟩ | ⟨-, hf⟩ := step_stepFrame h
    · exact hs
    · exact hf.slotZero.trans hs
  reset s _ := by simp [resetCore]
  load words s t _ h := by
    obtain ⟨-, rfl⟩ := loadProgram_next h
    simp

/-- Settles O33: `readReg` answers 0, the instruction's writes miss every other register, and the stored slot that the
host reads is 0 at construction and kept by every command. -/
theorem registerZero : Obligations.RegisterZero := by
  refine ⟨readReg_zero, fun i s t hd h r => exec_readReg h r ?_, fun n cs => ?_⟩
  · by_cases hr : r = 0#5
    · exact .inr hr
    · exact .inl fun hd' => hr (Option.some.inj (hd'.symm.trans hd))
  · have h0 := slotZero_invariant.afterCommands (s := State.construct n) (by simp) cs
    simp [readOut, h0]

/-- Settles O34: from the register rule and the frame of an instruction. -/
theorem onlyDestinationChanges : Obligations.OnlyDestinationChanges := fun _ _ _ h =>
  have hf := exec_stepFrame h
  ⟨fun r hr => exec_readReg h r (.inl hr), hf.memSize, hf.warnings_grow⟩

end Sys2Proof.Machine
end

section
/-! SUPPORT. No instruction reads `cycles` or the warning record (10_state.md R28, R32). -/

namespace Sys2Proof.Machine

/-- `s` with other values of the two fields the host alone reads. -/
def State.withRecord (s : State) (c : BitVec 32) (ws : List WarningEntry) : State :=
  { s with cycles := c, warnings := ws }

theorem writeReg_withRecord (s : State) (c : BitVec 32) (ws : List WarningEntry) (rd : RegIdx) (v : Word) :
    writeReg (s.withRecord c ws) rd v = (writeReg s rd v).withRecord c ws := by
  unfold writeReg; split <;> rfl

/-- From `s` with any `cycles` and record, the instruction gives one state `u` and at most one warning, whose entry is
the only place where the old `cycles` shows. -/
def ReadsNoRecord (i : Instr) (s : State) : Prop :=
  ∃ (u : State) (warned : Option Warning), ∀ c ws, exec i (s.withRecord c ws) =
    .next (u.withRecord (c + 1) (ws ++ warned.toList.map (⟨c, s.pc, ·⟩)))

section
variable {i : Instr} {s : State}

/-- An instruction that counts the cycle at the end of work that keeps the record. -/
theorem ReadsNoRecord.of_finish (u : State) (p : Word)
    (h : ∀ c ws, exec i (s.withRecord c ws) = .next (finish (u.withRecord c ws) p)) : ReadsNoRecord i s := by
  refine ⟨{ u with pc := p }, none, fun c ws => ?_⟩
  rw [h]
  simp [finish, State.withRecord]

theorem ReadsNoRecord.of_warns (w : Warning)
    (h : ∀ c ws, exec i (s.withRecord c ws) = .next (warnStep (s.withRecord c ws) w)) : ReadsNoRecord i s :=
  ⟨{ s with pc := s.pc + 4 }, some w, h⟩

theorem ReadsNoRecord.of_moves {p : State → Word} (h : ∀ u, exec i u = .next (finish u (p u)))
    (hp : ∀ c ws, p (s.withRecord c ws) = p s) : ReadsNoRecord i s :=
  .of_finish s (p s) fun c ws => by rw [h, hp]

theorem ReadsNoRecord.of_writes {rd : RegIdx} {v p : State → Word}
    (h : ∀ u, exec i u = .next (finish (writeReg u rd (v u)) (p u))) (hv : ∀ c ws, v (s.withRecord c ws) = v s)
    (hp : ∀ c ws, p (s.withRecord c ws) = p s) : ReadsNoRecord i s :=
  .of_finish (writeReg s rd (v s)) (p s) fun c ws => by rw [h, hv, hp, writeReg_withRecord]

theorem ReadsNoRecord.of_load {n : Nat} {value : State → Word → Word} {rd rs1 : RegIdx} {imm12 : BitVec 12}
    (h : ∀ u, exec i u = loadWith u n value rd rs1 imm12)
    (hv : ∀ c ws ea, value (s.withRecord c ws) ea = value s ea) : ReadsNoRecord i s := by
  cases hr : inRange s (effAddr s rs1 imm12) n with
  | true =>
    refine .of_finish (writeReg s rd (value s (effAddr s rs1 imm12))) (s.pc + 4) fun c ws => ?_
    rw [h, loadWith_of_inRange (s := s.withRecord c ws) (inRange_iff.mp hr), hv, ← writeReg_withRecord]
    rfl
  | false =>
    exact .of_warns (.access (effAddr s rs1 imm12)) fun c ws =>
      (h _).trans (loadWith_of_outOfRange (s := s.withRecord c ws) (inRange_eq_false.mp hr) value)

theorem ReadsNoRecord.of_store {write : State → Word → Word → State} {rs1 rs2 : RegIdx} {imm12 : BitVec 12}
    (bs : List Byte) (h : ∀ u, exec i u = storeWith u bs.length write rs1 rs2 imm12)
    (hw : ∀ u ea, write u ea (readReg s rs2) = writeBytes u ea.toNat bs) : ReadsNoRecord i s := by
  cases hr : inRange s (effAddr s rs1 imm12) bs.length with
  | true =>
    refine .of_finish (writeBytes s (effAddr s rs1 imm12).toNat bs) (s.pc + 4) fun c ws => ?_
    rw [h, storeWith_of_inRange (s := s.withRecord c ws) (inRange_iff.mp hr)]
    exact congrArg (fun u => Host.Outcome.next (finish u (s.pc + 4))) (hw (s.withRecord c ws) (effAddr s rs1 imm12))
  | false =>
    exact .of_warns (.access (effAddr s rs1 imm12)) fun c ws =>
      (h _).trans (storeWith_of_outOfRange (s := s.withRecord c ws) (inRange_eq_false.mp hr) write)

end

theorem exec_readsNoRecord (i : Instr) (s : State) : ReadsNoRecord i s := by
  cases i with
  | add rd rs1 rs2 | sub rd rs1 rs2 | sll rd rs1 rs2 | slt rd rs1 rs2 | sltu rd rs1 rs2 | xor rd rs1 rs2
  | srl rd rs1 rs2 | sra rd rs1 rs2 | or rd rs1 rs2 | and rd rs1 rs2
  | addi rd rs1 imm12 | slti rd rs1 imm12 | sltiu rd rs1 imm12 | xori rd rs1 imm12 | ori rd rs1 imm12
  | andi rd rs1 imm12 | slli rd rs1 shamt | srli rd rs1 shamt | srai rd rs1 shamt
  | jal rd imm21 | jalr rd rs1 imm12 | lui rd imm20 | auipc rd imm20 =>
    exact .of_writes (fun _ => rfl) (fun _ _ => rfl) fun _ _ => rfl
  | lb rd rs1 imm12 => exact .of_load (exec_lb · ..) fun _ _ _ => rfl
  | lh rd rs1 imm12 => exact .of_load (exec_lh · ..) fun _ _ _ => rfl
  | lw rd rs1 imm12 => exact .of_load (exec_lw · ..) fun _ _ _ => rfl
  | lbu rd rs1 imm12 => exact .of_load (exec_lbu · ..) fun _ _ _ => rfl
  | lhu rd rs1 imm12 => exact .of_load (exec_lhu · ..) fun _ _ _ => rfl
  | sb rs1 rs2 imm12 => exact .of_store [wordByte (readReg s rs2) 0] (exec_sb · ..) fun _ _ => rfl
  | sh rs1 rs2 imm12 =>
    exact .of_store [wordByte (readReg s rs2) 0, wordByte (readReg s rs2) 1] (exec_sh · ..) fun _ _ => rfl
  | sw rs1 rs2 imm12 => exact .of_store (bytesOfWord (readReg s rs2)) (exec_sw · ..) fun _ _ => rfl
  | beq rs1 rs2 imm13 | bne rs1 rs2 imm13 | blt rs1 rs2 imm13 | bge rs1 rs2 imm13 | bltu rs1 rs2 imm13
  | bgeu rs1 rs2 imm13 => exact .of_moves (fun _ => rfl) fun _ _ => rfl

end Sys2Proof.Machine
end

section
/-! PROOFS. The cycle counter and the warning record: O43, O44. -/

namespace Sys2Proof.Machine

theorem exec_with_cycles {i : Instr} {s t : State} (c : BitVec 32) (h : exec i s = .next t) :
    ∃ t', exec i { s with cycles := c } = .next t' ∧ t'.regs = t.regs ∧ t'.pc = t.pc ∧ t'.mem = t.mem ∧
      t'.cycles = c + 1 := by
  obtain ⟨u, warned, hu⟩ := exec_readsNoRecord i s
  cases (hu s.cycles s.warnings).symm.trans h
  exact ⟨_, hu c s.warnings, rfl, rfl, rfl, rfl⟩

theorem exec_with_warnings {i : Instr} {s t : State} (ws : List WarningEntry) (h : exec i s = .next t) :
    ∃ new, t.warnings = s.warnings ++ new ∧
      exec i { s with warnings := ws } = .next { t with warnings := ws ++ new } := by
  obtain ⟨u, warned, hu⟩ := exec_readsNoRecord i s
  cases (hu s.cycles s.warnings).symm.trans h
  exact ⟨_, rfl, hu s.cycles ws⟩

/-- Settles O44: the three checks of a step do not look at the record, a warning step appends to it, and no instruction
reads it. -/
theorem warningsAreNeverRead : Obligations.WarningsAreNeverRead := by
  intro s t ws h
  obtain ⟨hh, hs⟩ | ⟨hh, hf, hs⟩ | ⟨w, u, hh, hf, hd, hs⟩ | ⟨w, i, hh, hf, hd, hs⟩ := step_cases s
  · cases hs.symm.trans h
    exact ⟨[], by simp, by rw [List.append_nil]; exact step_of_halted hh⟩
  · cases hs.symm.trans h
    exact ⟨_, rfl, step_of_fetch_none hh hf⟩
  · cases hs.symm.trans h
    exact ⟨_, rfl, step_of_decode_unknown hh hf hd⟩
  · obtain ⟨new, hnew, he⟩ := exec_with_warnings ws (hs.symm.trans h)
    exact ⟨new, hnew, (step_of_decode_instr (s := { s with warnings := ws }) hh hf hd).trans he⟩

theorem step_cycles_mono {s t : State} (h : step s = .next t) : s.cycles.toNat ≤ t.cycles.toNat := by
  obtain ⟨-, rfl⟩ | ⟨hh, hf⟩ := step_stepFrame h
  · exact le_rfl
  · have := hf.cycles_toNat hh; omega

theorem ceiling_invariant : CommandInvariant (fun s => s.cycles.toNat ≤ Config.cycleCeiling) where
  step s t hs h := by
    obtain ⟨-, rfl⟩ | ⟨hh, hf⟩ := step_stepFrame h
    · exact hs
    · have := hf.cycles_toNat hh
      have := halted_eq_false.mp hh
      omega
  reset s _ := by simp [resetCore]
  load words s t _ h := by
    obtain ⟨-, rfl⟩ := loadProgram_next h
    simp

/-- A command after which `cycles` is lower is `reset` or `load_program`, and leaves 0. -/
theorem afterCommand_cycles_lower {s : State} {c : Command} (hlt : (afterCommand c s).cycles.toNat < s.cycles.toNat) :
    (afterCommand c s).cycles = 0 ∧ (c = .reset ∨ ∃ words, c = .loadProgram words) := by
  obtain h | h := afterCommand_cases c s
  · cases c with
    | loadProgram words => exact ⟨by rw [(loadProgram_next h).2]; rfl, .inr ⟨words, rfl⟩⟩
    | step => exact absurd hlt (step_cycles_mono h).not_gt
    | run =>
      have hrun := runSteps_invariant (P := fun t => s.cycles.toNat ≤ t.cycles.toNat)
        (fun _ _ hs ht => hs.trans (step_cycles_mono ht)) le_rfl h
      exact absurd hlt hrun.not_gt
    | reset => exact ⟨rfl, .inl rfl⟩
  · rw [h] at hlt
    exact absurd hlt (lt_irrefl _)

/-- Settles O43: the count of a running step from its frame, the rest from the lemmas above. -/
theorem cycleCounter : Obligations.CycleCounter := by
  refine ⟨fun s t hlt h => ?_, fun _ _ => afterCommand_cycles_lower,
    fun n => ceiling_invariant.afterCommands (by simp), fun _ _ _ c => exec_with_cycles c, fun _ => rfl⟩
  have hh := halted_eq_false.mpr hlt
  obtain ⟨hh', -⟩ | ⟨-, hf⟩ := step_stepFrame h
  · simp [hh] at hh'
  · exact hf.cycles_toNat hh

end Sys2Proof.Machine
end

section
/-! PROOFS. The memory image as its bytes: O25. -/

namespace Sys2Proof.Machine

theorem Memory.wf_cons {a : Nat} {v : Byte} {m : Memory} :
    Memory.wf ((a, v) :: m) = true ↔ v ≠ 0#8 ∧ Memory.above a m = true ∧ Memory.wf m = true := by
  simp [Memory.wf, and_assoc]

/-- The first listed address is not above one that reads other than 0. -/
theorem Memory.head_le_of_read_ne_zero {a b : Nat} {w : Byte} {m : Memory} (h : Memory.above b m = true)
    (hr : Memory.read ((b, w) :: m) a ≠ 0#8) : b ≤ a := by
  by_contra hlt
  apply hr
  rw [Memory.read_cons, if_neg (by simp; omega), Memory.read_of_above h (by omega)]

/-- Settles O25, by induction on both lists: the first cells are the lowest addresses that do not read 0. -/
theorem memoryIsItsBytes : Obligations.MemoryIsItsBytes := by
  intro m
  induction m with
  | nil =>
    rintro (_ | ⟨⟨b, w⟩, m'⟩) - hm' h
    · rfl
    · exact absurd (by simpa using (h b).symm) (Memory.wf_cons.mp hm').1
  | cons d m ih =>
    obtain ⟨a, v⟩ := d
    rintro (_ | ⟨⟨b, w⟩, m'⟩) hm hm' h
    · exact absurd (by simpa using h a) (Memory.wf_cons.mp hm).1
    · obtain ⟨hv, ha, hwf⟩ := Memory.wf_cons.mp hm
      obtain ⟨hw, hb, hwf'⟩ := Memory.wf_cons.mp hm'
      obtain rfl : a = b := le_antisymm
        (Memory.head_le_of_read_ne_zero (w := v) ha (by rw [h b]; simpa using hw))
        (Memory.head_le_of_read_ne_zero (w := w) hb (by rw [← h a]; simpa using hv))
      obtain rfl : v = w := by simpa using h a
      rw [ih m' hwf hwf' fun x => ?_]
      by_cases hx : x ≤ a
      · rw [Memory.read_of_above ha hx, Memory.read_of_above hb hx]
      · have hne : x ≠ a := by omega
        simpa [hne] using h x

end Sys2Proof.Machine
end

section
/-! PROOFS. The names of the registers: O60. -/

namespace Sys2Proof.Machine

theorem indexOf_abiName : ∀ r : RegIdx, indexOf (abiName r) = some r := by decide

theorem indexOf_xName : ∀ r : RegIdx, indexOf (xName r) = some r := by decide

theorem indexOf_eq_some {r : RegIdx} {name : Text} :
    indexOf name = some r ↔ name = abiName r ∨ name = xName r := by
  constructor
  · intro h
    have := List.find?_some h
    simp only [Bool.or_eq_true, beq_iff_eq] at this
    exact this.symm
  · rintro (rfl | rfl)
    · exact indexOf_abiName r
    · exact indexOf_xName r

/-- Settles O60: the table by computation, the lookups from `indexOf_eq_some`. -/
theorem registerNames : Obligations.RegisterNames := by
  refine ⟨by decide, by decide, by decide, fun r => ⟨indexOf_abiName r, indexOf_xName r⟩,
    fun _ _ => indexOf_eq_some, fun _ _ => indexOf_eq_some, fun t t' h => ?_, by decide, by decide, by decide⟩
  rw [readRegister, readRegister, h]

end Sys2Proof.Machine
end

section
/-! SUPPORT. What an access out of range does, and a word of memory as its four bytes (20_memory.md R38 to R46). -/

namespace Sys2Proof.Machine

/-- The spec's decision D11 (R45, R46): an access out of range is a warning step, whichever instruction makes it. -/
theorem exec_of_access_outOfRange {i : Instr} {s : State} {ea : Word} {n : Nat} (ha : accessOf i s = some (ea, n))
    (hr : s.memSize < ea.toNat + n) : exec i s = .next (warnStep s (.access ea)) := by
  have hr := inRange_eq_false.mpr hr
  cases exec_shape i s with
  | writes _ _ _ _ hin _ => simp [hin ea n ha] at hr
  | moves _ _ hno _ _ => simp [hno] at ha
  | links _ _ _ hno _ _ => simp [hno] at ha
  | stores _ _ _ ha' hin _ _ => cases ha.symm.trans ha'; simp [hin] at hr
  | warns _ _ ha' _ _ he => cases ha.symm.trans ha'; exact he

theorem exec_onlyWarns_of_access_outOfRange {i : Instr} {s : State} {ea : Word} {n : Nat}
    (ha : accessOf i s = some (ea, n)) (hr : s.memSize < ea.toNat + n) :
    ∃ t, exec i s = .next t ∧ OnlyWarns s t (.access ea) :=
  ⟨_, exec_of_access_outOfRange ha hr, warnStep_onlyWarns s _⟩

/-- The word of four bytes as the number they stand for, the first the least significant (R40). -/
theorem wordOfBytes_eq_ofNat (b0 b1 b2 b3 : Byte) :
    wordOfBytes b0 b1 b2 b3 =
      BitVec.ofNat 32 (b0.toNat + 2 ^ 8 * b1.toNat + 2 ^ 16 * b2.toNat + 2 ^ 24 * b3.toNat) := by
  rw [← wordOfBytes_toNat, BitVec.ofNat_toNat, BitVec.setWidth_eq]

theorem wordByte_toNat (w : Word) (k : Nat) : (wordByte w k).toNat = w.toNat / 2 ^ (8 * k) % 2 ^ 8 := by
  rw [wordByte, BitVec.extractLsb'_toNat, Nat.shiftRight_eq_div_pow]

/-- Two neighbouring bytes of a word, as the number they stand for. -/
theorem wordByte_toNat_pair (w : Word) (k : Nat) :
    (wordByte w k).toNat + 2 ^ 8 * (wordByte w (k + 1)).toNat = w.toNat / 2 ^ (8 * k) % 2 ^ 16 := by
  rw [wordByte_toNat, wordByte_toNat, Nat.mul_succ, Nat.pow_add, ← Nat.div_div_eq_div_mul]
  omega

@[simp] theorem bytesOfWord_length (w : Word) : (bytesOfWord w).length = 4 := rfl

theorem bytesOfWord_getElem? {k : Nat} (w : Word) (hk : k < 4) : (bytesOfWord w)[k]? = some (wordByte w k) := by
  interval_cases k <;> rfl

theorem fetch_eq_memRead32 {s : State} (h : s.pc.toNat + 4 ≤ s.memSize) : fetch s = some (memRead32 s s.pc) :=
  if_pos (inRange_iff.mpr h)

/-- The four bytes from `a` are those of `w`, the least significant first (R39). -/
def HoldsWord (s : State) (a : Nat) (w : Word) : Prop := ∀ k < 4, readByte s (a + k) = wordByte w k

theorem HoldsWord.memRead32 {s : State} {a w : Word} (h : HoldsWord s a.toNat w) : memRead32 s a = w := by
  have h0 : readByte s a.toNat = wordByte w 0 := h 0 (by decide)
  rw [Machine.memRead32, h0, h 1 (by decide), h 2 (by decide), h 3 (by decide), wordOfBytes_wordByte]

theorem HoldsWord.fetch {s : State} {p w : Word} (h : HoldsWord s p.toNat w) (hr : p.toNat + 4 ≤ s.memSize) :
    fetch { s with pc := p } = some w := by
  have hw : Machine.memRead32 { s with pc := p } p = w := HoldsWord.memRead32 h
  rw [fetch_eq_memRead32 hr, hw]

/-- A word store in range leaves its word in memory, and the size as it was (R39, R164). -/
theorem exec_sw_holdsWord {s t : State} {rs1 rs2 : RegIdx} {imm12 : BitVec 12} (hm : Memory.wf s.mem = true)
    (hr : (effAddr s rs1 imm12).toNat + 4 ≤ s.memSize) (h : exec (.sw rs1 rs2 imm12) s = .next t) :
    HoldsWord t (effAddr s rs1 imm12).toNat (readReg s rs2) ∧ t.memSize = s.memSize := by
  rw [exec_sw, storeWith_of_inRange hr] at h
  cases h
  obtain ⟨-, hbyte, -, -, -, hsize⟩ :=
    writeBytes_storesBytes hm (effAddr s rs1 imm12).toNat (bytesOfWord (readReg s rs2))
  refine ⟨fun k hk => (hbyte _).trans ?_, hsize⟩
  simp [bytesOfWord_getElem? _ hk]

/-- Byte `j` of word `k` is byte `4 * k + j` of a program (R195). -/
theorem programBytes_getElem? {words : List Word} {k j : Nat} {w : Word} (hw : words[k]? = some w) (hj : j < 4) :
    (programBytes words)[4 * k + j]? = some (wordByte w j) := by
  induction words generalizing k with
  | nil => simp at hw
  | cons v words ih =>
    rw [programBytes, List.flatMap_cons, ← programBytes]
    cases k with
    | zero =>
      obtain rfl : v = w := by simpa using hw
      rw [Nat.mul_zero, Nat.zero_add, List.getElem?_append_left (by simpa using hj), bytesOfWord_getElem? _ hj]
    | succ k =>
      have hk : 4 * (k + 1) + j - 4 = 4 * k + j := by omega
      rw [List.getElem?_append_right (by rw [bytesOfWord_length]; omega), bytesOfWord_length, hk, ih hw]

/-- An accepted program's word `k` is in memory at `4 * k` (R40, R195). -/
theorem loadProgram_holdsWord {s t : State} {words : List Word} {k : Nat} {w : Word} (hm : Memory.wf s.mem = true)
    (h : loadProgram words s = .next t) (hw : words[k]? = some w) : HoldsWord t (4 * k) w := by
  obtain ⟨-, rfl⟩ := loadProgram_next h
  intro j hj
  simp [readByte, Memory.read_writeList hm, programBytes_getElem? hw hj]

end Sys2Proof.Machine
end

section
/-! SUPPORT. Two runs of an instruction from states that differ in memory only (20_memory.md R43, R44). -/

namespace Sys2Proof.Machine

theorem writeReg_with_mem (s : State) (m : Memory) (rd : RegIdx) (v : Word) :
    writeReg { s with mem := m } rd v = { writeReg s rd v with mem := m } := by
  unfold writeReg; split <;> rfl

/-- The image `m` has the bytes of the memory of `s` in `[a, a + n)`. -/
def AgreesOn (s : State) (m : Memory) (a n : Nat) : Prop := ∀ k < n, Memory.read m (a + k) = readByte s (a + k)

section
variable {s : State} {m : Memory} {ea : Word}

theorem memRead8_of_agreesOn (h : AgreesOn s m ea.toNat 1) : memRead8 { s with mem := m } ea = memRead8 s ea :=
  h 0 (by decide)

theorem memRead16_of_agreesOn (h : AgreesOn s m ea.toNat 2) : memRead16 { s with mem := m } ea = memRead16 s ea := by
  have byte0 : readByte { s with mem := m } ea.toNat = readByte s ea.toNat := h 0 (by decide)
  have byte1 : readByte { s with mem := m } (ea.toNat + 1) = readByte s (ea.toNat + 1) := h 1 (by decide)
  rw [memRead16, memRead16, byte0, byte1]

theorem memRead32_of_agreesOn (h : AgreesOn s m ea.toNat 4) : memRead32 { s with mem := m } ea = memRead32 s ea := by
  have byte0 : readByte { s with mem := m } ea.toNat = readByte s ea.toNat := h 0 (by decide)
  have byte (k : Nat) (hk : k < 4) : readByte { s with mem := m } (ea.toNat + k) = readByte s (ea.toNat + k) := h k hk
  rw [memRead32, memRead32, byte0, byte 1 (by decide), byte 2 (by decide), byte 3 (by decide)]

end

/-- With the image `m` in place of its own, the state `s` comes to the same next state but for memory. -/
def SameUpToMemory (i : Instr) (s : State) (m : Memory) : Prop :=
  ∃ t m', exec i s = .next t ∧ exec i { s with mem := m } = .next { t with mem := m' }

section
variable {i : Instr} {s : State} {m : Memory} {n : Nat} {rd rs1 rs2 : RegIdx} {imm12 : BitVec 12}

theorem SameUpToMemory.of_moves {p : Word} (hs : exec i s = .next (finish s p))
    (hm : exec i { s with mem := m } = .next (finish { s with mem := m } p)) : SameUpToMemory i s m :=
  ⟨_, m, hs, hm⟩

theorem SameUpToMemory.of_writes {v p : Word} (hs : exec i s = .next (finish (writeReg s rd v) p))
    (hm : exec i { s with mem := m } = .next (finish (writeReg { s with mem := m } rd v) p)) :
    SameUpToMemory i s m :=
  ⟨_, m, hs, by rw [hm, writeReg_with_mem]; rfl⟩

theorem SameUpToMemory.of_load {value : State → Word → Word} (h : ∀ u, exec i u = loadWith u n value rd rs1 imm12)
    (hv : value { s with mem := m } (effAddr s rs1 imm12) = value s (effAddr s rs1 imm12)) :
    SameUpToMemory i s m := by
  cases hr : inRange s (effAddr s rs1 imm12) n with
  | true =>
    have hr := inRange_iff.mp hr
    refine .of_writes ((h s).trans (loadWith_of_inRange hr value)) ?_
    rw [h, loadWith_of_inRange (s := { s with mem := m }) hr, ← hv]
    rfl
  | false =>
    have hr := inRange_eq_false.mp hr
    exact ⟨_, m, (h s).trans (loadWith_of_outOfRange hr value),
      (h _).trans (loadWith_of_outOfRange (s := { s with mem := m }) hr value)⟩

theorem SameUpToMemory.of_store {write : State → Word → Word → State}
    (h : ∀ u, exec i u = storeWith u n write rs1 rs2 imm12)
    (hw : ∀ ea v, ∃ m', write { s with mem := m } ea v = { write s ea v with mem := m' }) :
    SameUpToMemory i s m := by
  cases hr : inRange s (effAddr s rs1 imm12) n with
  | true =>
    have hr := inRange_iff.mp hr
    obtain ⟨m', hm'⟩ := hw (effAddr s rs1 imm12) (readReg s rs2)
    exact ⟨_, m', (h s).trans (storeWith_of_inRange hr write),
      ((h _).trans (storeWith_of_inRange (s := { s with mem := m }) hr write)).trans
        (congrArg (fun u => Host.Outcome.next (finish u (pcPlus4 s))) hm')⟩
  | false =>
    have hr := inRange_eq_false.mp hr
    exact ⟨_, m, (h s).trans (storeWith_of_outOfRange hr write),
      (h _).trans (storeWith_of_outOfRange (s := { s with mem := m }) hr write)⟩

end

/-- No instruction reads a byte outside its access. -/
theorem exec_sameUpToMemory {i : Instr} {s : State} {m : Memory}
    (h : ∀ ea n, accessOf i s = some (ea, n) → AgreesOn s m ea.toNat n) : SameUpToMemory i s m := by
  cases i with
  | add rd rs1 rs2 | sub rd rs1 rs2 | sll rd rs1 rs2 | slt rd rs1 rs2 | sltu rd rs1 rs2 | xor rd rs1 rs2
  | srl rd rs1 rs2 | sra rd rs1 rs2 | or rd rs1 rs2 | and rd rs1 rs2
  | addi rd rs1 imm12 | slti rd rs1 imm12 | sltiu rd rs1 imm12 | xori rd rs1 imm12 | ori rd rs1 imm12
  | andi rd rs1 imm12 | slli rd rs1 shamt | srli rd rs1 shamt | srai rd rs1 shamt
  | jal rd imm21 | jalr rd rs1 imm12 | lui rd imm20 | auipc rd imm20 => exact .of_writes rfl rfl
  | lb rd rs1 imm12 => exact .of_load (exec_lb · ..) (congrArg _ (memRead8_of_agreesOn (h _ _ rfl)))
  | lh rd rs1 imm12 => exact .of_load (exec_lh · ..) (congrArg _ (memRead16_of_agreesOn (h _ _ rfl)))
  | lw rd rs1 imm12 => exact .of_load (exec_lw · ..) (memRead32_of_agreesOn (h _ _ rfl))
  | lbu rd rs1 imm12 => exact .of_load (exec_lbu · ..) (congrArg _ (memRead8_of_agreesOn (h _ _ rfl)))
  | lhu rd rs1 imm12 => exact .of_load (exec_lhu · ..) (congrArg _ (memRead16_of_agreesOn (h _ _ rfl)))
  | sb rs1 rs2 imm12 => exact .of_store (exec_sb · ..) fun _ _ => ⟨_, rfl⟩
  | sh rs1 rs2 imm12 => exact .of_store (exec_sh · ..) fun _ _ => ⟨_, rfl⟩
  | sw rs1 rs2 imm12 => exact .of_store (exec_sw · ..) fun _ _ => ⟨_, rfl⟩
  | beq rs1 rs2 imm13 | bne rs1 rs2 imm13 | blt rs1 rs2 imm13 | bge rs1 rs2 imm13 | bltu rs1 rs2 imm13
  | bgeu rs1 rs2 imm13 => exact .of_moves rfl rfl

theorem accessOf_with_mem (i : Instr) (s : State) (m : Memory) : accessOf i { s with mem := m } = accessOf i s := by
  cases i <;> rfl

/-- Only a store changes memory: an instruction with an access and no destination. -/
theorem exec_mem_of_not_store {i : Instr} {s t : State} (hi : accessOf i s = none ∨ destinationOf i ≠ none)
    (h : exec i s = .next t) : t.mem = s.mem := by
  cases exec_shape i s with
  | writes rd v _ _ _ he => cases he.symm.trans h; simp
  | moves p _ _ _ he => cases he.symm.trans h; simp
  | links rd p _ _ _ he => cases he.symm.trans h; simp
  | stores ea bs hd ha _ _ _ => simp [hd, ha] at hi
  | warns ea n _ _ _ he => cases he.symm.trans h; simp

end Sys2Proof.Machine
end

section
/-! PROOFS. Memory: O15, O17, O19, O21, O22, O23, O24, O52. -/

namespace Sys2Proof.Machine

/-- Settles O15: sign extension and the sum are those of integers modulo 2^32. -/
theorem effectiveAddress : Obligations.EffectiveAddress := by
  intro s rs1 imm12
  rw [BitVec.ofInt_add, BitVec.ofInt_natCast, BitVec.ofNat_toNat, BitVec.setWidth_eq]
  rfl

/-- Settles O17: each load's access is out of range. -/
theorem loadsOutOfRange : Obligations.LoadsOutOfRange := by
  rintro s rd rs1 imm12 _ rfl
  exact ⟨exec_onlyWarns_of_access_outOfRange rfl, exec_onlyWarns_of_access_outOfRange rfl,
    exec_onlyWarns_of_access_outOfRange rfl, exec_onlyWarns_of_access_outOfRange rfl,
    exec_onlyWarns_of_access_outOfRange rfl⟩

/-- Settles O19: each store's access is out of range. -/
theorem storesOutOfRange : Obligations.StoresOutOfRange := by
  rintro s rs1 rs2 imm12 _ rfl
  exact ⟨exec_onlyWarns_of_access_outOfRange rfl, exec_onlyWarns_of_access_outOfRange rfl,
    exec_onlyWarns_of_access_outOfRange rfl⟩

/-- Settles O21: after the store memory holds the word, and each load reads bytes of it. -/
theorem storeThenLoad : Obligations.StoreThenLoad := by
  intro s t rs1 rs2 rd rb imm12 disp k hm hr h hrd hea
  obtain ⟨hw, hsize⟩ := exec_sw_holdsWord hm hr h
  have loaded (v : Word) : readReg (writeAndAdvance t rd v) rd = v := by
    rw [readReg_writeAndAdvance, if_pos ⟨rfl, hrd⟩]
  refine ⟨fun hk => ⟨_, (exec_lbu ..).trans (loadWith_of_inRange (by omega) _), ?_⟩,
    fun hk => ⟨_, (exec_lhu ..).trans (loadWith_of_inRange (by omega) _), ?_⟩,
    fun hk => ⟨_, (exec_lw ..).trans (loadWith_of_inRange (by omega) _), ?_⟩⟩
  · rw [loaded, BitVec.toNat_setWidth_of_le (by decide), memRead8, hea, hw k hk, wordByte_toNat]
  · rw [loaded, BitVec.toNat_setWidth_of_le (by decide), memRead16_toNat, hea, hw k (by omega), Nat.add_assoc,
      hw (k + 1) (by omega), wordByte_toNat_pair]
  · subst hk
    rw [loaded]
    exact HoldsWord.memRead32 (hea ▸ hw)

/-- Settles O22: after the store memory holds the word at the address fetched from. -/
theorem fetchSeesStore : Obligations.FetchSeesStore := by
  intro s t rs1 rs2 imm12 hm hr h
  obtain ⟨hw, hsize⟩ := exec_sw_holdsWord hm hr h
  exact hw.fetch (hsize ▸ hr)

/-- Settles O23: without an access any two images agree on it, and neither run changes its own. -/
theorem onlyLoadsAndStoresTouchMemory : Obligations.OnlyLoadsAndStoresTouchMemory := by
  constructor
  · intro i s t m ha h
    obtain ⟨t₀, m', ht, hm⟩ := exec_sameUpToMemory (i := i) (s := s) (m := m) (by simp [ha])
    cases ht.symm.trans h
    obtain rfl : m' = m := exec_mem_of_not_store (.inl ((accessOf_with_mem i s m).trans ha)) hm
    exact hm
  · intro i s t hd h
    exact exec_mem_of_not_store (.inr (Option.isSome_iff_ne_none.mp hd)) h

/-- Settles O24: the two next states are the same but for memory. -/
theorem accessReadsOnlyItsBytes : Obligations.AccessReadsOnlyItsBytes := by
  intro i s t t' m hagree h h'
  obtain ⟨t₀, m', ht, hm⟩ := exec_sameUpToMemory fun ea n ha k hk => hagree ea n k ha hk
  cases ht.symm.trans h
  cases hm.symm.trans h'
  exact ⟨rfl, rfl, rfl, rfl⟩

/-- Settles O52: a fetch reads the little-endian word, and a loaded program's words are in memory. -/
theorem littleEndianFetchAndLoad : Obligations.LittleEndianFetchAndLoad := by
  constructor
  · intro s hr
    rw [fetch_eq_memRead32 hr, memRead32, wordOfBytes_eq_ofNat]
  · intro s t words k w p hm h hw hp
    have hold : HoldsWord t (4 * k) w := loadProgram_holdsWord hm h hw
    obtain ⟨hfit, rfl⟩ := loadProgram_next h
    have hk : k < words.length := (List.getElem?_eq_some_iff.mp hw).1
    refine ⟨hold 0 (by decide), hold 1 (by decide), hold 2 (by decide), hold 3 (by decide), ?_⟩
    exact HoldsWord.fetch (hp ▸ hold) (by show p.toNat + 4 ≤ s.memSize; omega)

end Sys2Proof.Machine
end

section
/-! SUPPORT. The decoder in both directions: a word is its fields put back in place (30_encoding.md R55, R56), and a
row of the table that selects a word gives its decoding (R66, R67). -/

namespace Sys2Proof

/-! ## A word is its fields put back in place, cut at the bits of each format -/

section
variable {w : Word} {f7 : BitVec 7} {f3 : BitVec 3} {op : BitVec 7}

theorem encodeR_of_fields (h7 : funct7Field w = f7) (h3 : funct3Field w = f3) (ho : opcodeField w = op) :
    encodeR f7 f3 op (rdField w) (rs1Field w) (rs2Field w) = w := by
  subst h7 h3 ho
  ext i h
  simp only [encodeR, opcodeField, funct3Field, funct7Field, rdField, rs1Field, rs2Field, BitVec.getElem_cast,
    BitVec.getElem_append, BitVec.getElem_extractLsb']
  interval_cases i <;> rfl

theorem encodeI_of_fields (h3 : funct3Field w = f3) (ho : opcodeField w = op) :
    encodeI f3 op (rdField w) (rs1Field w) (immI w) = w := by
  subst h3 ho
  ext i h
  simp only [encodeI, opcodeField, funct3Field, rdField, rs1Field, immI, BitVec.getElem_cast,
    BitVec.getElem_append, BitVec.getElem_extractLsb']
  interval_cases i <;> rfl

theorem encodeS_of_fields (h3 : funct3Field w = f3) (ho : opcodeField w = op) :
    encodeS f3 op (rs1Field w) (rs2Field w) (immS w) = w := by
  subst h3 ho
  ext i h
  simp only [encodeS, opcodeField, funct3Field, rs1Field, rs2Field, immS, BitVec.getElem_cast, BitVec.getElem_append,
    BitVec.getElem_extractLsb', BitVec.getLsbD_cast, BitVec.getLsbD_append, BitVec.getLsbD_extractLsb']
  interval_cases i <;> rfl

theorem encodeB_of_fields (h3 : funct3Field w = f3) (ho : opcodeField w = op) :
    encodeB f3 op (rs1Field w) (rs2Field w) (immB w) = w := by
  subst h3 ho
  ext i h
  simp only [encodeB, opcodeField, funct3Field, rs1Field, rs2Field, immB, BitVec.getElem_cast, BitVec.getElem_append,
    BitVec.getElem_extractLsb', BitVec.getLsbD_cast, BitVec.getLsbD_append, BitVec.getLsbD_extractLsb']
  interval_cases i <;> rfl

theorem encodeU_of_fields (ho : opcodeField w = op) : encodeU op (rdField w) (immU w) = w := by
  subst ho
  ext i h
  simp only [encodeU, opcodeField, rdField, immU, BitVec.getElem_cast, BitVec.getElem_append,
    BitVec.getElem_extractLsb']
  interval_cases i <;> rfl

theorem encodeJ_of_fields (ho : opcodeField w = op) : encodeJ op (rdField w) (immJ w) = w := by
  subst ho
  ext i h
  simp only [encodeJ, opcodeField, rdField, immJ, BitVec.getElem_cast, BitVec.getElem_append,
    BitVec.getElem_extractLsb', BitVec.getLsbD_cast, BitVec.getLsbD_append, BitVec.getLsbD_extractLsb']
  interval_cases i <;> rfl

end

/-! ## The decoder's result is the instruction whose encoding the word is -/

variable {w : Word} {i : Instr}

theorem decode_eq_instr_iff : decode w = .instr i ↔ decodeInstr w = some i := by
  unfold decode
  cases decodeInstr w <;> simp

theorem decode_eq_unknown_iff : decode w = .unknown w ↔ decodeInstr w = none := by
  unfold decode
  cases decodeInstr w <;> simp

theorem encode_of_decodeOp (ho : opcodeField w = 0x33#7) (h : decodeOp w = some i) : encode i = w := by
  unfold decodeOp at h
  repeat' split at h
  all_goals cases h
  all_goals exact encodeR_of_fields ‹_› (BitVec.eq_of_toNat_eq ‹_›) ho

theorem encode_of_decodeOpImm (ho : opcodeField w = 0x13#7) (h : decodeOpImm w = some i) : encode i = w := by
  unfold decodeOpImm at h
  repeat' split at h
  all_goals cases h
  case h_2 | h_6.isTrue | h_6.isFalse => -- the shifts
    exact encodeR_of_fields ‹_› (BitVec.eq_of_toNat_eq ‹_›) ho
  all_goals exact encodeI_of_fields (BitVec.eq_of_toNat_eq ‹_›) ho

theorem encode_of_decodeLoad (ho : opcodeField w = 0x03#7) (h : decodeLoad w = some i) : encode i = w := by
  unfold decodeLoad at h
  split at h
  all_goals cases h
  all_goals exact encodeI_of_fields (BitVec.eq_of_toNat_eq ‹_›) ho

theorem encode_of_decodeStore (ho : opcodeField w = 0x23#7) (h : decodeStore w = some i) : encode i = w := by
  unfold decodeStore at h
  split at h
  all_goals cases h
  all_goals exact encodeS_of_fields (BitVec.eq_of_toNat_eq ‹_›) ho

theorem encode_of_decodeBranch (ho : opcodeField w = 0x63#7) (h : decodeBranch w = some i) : encode i = w := by
  unfold decodeBranch at h
  split at h
  all_goals cases h
  all_goals exact encodeB_of_fields (BitVec.eq_of_toNat_eq ‹_›) ho

theorem encode_of_decodeJalr (ho : opcodeField w = 0x67#7) (h : decodeJalr w = some i) : encode i = w := by
  unfold decodeJalr at h
  split at h
  all_goals cases h
  exact encodeI_of_fields ‹_› ho

theorem encode_of_decode (h : decode w = .instr i) : encode i = w := by
  rw [decode_eq_instr_iff] at h
  unfold decodeInstr at h
  split at h
  · exact encode_of_decodeOp (BitVec.eq_of_toNat_eq ‹_›) h
  · exact encode_of_decodeOpImm (BitVec.eq_of_toNat_eq ‹_›) h
  · exact encode_of_decodeLoad (BitVec.eq_of_toNat_eq ‹_›) h
  · exact encode_of_decodeStore (BitVec.eq_of_toNat_eq ‹_›) h
  · exact encode_of_decodeBranch (BitVec.eq_of_toNat_eq ‹_›) h
  · cases h; exact encodeJ_of_fields (BitVec.eq_of_toNat_eq ‹_›)
  · exact encode_of_decodeJalr (BitVec.eq_of_toNat_eq ‹_›) h
  · cases h; exact encodeU_of_fields (BitVec.eq_of_toNat_eq ‹_›)
  · cases h; exact encodeU_of_fields (BitVec.eq_of_toNat_eq ‹_›)
  · cases h

end Sys2Proof

namespace Sys2Proof.Machine

variable {w : Word} {r : OpcodeRow} {i : Instr}

/-! ## The operands of `fieldsOf` are the fields of the decoder -/

theorem fieldsOf_eq_buildInstr (m : Mnemonic) (w : Word) :
    fieldsOf m w = buildInstr m (rdField w) (rs1Field w) (rs2Field w) (immediateOf (operandForm m) w) := rfl

@[simp] theorem ofInt_immediateOf_i (w : Word) : BitVec.ofInt 12 (immediateOf .i w) = immI w := BitVec.ofInt_toInt

@[simp] theorem ofInt_immediateOf_load (w : Word) : BitVec.ofInt 12 (immediateOf .load w) = immI w :=
  BitVec.ofInt_toInt

@[simp] theorem ofInt_immediateOf_jalr (w : Word) : BitVec.ofInt 12 (immediateOf .jalr w) = immI w :=
  BitVec.ofInt_toInt

@[simp] theorem ofInt_immediateOf_shift (w : Word) : BitVec.ofInt 5 (immediateOf .shift w) = rs2Field w := by
  rw [immediateOf, BitVec.ofInt_natCast, BitVec.ofNat_toNat, BitVec.setWidth_eq, rs2Field]

@[simp] theorem ofInt_immediateOf_store (w : Word) : BitVec.ofInt 12 (immediateOf .store w) = immS w :=
  BitVec.ofInt_toInt

@[simp] theorem ofInt_immediateOf_branch (w : Word) : BitVec.ofInt 13 (immediateOf .branch w) = immB w :=
  BitVec.ofInt_toInt

@[simp] theorem ofInt_immediateOf_jal (w : Word) : BitVec.ofInt 21 (immediateOf .jal w) = immJ w :=
  BitVec.ofInt_toInt

@[simp] theorem ofInt_immediateOf_upper (w : Word) : BitVec.ofInt 20 (immediateOf .upper w) = immU w := by
  rw [immediateOf, BitVec.ofInt_natCast, BitVec.ofNat_toNat, BitVec.setWidth_eq, immU]

@[simp] theorem mnemonic_fieldsOf (m : Mnemonic) (w : Word) : (fieldsOf m w).mnemonic = m := by cases m <;> rfl

theorem immB_encodeB {f3 : BitVec 3} {op : BitVec 7} {rs1 rs2 : RegIdx} {imm13 : BitVec 13}
    (h : branchOffsetOk imm13 = true) : immB (encodeB f3 op rs1 rs2 imm13) = imm13 := by
  obtain ⟨-, -, -, -, himm⟩ := encodeB_fields f3 op rs1 rs2 imm13
  exact himm (by simpa [branchOffsetOk] using h)

theorem immJ_encodeJ {op : BitVec 7} {rd : RegIdx} {imm21 : BitVec 21} (h : jalOffsetOk imm21 = true) :
    immJ (encodeJ op rd imm21) = imm21 := by
  obtain ⟨-, -, himm⟩ := encodeJ_fields op rd imm21
  exact himm (by simpa [jalOffsetOk] using h)

/-- Each format stores every operand of a well-formed instruction in a field of its own. -/
theorem fieldsOf_encode (h : i.wellFormed = true) : fieldsOf i.mnemonic (encode i) = i := by
  rw [fieldsOf_eq_buildInstr]
  cases i with
  | add | sub | sll | slt | sltu | xor | srl | sra | or | and | slli | srli | srai =>
    simp [Instr.mnemonic, operandForm, buildInstr, encode, encodeR_fields]
  | addi | slti | sltiu | xori | ori | andi | lb | lh | lw | lbu | lhu | jalr =>
    simp [Instr.mnemonic, operandForm, buildInstr, encode, encodeI_fields]
  | sb | sh | sw => simp [Instr.mnemonic, operandForm, buildInstr, encode, encodeS_fields]
  | beq | bne | blt | bge | bltu | bgeu =>
    simp [Instr.mnemonic, operandForm, buildInstr, encode, encodeB_fields, immB_encodeB h]
  | jal => simp [Instr.mnemonic, operandForm, buildInstr, encode, encodeJ_fields, immJ_encodeJ h]
  | lui | auipc => simp [Instr.mnemonic, operandForm, buildInstr, encode, encodeU_fields]

/-! ## A row that selects a word decodes -/

theorem decodeInstr_isSome_of_rtypeRow (hr : r ∈ rtypeRows) (h : w &&& r.mask = r.pattern) :
    (decodeInstr w).isSome := by
  fin_cases hr
  all_goals
    obtain ⟨ho, h3, h7⟩ := (mask_opcode_funct3_funct7 w _ (by decide)).mp h
    rw [decodeInstr, ho, decodeOp, h3, h7]
    rfl

theorem decodeInstr_isSome_of_itypeRow (hr : r ∈ itypeRows) (h : w &&& r.mask = r.pattern) :
    (decodeInstr w).isSome := by
  obtain himm | hshift : r ∈ itypeRows.take 6 ∨ r ∈ itypeRows.drop 6 := by
    rwa [← List.mem_append, List.take_append_drop]
  · fin_cases himm
    all_goals
      obtain ⟨ho, h3⟩ := (mask_opcode_funct3 w _ (by decide)).mp h
      rw [decodeInstr, ho, decodeOpImm, h3]
      rfl
  · fin_cases hshift
    all_goals
      obtain ⟨ho, h3, h7⟩ := (mask_opcode_funct3_funct7 w _ (by decide)).mp h
      rw [decodeInstr, ho, decodeOpImm, h3, h7]
      rfl

theorem decodeInstr_isSome_of_loadRow (hr : r ∈ loadRows) (h : w &&& r.mask = r.pattern) :
    (decodeInstr w).isSome := by
  fin_cases hr
  all_goals
    obtain ⟨ho, h3⟩ := (mask_opcode_funct3 w _ (by decide)).mp h
    rw [decodeInstr, ho, decodeLoad, h3]
    rfl

theorem decodeInstr_isSome_of_storeRow (hr : r ∈ storeRows) (h : w &&& r.mask = r.pattern) :
    (decodeInstr w).isSome := by
  fin_cases hr
  all_goals
    obtain ⟨ho, h3⟩ := (mask_opcode_funct3 w _ (by decide)).mp h
    rw [decodeInstr, ho, decodeStore, h3]
    rfl

theorem decodeInstr_isSome_of_branchRow (hr : r ∈ branchRows) (h : w &&& r.mask = r.pattern) :
    (decodeInstr w).isSome := by
  fin_cases hr
  all_goals
    obtain ⟨ho, h3⟩ := (mask_opcode_funct3 w _ (by decide)).mp h
    rw [decodeInstr, ho, decodeBranch, h3]
    rfl

theorem decodeInstr_isSome_of_jumpOrUpperRow (hr : r ∈ jumpAndUpperRows) (h : w &&& r.mask = r.pattern) :
    (decodeInstr w).isSome := by
  simp only [jumpAndUpperRows, List.mem_cons, List.not_mem_nil, or_false] at hr
  obtain rfl | rfl | rfl | rfl := hr
  · rw [decodeInstr, (mask_opcode w _ (by decide)).mp h]; rfl
  · obtain ⟨ho, h3⟩ := (mask_opcode_funct3 w _ (by decide)).mp h
    rw [decodeInstr, ho, decodeJalr, h3]
    rfl
  · rw [decodeInstr, (mask_opcode w _ (by decide)).mp h]; rfl
  · rw [decodeInstr, (mask_opcode w _ (by decide)).mp h]; rfl

theorem decodeInstr_isSome_of_row (hr : r ∈ opcodeTable) (h : w &&& r.mask = r.pattern) :
    (decodeInstr w).isSome := by
  simp only [opcodeTable, List.mem_append, or_assoc] at hr
  obtain hr | hr | hr | hr | hr | hr := hr
  · exact decodeInstr_isSome_of_rtypeRow hr h
  · exact decodeInstr_isSome_of_itypeRow hr h
  · exact decodeInstr_isSome_of_loadRow hr h
  · exact decodeInstr_isSome_of_storeRow hr h
  · exact decodeInstr_isSome_of_branchRow hr h
  · exact decodeInstr_isSome_of_jumpOrUpperRow hr h

/-! ## The row of an instruction -/

theorem encodedRow : ∀ i : Instr, Laws.EncodedRow.Statement i
  | .add .. => Laws.EncodedRow.add ..
  | .sub .. => Laws.EncodedRow.sub ..
  | .sll .. => Laws.EncodedRow.sll ..
  | .slt .. => Laws.EncodedRow.slt ..
  | .sltu .. => Laws.EncodedRow.sltu ..
  | .xor .. => Laws.EncodedRow.xor ..
  | .srl .. => Laws.EncodedRow.srl ..
  | .sra .. => Laws.EncodedRow.sra ..
  | .or .. => Laws.EncodedRow.or ..
  | .and .. => Laws.EncodedRow.and ..
  | .addi .. => Laws.EncodedRow.addi ..
  | .slti .. => Laws.EncodedRow.slti ..
  | .sltiu .. => Laws.EncodedRow.sltiu ..
  | .xori .. => Laws.EncodedRow.xori ..
  | .ori .. => Laws.EncodedRow.ori ..
  | .andi .. => Laws.EncodedRow.andi ..
  | .slli .. => Laws.EncodedRow.slli ..
  | .srli .. => Laws.EncodedRow.srli ..
  | .srai .. => Laws.EncodedRow.srai ..
  | .lb .. => Laws.EncodedRow.lb ..
  | .lh .. => Laws.EncodedRow.lh ..
  | .lw .. => Laws.EncodedRow.lw ..
  | .lbu .. => Laws.EncodedRow.lbu ..
  | .lhu .. => Laws.EncodedRow.lhu ..
  | .sb .. => Laws.EncodedRow.sb ..
  | .sh .. => Laws.EncodedRow.sh ..
  | .sw .. => Laws.EncodedRow.sw ..
  | .beq .. => Laws.EncodedRow.beq ..
  | .bne .. => Laws.EncodedRow.bne ..
  | .blt .. => Laws.EncodedRow.blt ..
  | .bge .. => Laws.EncodedRow.bge ..
  | .bltu .. => Laws.EncodedRow.bltu ..
  | .bgeu .. => Laws.EncodedRow.bgeu ..
  | .jal .. => Laws.EncodedRow.jal ..
  | .jalr .. => Laws.EncodedRow.jalr ..
  | .lui .. => Laws.EncodedRow.lui ..
  | .auipc .. => Laws.EncodedRow.auipc ..

theorem exists_row_selects_encode (i : Instr) :
    ∃ r ∈ opcodeTable, r.mnemonic = i.mnemonic ∧ encode i &&& r.mask = r.pattern := by
  simpa [Laws.EncodedRow.Statement, OpcodeRow.selects] using encodedRow i

theorem exists_row_of_decode (h : decode w = .instr i) :
    ∃ r ∈ opcodeTable, r.mnemonic = i.mnemonic ∧ w &&& r.mask = r.pattern := by
  simpa only [encode_of_decode h] using exists_row_selects_encode i

/-- Two rows that agree on the bits both fix are one row. -/
theorem row_eq_of_patterns_agree : ∀ a ∈ opcodeTable, ∀ b ∈ opcodeTable,
    a.pattern &&& b.mask = b.pattern &&& a.mask → a = b := by decide

theorem row_eq_of_selects {a b : OpcodeRow} (ha : a ∈ opcodeTable) (hb : b ∈ opcodeTable)
    (hwa : w &&& a.mask = a.pattern) (hwb : w &&& b.mask = b.pattern) : a = b :=
  row_eq_of_patterns_agree a ha b hb (by rw [← hwa, ← hwb]; ac_rfl)

theorem mnemonics_nodup : (opcodeTable.map fun r => r.mnemonic).Nodup := by decide

/-- The decoding cannot be another instruction: its row would select the word too, and no two rows do. -/
theorem decode_of_row (hr : r ∈ opcodeTable) (h : w &&& r.mask = r.pattern) :
    decode w = .instr (fieldsOf r.mnemonic w) := by
  obtain ⟨i, hi⟩ := Option.isSome_iff_exists.mp (decodeInstr_isSome_of_row hr h)
  have hd : decode w = .instr i := decode_eq_instr_iff.mpr hi
  obtain ⟨r', hr', hm, h'⟩ := exists_row_of_decode hd
  obtain rfl := row_eq_of_selects hr hr' h h'
  have hfields : fieldsOf i.mnemonic w = i := by
    simpa only [encode_of_decode hd] using fieldsOf_encode (wellFormed_of_decode hd)
  rw [hd, hm, hfields]

/-- Every row of the table says exactly which words its instruction has (R66, R67). -/
theorem selectedBy_of_row (hr : r ∈ opcodeTable) : SelectedBy r.mask r.pattern r.mnemonic := by
  intro w
  refine ⟨decode_of_row hr, fun hd => ?_⟩
  obtain ⟨r', hr', hm, h'⟩ := exists_row_of_decode hd
  rw [mnemonic_fieldsOf] at hm
  exact List.inj_on_of_nodup_map mnemonics_nodup hr' hr hm ▸ h'

theorem decode_unknown_of_no_row (h : ∀ r ∈ opcodeTable, w &&& r.mask ≠ r.pattern) : decode w = .unknown w := by
  rw [decode_eq_unknown_iff, Option.eq_none_iff_forall_ne_some]
  intro i hi
  obtain ⟨r, hr, -, hs⟩ := exists_row_of_decode (decode_eq_instr_iff.mpr hi)
  exact h r hr hs

/-! ## Fields fixed by a row (R68) -/

theorem field_eq_of_selects {lo n : Nat} (h : w &&& r.mask = r.pattern)
    (hm : r.mask.extractLsb' lo n = BitVec.allOnes n) : w.extractLsb' lo n = r.pattern.extractLsb' lo n := by
  rw [← h, BitVec.extractLsb'_and, hm, BitVec.and_allOnes]

theorem row_fixes_low_bits :
    ∀ r ∈ opcodeTable, r.mask.extractLsb' 0 2 = BitVec.allOnes 2 ∧ r.pattern.extractLsb' 0 2 = 3#2 := by decide

theorem row_fixes_opcode : ∀ r ∈ opcodeTable, r.mask.extractLsb' 0 7 = BitVec.allOnes 7 ∧
    r.pattern.extractLsb' 0 7 ∈ [0x33#7, 0x13#7, 0x03#7, 0x23#7, 0x63#7, 0x6F#7, 0x67#7, 0x37#7, 0x17#7] := by decide

/-- Every row of the word's opcode fixes funct3, and excludes the word's funct3 and funct7: it fixes funct7 too, or
goes with no funct7 of that kind at all. -/
theorem decode_unknown_of_funct7 {op : BitVec 7} {bad : BitVec 3 → BitVec 7 → Prop}
    (hrows : ∀ r ∈ opcodeTable, r.pattern.extractLsb' 0 7 = op → r.mask.extractLsb' 12 3 = BitVec.allOnes 3 ∧
      (r.mask.extractLsb' 25 7 = BitVec.allOnes 7 ∧ ¬bad (r.pattern.extractLsb' 12 3) (r.pattern.extractLsb' 25 7) ∨
        ∀ f7, ¬bad (r.pattern.extractLsb' 12 3) f7))
    (ho : w.extractLsb' 0 7 = op) (hbad : bad (w.extractLsb' 12 3) (w.extractLsb' 25 7)) : decode w = .unknown w := by
  refine decode_unknown_of_no_row fun r hr h => ?_
  rw [field_eq_of_selects h (row_fixes_opcode r hr).1] at ho
  obtain ⟨hmask3, ⟨hmask7, hgood⟩ | hgood⟩ := hrows r hr ho
  · rw [field_eq_of_selects h hmask3, field_eq_of_selects h hmask7] at hbad
    exact hgood hbad
  · rw [field_eq_of_selects h hmask3] at hbad
    exact hgood _ hbad

theorem decode_unknown_of_funct3 {op : BitVec 7} {bad : BitVec 3 → Prop}
    (hrows : ∀ r ∈ opcodeTable, r.pattern.extractLsb' 0 7 = op →
      r.mask.extractLsb' 12 3 = BitVec.allOnes 3 ∧ ¬bad (r.pattern.extractLsb' 12 3))
    (ho : w.extractLsb' 0 7 = op) (hbad : bad (w.extractLsb' 12 3)) : decode w = .unknown w :=
  decode_unknown_of_funct7 (bad := fun f3 _ => bad f3)
    (fun r hr hop => (hrows r hr hop).imp_right fun hgood => .inr fun _ => hgood) ho hbad

end Sys2Proof.Machine
end

section
/-! PROOFS. Encoding and decoding: O1 to O6. -/

namespace Sys2Proof.Machine

/-- Settles O1: the row of the instruction selects its encoding, and the operands come back from the fields. -/
theorem decodeOfEncode : Obligations.DecodeOfEncode := by
  intro i hwf
  obtain ⟨r, hr, hm, hs⟩ := exists_row_selects_encode i
  rw [decode_of_row hr hs, hm, fieldsOf_encode hwf]

/-- Settles O2: the offset fields are even, and a word is its fields put back in place. -/
theorem encodeOfDecode : Obligations.EncodeOfDecode :=
  fun _ _ h => ⟨wellFormed_of_decode h, encode_of_decode h⟩

/-- Settles O3: a row says exactly which words decode to its instruction, and a decoded word has a row. -/
theorem decodeFollowsTable : Obligations.DecodeFollowsTable :=
  fun w => ⟨fun _ hr => (selectedBy_of_row hr w).mp, decode_unknown_of_no_row⟩

/-- Settles O4: two different rows differ in a bit that both fix. -/
theorem rowsAreDisjoint : Obligations.RowsAreDisjoint :=
  ⟨rfl, mnemonics_nodup.of_map.pairwise_of_forall_ne fun _ ha _ hb hne _ hwa hwb =>
    hne (row_eq_of_selects ha hb hwa hwb)⟩

/-- Settles O5: each clause names field values that no row of the table has. -/
theorem strictDecoding : Obligations.StrictDecoding := by
  refine ⟨fun w hlow => decode_unknown_of_no_row fun r hr h => hlow ?_,
    fun w hop => decode_unknown_of_no_row fun r hr h => hop ?_,
    fun w ho h7 hsubSra => decode_unknown_of_funct7
      (bad := fun f3 f7 => f7 ≠ 0x00#7 ∧ ¬(f7 = 0x20#7 ∧ (f3 = 0#3 ∨ f3 = 5#3))) (by decide) ho ⟨h7, hsubSra⟩,
    fun w ho h3 h7 hsrai => decode_unknown_of_funct7
      (bad := fun f3 f7 => (f3 = 1#3 ∨ f3 = 5#3) ∧ f7 ≠ 0x00#7 ∧ ¬(f7 = 0x20#7 ∧ f3 = 5#3)) (by decide) ho
      ⟨h3, h7, hsrai⟩,
    fun w => decode_unknown_of_funct3 (bad := (· ∈ [3#3, 6#3, 7#3])) (by decide),
    fun w => decode_unknown_of_funct3 (bad := (· ∉ [0#3, 1#3, 2#3])) (by decide),
    fun w => decode_unknown_of_funct3 (bad := (· ∈ [2#3, 3#3])) (by decide),
    fun w => decode_unknown_of_funct3 (bad := (· ≠ 0#3)) (by decide)⟩
  · obtain ⟨hmask, hpattern⟩ := row_fixes_low_bits r hr
    exact (field_eq_of_selects h hmask).trans hpattern
  · obtain ⟨hmask, hnine⟩ := row_fixes_opcode r hr
    exact field_eq_of_selects h hmask ▸ hnine

/-- Settles O6 by running the decoder. -/
theorem exampleWordsDecode : Obligations.ExampleWordsDecode := by
  unfold Obligations.ExampleWordsDecode
  decide

end Sys2Proof.Machine
end

section
/-! SUPPORT. The instruction a token and a value in range stand for: its word, its fields and its text (35_assembler.md
R90, R100; 30_encoding.md R75). -/

namespace Sys2Proof.Machine

/-! ## Values in range come back from their two's complement fields -/

theorem toInt_ofInt_12 {v : Int} (h : -2048 ≤ v ∧ v ≤ 2047) : (BitVec.ofInt 12 v).toInt = v :=
  BitVec.toInt_ofInt_eq_self (by decide) (by omega) (by omega)

theorem toInt_ofInt_13 {v : Int} (h : v % 2 = 0 ∧ -4096 ≤ v ∧ v ≤ 4094) : (BitVec.ofInt 13 v).toInt = v :=
  BitVec.toInt_ofInt_eq_self (by decide) (by omega) (by omega)

theorem toInt_ofInt_21 {v : Int} (h : v % 2 = 0 ∧ -1048576 ≤ v ∧ v ≤ 1048574) : (BitVec.ofInt 21 v).toInt = v :=
  BitVec.toInt_ofInt_eq_self (by decide) (by omega) (by omega)

theorem toNat_ofInt_5 {v : Int} (h : 0 ≤ v ∧ v ≤ 31) : ((BitVec.ofInt 5 v).toNat : Int) = v := by
  rw [BitVec.toNat_ofInt]; omega

theorem toNat_ofInt_20 {v : Int} (h : 0 ≤ v ∧ v ≤ 1048575) : ((BitVec.ofInt 20 v).toNat : Int) = v := by
  rw [BitVec.toNat_ofInt]; omega

theorem getLsbD_zero_eq_false_iff_toInt {n : Nat} (x : BitVec (n + 1)) : x.getLsbD 0 = false ↔ x.toInt % 2 = 0 := by
  have hpow : 2 ^ (n + 1) = 2 * 2 ^ n := by ring
  rw [BitVec.getLsbD, Nat.testBit_zero, BitVec.toInt_eq_toNat_cond, hpow, decide_eq_false_iff_not]
  split <;> omega

theorem branchOffsetOk_iff {x : BitVec 13} : branchOffsetOk x = true ↔ x.toInt % 2 = 0 := by
  rw [branchOffsetOk, Bool.not_eq_true', getLsbD_zero_eq_false_iff_toInt]

theorem jalOffsetOk_iff {x : BitVec 21} : jalOffsetOk x = true ↔ x.toInt % 2 = 0 := by
  rw [jalOffsetOk, Bool.not_eq_true', getLsbD_zero_eq_false_iff_toInt]

/-- The immediate field of a word holds a value in the range of its form (R90, R91). -/
theorem encodableValue_immediateOf (m : Mnemonic) (w : Word) : EncodableValue m (immediateOf (operandForm m) w) := by
  have hsigned (x : BitVec 12) : -2048 ≤ x.toInt ∧ x.toInt ≤ 2047 := by
    have := x.le_toInt; have := x.toInt_lt; omega
  have hshift (x : BitVec 5) : (0 : Int) ≤ x.toNat ∧ (x.toNat : Int) ≤ 31 := by have := x.isLt; omega
  have hbranch : (immB w).toInt % 2 = 0 ∧ -4096 ≤ (immB w).toInt ∧ (immB w).toInt ≤ 4094 := by
    have heven := (getLsbD_zero_eq_false_iff_toInt (immB w)).mp (immB_even w)
    have := (immB w).le_toInt; have := (immB w).toInt_lt; omega
  have hjal : (immJ w).toInt % 2 = 0 ∧ -1048576 ≤ (immJ w).toInt ∧ (immJ w).toInt ≤ 1048574 := by
    have heven := (getLsbD_zero_eq_false_iff_toInt (immJ w)).mp (immJ_even w)
    have := (immJ w).le_toInt; have := (immJ w).toInt_lt; omega
  have hupper (x : BitVec 20) : (0 : Int) ≤ x.toNat ∧ (x.toNat : Int) ≤ 1048575 := by have := x.isLt; omega
  cases m with
  | add | sub | sll | slt | sltu | xor | srl | sra | or | and => trivial
  | addi | slti | sltiu | xori | ori | andi | lb | lh | lw | lbu | lhu | sb | sh | sw | jalr => exact hsigned _
  | slli | srli | srai => exact hshift _
  | beq | bne | blt | bge | bltu | bgeu => exact hbranch
  | jal => exact hjal
  | lui | auipc => exact hupper _

section
variable {m : Mnemonic} {rd rs1 rs2 : RegIdx} {v : Int}

theorem buildInstr_mnemonic (m : Mnemonic) (rd rs1 rs2 : RegIdx) (v : Int) :
    (buildInstr m rd rs1 rs2 v).mnemonic = m := by cases m <;> rfl

theorem buildInstr_wellFormed (h : EncodableValue m v) : (buildInstr m rd rs1 rs2 v).wellFormed = true := by
  cases m with
  | beq | bne | blt | bge | bltu | bgeu =>
    exact branchOffsetOk_iff.mpr (by rw [toInt_ofInt_13 h]; exact h.1)
  | jal => exact jalOffsetOk_iff.mpr (by rw [toInt_ofInt_21 h]; exact h.1)
  | _ => rfl

/-- The fields of the word of a token with a value in range are the token's operands (R100). -/
theorem fieldsOf_encode_buildInstr (h : EncodableValue m v) :
    fieldsOf m (encode (buildInstr m rd rs1 rs2 v)) = buildInstr m rd rs1 rs2 v := by
  simpa only [buildInstr_mnemonic] using fieldsOf_encode (buildInstr_wellFormed (rd := rd) (rs1 := rs1) (rs2 := rs2) h)

/-- The token with the fields its form lacks set to 0. -/
def canonicalToken (m : Mnemonic) (rd rs1 rs2 : RegIdx) (v : Int) : InstrToken :=
  match operandForm m with
  | .r => ⟨m, rd, rs1, rs2, .value 0⟩
  | .i | .shift | .load | .jalr => ⟨m, rd, rs1, 0, .value v⟩
  | .store | .branch => ⟨m, 0, rs1, rs2, .value v⟩
  | .jal | .upper => ⟨m, rd, 0, 0, .value v⟩

/-- The disassembler takes apart what pass 2 put together (R75, R100). -/
theorem instrToken_buildInstr (h : EncodableValue m v) :
    instrToken (buildInstr m rd rs1 rs2 v) = canonicalToken m rd rs1 rs2 v := by
  cases m with
  | add | sub | sll | slt | sltu | xor | srl | sra | or | and => rfl
  | addi | slti | sltiu | xori | ori | andi | lb | lh | lw | lbu | lhu | sb | sh | sw | jalr =>
    simp [buildInstr, instrToken, canonicalToken, operandForm, toInt_ofInt_12 h]
  | slli | srli | srai =>
    simp [buildInstr, instrToken, canonicalToken, operandForm, -BitVec.toNat_ofInt, toNat_ofInt_5 h]
  | beq | bne | blt | bge | bltu | bgeu =>
    simp [buildInstr, instrToken, canonicalToken, operandForm, toInt_ofInt_13 h]
  | jal => simp [buildInstr, instrToken, canonicalToken, operandForm, toInt_ofInt_21 h]
  | lui | auipc => simp [buildInstr, instrToken, canonicalToken, operandForm, -BitVec.toNat_ofInt, toNat_ofInt_20 h]

theorem canonicalToken_mnemonic (m : Mnemonic) (rd rs1 rs2 : RegIdx) (v : Int) :
    (canonicalToken m rd rs1 rs2 v).mnemonic = m := by
  unfold canonicalToken; split <;> rfl

/-- A form's text shows only the fields the form has (R75). -/
theorem tokenText_canonicalToken (m : Mnemonic) (rd rs1 rs2 : RegIdx) (v : Int) :
    tokenText (canonicalToken m rd rs1 rs2 v) = tokenText ⟨m, rd, rs1, rs2, .value v⟩ := by
  simp only [tokenText, operandTexts, canonicalToken]
  cases h : operandForm m <;> simp [h]

/-- The operands that a form has come back from the instruction. -/
theorem buildInstr_inj {rd' rs1' rs2' : RegIdx} {v' : Int} (h : EncodableValue m v) (h' : EncodableValue m v')
    (he : buildInstr m rd rs1 rs2 v = buildInstr m rd' rs1' rs2' v') :
    (operandForm m ≠ .r → v = v') ∧ (operandForm m ∉ [.store, .branch] → rd = rd') ∧
      (operandForm m ∉ [.jal, .upper] → rs1 = rs1') ∧ (operandForm m ∈ [.r, .store, .branch] → rs2 = rs2') := by
  have ht := congrArg instrToken he
  rw [instrToken_buildInstr h, instrToken_buildInstr h'] at ht
  simp only [canonicalToken] at ht
  cases hf : operandForm m <;> simp_all

end

end Sys2Proof.Machine
end

section
/-! PROOFS. Pass 2: O54. -/

namespace Sys2Proof.Machine

section
variable {sym : List (Text × Nat)} {p : PlacedToken} {v : Int}

theorem passTwoToken_of_encodable (hv : resolveImm sym p.address p.token.imm = some v)
    (h : EncodableValue p.token.mnemonic v) :
    passTwoToken sym p = .ok (encode (buildInstr p.token.mnemonic p.token.rd p.token.rs1 p.token.rs2 v)) := by
  simp only [passTwoToken, hv, immInRange_iff, h, if_true]

theorem passTwoToken_of_not_encodable (hv : resolveImm sym p.address p.token.imm = some v)
    (h : ¬ EncodableValue p.token.mnemonic v) :
    ∃ message, passTwoToken sym p = .error ⟨.immediateRangeError, p.line, message⟩ := by
  simp only [passTwoToken, hv, immInRange_iff, h, if_false]
  exact ⟨_, rfl⟩

theorem passTwoToken_undefined_iff :
    (∃ message, passTwoToken sym p = .error ⟨.undefinedLabelError, p.line, message⟩) ↔
      resolveImm sym p.address p.token.imm = none := by
  unfold passTwoToken
  cases resolveImm sym p.address p.token.imm with
  | none => simp
  | some v =>
    dsimp only
    split <;> simp

end

/-- Settles O54: the fields of the word are the operands of the token, since the instruction's operands determine the
token's. -/
theorem passTwoEncodes : Obligations.PassTwoEncodes := by
  refine ⟨fun sym p => ⟨fun v hv => ⟨fun he => ?_, fun hne => ?_⟩, ?_⟩,
    fun sym name => ⟨symbolAddress_eq_none, fun hd a => symbolAddress_eq_some hd⟩⟩
  · have hf := fieldsOf_encode_buildInstr (rd := p.token.rd) (rs1 := p.token.rs1) (rs2 := p.token.rs2) he
    obtain ⟨himm, hrd, hrs1, hrs2⟩ := buildInstr_inj (encodableValue_immediateOf _ _) he hf
    refine ⟨_, passTwoToken_of_encodable (resolveImm_eq_some.mpr hv) he, ?_, himm, hrd, hrs1, hrs2, ?_⟩
    · rw [hf]
      exact decodeOfEncode _ (buildInstr_wellFormed he)
    · rw [hf, instrToken_buildInstr he, tokenText_canonicalToken]
  · exact passTwoToken_of_not_encodable (resolveImm_eq_some.mpr hv) hne
  · exact passTwoToken_undefined_iff.trans resolveImm_eq_none

end Sys2Proof.Machine
end

section
/-! SUPPORT. The lexer on text with few kinds of characters (35_assembler.md R82 to R85). -/

namespace Sys2Proof.Machine

/-! ## Cutting at a separator -/

section
variable {sep : Char} {t u : Text}

theorem cutAt_of_not_mem (h : sep ∉ t) : cutAt sep t = (t, none) := by
  induction t with
  | nil => rfl
  | cons c cs ih =>
    obtain ⟨hc, hcs⟩ := List.ne_and_not_mem_of_not_mem_cons h
    rw [cutAt, if_neg hc.symm, ih hcs]

theorem cutAt_append_cons (h : sep ∉ t) : cutAt sep (t ++ sep :: u) = (t, some u) := by
  induction t with
  | nil => rw [List.nil_append, cutAt, if_pos rfl]
  | cons c cs ih =>
    obtain ⟨hc, hcs⟩ := List.ne_and_not_mem_of_not_mem_cons h
    rw [List.cons_append, cutAt, if_neg hc.symm, ih hcs]

theorem splitAll_of_not_mem (h : sep ∉ t) : splitAll sep t = [t] := by
  induction t with
  | nil => rfl
  | cons c cs ih =>
    obtain ⟨hc, hcs⟩ := List.ne_and_not_mem_of_not_mem_cons h
    rw [splitAll, if_neg hc.symm, ih hcs]

theorem splitAll_append_cons (h : sep ∉ t) : splitAll sep (t ++ sep :: u) = t :: splitAll sep u := by
  induction t with
  | nil => rw [List.nil_append, splitAll, if_pos rfl]
  | cons c cs ih =>
    obtain ⟨hc, hcs⟩ := List.ne_and_not_mem_of_not_mem_cons h
    rw [List.cons_append, splitAll, if_neg hc.symm, ih hcs]

theorem dropCrBeforeLf_of_not_mem (h : '\r' ∉ t) : dropCrBeforeLf t = t := by
  induction t with
  | nil => rfl
  | cons c cs ih =>
    obtain ⟨hc, hcs⟩ := List.ne_and_not_mem_of_not_mem_cons h
    simp [dropCrBeforeLf, hc.symm, ih hcs]

theorem splitLines_of_not_mem (hcr : '\r' ∉ t) (hlf : '\n' ∉ t) : splitLines t = [t] := by
  rw [splitLines, dropCrBeforeLf_of_not_mem hcr, splitAll_of_not_mem hlf]

theorem stripComment_of_not_mem (h : '#' ∉ t) : stripComment t = t := by rw [stripComment, cutAt_of_not_mem h]

theorem splitLabels_of_not_mem (h : ':' ∉ t) (fuel : Nat) : splitLabels fuel t = ([], t) := by
  cases fuel with
  | zero => rfl
  | succ fuel => simp [splitLabels, takeLabel, cutAt_of_not_mem h]

end

/-! ## Blanks -/

/-- A text that is not empty and neither begins nor ends with a blank. -/
def Tight (t : Text) : Prop := t ≠ [] ∧ (∀ c ∈ t.head?, isBlank c = false) ∧ ∀ c ∈ t.getLast?, isBlank c = false

section
variable {t u : Text}

theorem Tight.of_no_blank (hne : t ≠ []) (h : ∀ c ∈ t, isBlank c = false) : Tight t :=
  ⟨hne, fun c hc => h c (List.mem_of_mem_head? hc), fun c hc => h c (List.mem_of_getLast? hc)⟩

theorem Tight.append (ht : Tight t) (mid : Text) (hu : Tight u) : Tight (t ++ mid ++ u) := by
  obtain ⟨hne, hhead, -⟩ := ht
  obtain ⟨hne', -, hlast⟩ := hu
  refine ⟨by simp [hne], fun c hc => hhead c ?_, fun c hc => hlast c ?_⟩
  · rwa [List.append_assoc, List.head?_append_of_ne_nil _ hne] at hc
  · rwa [List.getLast?_append_of_ne_nil _ hne'] at hc

theorem trimLeft_eq_self (h : ∀ c ∈ t.head?, isBlank c = false) : trimLeft t = t := by
  cases t with
  | nil => rfl
  | cons c cs => rw [trimLeft, List.dropWhile_cons_of_neg (by simpa using h c rfl)]

theorem Tight.trim (h : Tight t) : trim t = t := by
  obtain ⟨-, hhead, hlast⟩ := h
  rw [Machine.trim, trimLeft_eq_self hhead, trimLeft_eq_self (by rwa [List.head?_reverse]), List.reverse_reverse]

theorem Tight.trim_space_cons (h : Tight t) : Machine.trim (' ' :: t) = t := by
  have hdrop : trimLeft (' ' :: t) = trimLeft t := rfl
  rw [Machine.trim, hdrop]
  exact h.trim

end

/-! ## An instruction as it is written (R85) -/

/-- The characters of the operands the disassembler writes. -/
def isOperandChar (c : Char) : Bool := isLetter c || isDecDigit c || c == '-' || c == '(' || c == ')'

/-- An operand as the disassembler writes it. -/
def OperandText (t : Text) : Prop := t ≠ [] ∧ ∀ c ∈ t, isOperandChar c = true

theorem ne_of_isOperandChar {c d : Char} (hc : isOperandChar c = true) (hd : isOperandChar d = false) : c ≠ d := by
  rintro rfl
  exact absurd hc (by simp [hd])

theorem isBlank_of_isOperandChar {c : Char} (h : isOperandChar c = true) : isBlank c = false := by
  have hspace : c ≠ ' ' := ne_of_isOperandChar h (by decide)
  have htab : c ≠ '\t' := ne_of_isOperandChar h (by decide)
  simp [isBlank, hspace, htab]

section
variable {o : Text} {os : List Text}

theorem OperandText.tight (h : OperandText o) : Tight o :=
  .of_no_blank h.1 fun c hc => isBlank_of_isOperandChar (h.2 c hc)

theorem OperandText.comma_not_mem (h : OperandText o) : ',' ∉ o :=
  fun hc => absurd (h.2 _ hc) (by decide)

theorem tight_intercalate (h : ∀ t ∈ o :: os, OperandText t) : Tight (List.intercalate [',', ' '] (o :: os)) := by
  induction os generalizing o with
  | nil => simpa using (h o (by simp)).tight
  | cons o' os ih =>
    obtain ⟨ho, hos⟩ := List.forall_mem_cons.mp h
    rw [List.intercalate_cons_cons]
    exact ho.tight.append _ (ih hos)

theorem not_mem_intercalate {sep : Text} {c : Char} {ts : List Text} (hsep : c ∉ sep) (h : ∀ t ∈ ts, c ∉ t) :
    c ∉ List.intercalate sep ts := by
  induction ts with
  | nil => exact List.not_mem_nil
  | cons t ts ih =>
    obtain ⟨ht, hts⟩ := List.forall_mem_cons.mp h
    cases ts with
    | nil => simpa using ht
    | cons t' ts =>
      rw [List.intercalate_cons_cons]
      simp only [List.mem_append, not_or]
      exact ⟨⟨ht, hsep⟩, ih hts⟩

/-- Operands joined by a comma and a space are split apart, each but the first with its space. -/
theorem splitAll_intercalate (h : ∀ t ∈ o :: os, OperandText t) :
    splitAll ',' (List.intercalate [',', ' '] (o :: os)) = o :: os.map (' ' :: ·) := by
  induction os generalizing o with
  | nil => simpa using splitAll_of_not_mem (h o (by simp)).comma_not_mem
  | cons o' os ih =>
    obtain ⟨ho, hos⟩ := List.forall_mem_cons.mp h
    have hspace : splitAll ',' (' ' :: List.intercalate [',', ' '] (o' :: os)) = (' ' :: o') :: os.map (' ' :: ·) := by
      rw [splitAll, if_neg (by decide), ih hos]
    rw [List.intercalate_cons_cons, List.append_assoc, List.cons_append, splitAll_append_cons ho.comma_not_mem]
    exact congrArg _ hspace

theorem map_trim_splitAll_intercalate (h : ∀ t ∈ o :: os, OperandText t) :
    (splitAll ',' (List.intercalate [',', ' '] (o :: os))).map trim = o :: os := by
  obtain ⟨ho, hos⟩ := List.forall_mem_cons.mp h
  have htrim : os.map (trim ∘ (' ' :: ·)) = os.map id :=
    List.map_congr_left fun t ht => (hos t ht).tight.trim_space_cons
  rw [splitAll_intercalate h, List.map_cons, ho.tight.trim, List.map_map, htrim, List.map_id]

/-- A mnemonic, one space and operands are taken apart again. -/
theorem splitInstruction_append {mn : Text} (hmn : ∀ c ∈ mn, isOperandChar c = true)
    (h : ∀ t ∈ o :: os, OperandText t) :
    splitInstruction (mn ++ [' '] ++ List.intercalate [',', ' '] (o :: os)) = (mn, o :: os) := by
  have hnb : ∀ c ∈ mn, (!isBlank c) = true := fun c hc => by rw [isBlank_of_isOperandChar (hmn c hc), Bool.not_false]
  have htight := tight_intercalate h
  have hrest := map_trim_splitAll_intercalate h
  generalize List.intercalate [',', ' '] (o :: os) = rest at htight hrest ⊢
  have hbody : mn ++ [' '] ++ rest = mn ++ ' ' :: rest := by simp
  have htake : (mn ++ ' ' :: rest).takeWhile (fun c => !isBlank c) = mn := by
    rw [List.takeWhile_append_of_pos hnb]
    exact List.append_nil mn
  have hdrop : (mn ++ ' ' :: rest).dropWhile (fun c => !isBlank c) = ' ' :: rest := by
    rw [List.dropWhile_append_of_pos hnb]
    rfl
  simp only [splitInstruction, hbody, htake, hdrop, htight.trim_space_cons, hrest, List.isEmpty_iff, if_neg htight.1]

end

end Sys2Proof.Machine
end

section
/-! SUPPORT. The assembler reads the text of a token as that token (35_assembler.md R85 to R92; 30_encoding.md R75). -/

namespace Sys2Proof.Machine

/-! ## Operands -/

theorem isOperandChar_of_mem_decimal {n : Nat} {c : Char} (h : c ∈ decimal n) : isOperandChar c = true := by
  simp [isOperandChar, isDecDigit_of_mem_decimal h]

theorem mem_signedDecimal {v : Int} {c : Char} (h : c ∈ signedDecimal v) : c = '-' ∨ c ∈ decimal v.natAbs := by
  unfold signedDecimal at h
  split at h
  · exact List.mem_cons.mp h
  · exact .inr h

theorem operandText_signedDecimal (v : Int) : OperandText (signedDecimal v) := by
  refine ⟨?_, fun c hc => ?_⟩
  · unfold signedDecimal
    split
    · exact List.cons_ne_nil _ _
    · exact decimal_ne_nil _
  · obtain rfl | hc := mem_signedDecimal hc
    · rfl
    · exact isOperandChar_of_mem_decimal hc

theorem operandText_xName (r : RegIdx) : OperandText (xName r) := by
  exact ⟨List.cons_ne_nil _ _, List.forall_mem_cons.mpr ⟨rfl, fun _ hc => isOperandChar_of_mem_decimal hc⟩⟩

theorem operandText_displaced (v : Int) (r : RegIdx) :
    OperandText (signedDecimal v ++ ['('] ++ xName r ++ [')']) := by
  refine ⟨by simp, ?_⟩
  simp only [List.forall_mem_append, List.forall_mem_singleton]
  exact ⟨⟨⟨(operandText_signedDecimal v).2, rfl⟩, (operandText_xName r).2⟩, rfl⟩

theorem operandText_of_mem_operandTexts {m : Mnemonic} {rd rs1 rs2 : RegIdx} {v : Int} :
    ∀ t ∈ operandTexts ⟨m, rd, rs1, rs2, .value v⟩, OperandText t := by
  unfold operandTexts immText
  cases operandForm m <;>
    simp only [List.forall_mem_cons, List.not_mem_nil, false_imp_iff, forall_true_iff, and_true, operandText_xName,
      operandText_signedDecimal, operandText_displaced]

theorem readRegister_xName : ∀ r : RegIdx, readRegister (xName r) = some r := by decide

theorem readTarget_signedDecimal (v : Int) : readTarget (signedDecimal v) = some (.value v) := by
  simp only [readTarget, readInt_signedDecimal]

theorem readDisplaced_signedDecimal (v : Int) (r : RegIdx) :
    readDisplaced (signedDecimal v ++ ['('] ++ xName r ++ [')']) = some (v, r) := by
  have hopen : '(' ∉ signedDecimal v := fun h => by
    obtain h | h := mem_signedDecimal h
    · exact absurd h (by decide)
    · exact absurd (isDecDigit_of_mem_decimal h) (by decide)
  have hclose : ∀ r : RegIdx, ')' ∉ xName r := by decide
  have htext : signedDecimal v ++ ['('] ++ xName r ++ [')'] = signedDecimal v ++ '(' :: (xName r ++ [')']) := by simp
  simp only [readDisplaced, htext, cutAt_append_cons hopen, cutAt_append_cons (hclose r),
    (operandText_xName r).tight.trim, readInt_signedDecimal, readRegister_xName]

/-- The operands of a token's text are read as the token (R90). -/
theorem readCanonical_operandTexts (m : Mnemonic) (rd rs1 rs2 : RegIdx) (v : Int) :
    readCanonical m (operandTexts ⟨m, rd, rs1, rs2, .value v⟩) = some (canonicalToken m rd rs1 rs2 v) := by
  simp only [readCanonical, operandTexts, canonicalToken, immText]
  cases operandForm m <;>
    simp only [readRegister_xName, readInt_signedDecimal, readTarget_signedDecimal, readDisplaced_signedDecimal,
      Option.bind_eq_bind, Option.bind_some]

/-! ## Mnemonics -/

theorem canonicalMnemonic_mnemonicText (m : Mnemonic) : canonicalMnemonic (lowerText (mnemonicText m)) = some m := by
  cases m <;> rfl

theorem mnemonicText_head? (m : Mnemonic) : ((mnemonicText m).head? == some '.') = false := by
  cases m <;> decide

theorem isOperandChar_of_mem_mnemonicText {m : Mnemonic} : ∀ c ∈ mnemonicText m, isOperandChar c = true := by
  have h : (mnemonicText m).all isOperandChar = true := by cases m <;> decide
  exact List.all_eq_true.mp h

theorem mnemonicText_ne_nil (m : Mnemonic) : mnemonicText m ≠ [] := by
  cases m <;> decide

/-! ## The whole text -/

section
variable {m : Mnemonic} {rd rs1 rs2 : RegIdx} {v : Int}

theorem operandTexts_ne_nil (t : InstrToken) : operandTexts t ≠ [] := by
  unfold operandTexts
  split <;> exact List.cons_ne_nil _ _

theorem splitInstruction_tokenText : splitInstruction (tokenText ⟨m, rd, rs1, rs2, .value v⟩) =
    (mnemonicText m, operandTexts ⟨m, rd, rs1, rs2, .value v⟩) := by
  obtain ⟨o, os, hops⟩ := List.exists_cons_of_ne_nil (operandTexts_ne_nil ⟨m, rd, rs1, rs2, .value v⟩)
  rw [tokenText, hops, splitInstruction_append isOperandChar_of_mem_mnemonicText
    (hops ▸ operandText_of_mem_operandTexts)]

theorem tight_tokenText : Tight (tokenText ⟨m, rd, rs1, rs2, .value v⟩) := by
  obtain ⟨o, os, hops⟩ := List.exists_cons_of_ne_nil (operandTexts_ne_nil ⟨m, rd, rs1, rs2, .value v⟩)
  rw [tokenText, hops]
  have hmn : OperandText (mnemonicText m) := ⟨mnemonicText_ne_nil m, isOperandChar_of_mem_mnemonicText⟩
  exact hmn.tight.append _ (tight_intercalate (hops ▸ operandText_of_mem_operandTexts))

/-- A character that no operand and no separator holds does not occur in a token's text. -/
theorem not_mem_tokenText {c : Char} (hc : isOperandChar c = false) (hsep : c ∉ [',', ' ']) :
    c ∉ tokenText ⟨m, rd, rs1, rs2, .value v⟩ := by
  have hmn : c ∉ mnemonicText m := fun h => absurd (isOperandChar_of_mem_mnemonicText c h) (by simp [hc])
  have hops : ∀ t ∈ operandTexts ⟨m, rd, rs1, rs2, .value v⟩, c ∉ t :=
    fun t ht h => absurd ((operandText_of_mem_operandTexts t ht).2 c h) (by simp [hc])
  have hspace : c ∉ [' '] := fun h => hsep (List.mem_cons_of_mem _ h)
  simp only [tokenText, List.mem_append, not_or]
  exact ⟨⟨hmn, hspace⟩, not_mem_intercalate hsep hops⟩

/-- A token's text is one line without comment and label (R82 to R84). -/
theorem splitLines_tokenText :
    splitLines (tokenText ⟨m, rd, rs1, rs2, .value v⟩) = [tokenText ⟨m, rd, rs1, rs2, .value v⟩] :=
  splitLines_of_not_mem (not_mem_tokenText (by decide) (by decide)) (not_mem_tokenText (by decide) (by decide))

theorem splitLabels_lineText_tokenText (fuel : Nat) :
    splitLabels fuel (lineText (tokenText ⟨m, rd, rs1, rs2, .value v⟩)) =
      ([], tokenText ⟨m, rd, rs1, rs2, .value v⟩) := by
  rw [lineText, stripComment_of_not_mem (not_mem_tokenText (by decide) (by decide)),
    tight_tokenText.trim, splitLabels_of_not_mem (not_mem_tokenText (by decide) (by decide))]

theorem lineLabels_tokenText : lineLabels (tokenText ⟨m, rd, rs1, rs2, .value v⟩) = [] := by
  rw [lineLabels, splitLabels_lineText_tokenText]

theorem lineBody_tokenText :
    lineBody (tokenText ⟨m, rd, rs1, rs2, .value v⟩) = tokenText ⟨m, rd, rs1, rs2, .value v⟩ := by
  rw [lineBody, splitLabels_lineText_tokenText]

theorem passOneInstr_tokenText (line : Nat) (st : PassOne) :
    passOneInstr line (tokenText ⟨m, rd, rs1, rs2, .value v⟩) st =
      .ok (st.emit line [canonicalToken m rd rs1 rs2 v]) := by
  simp only [passOneInstr, splitInstruction_tokenText, mnemonicText_head?, canonicalMnemonic_mnemonicText,
    readCanonical_operandTexts, Bool.false_eq_true, if_false]

/-- Pass 1 of a token's text is that token at address 0 (R92). -/
theorem passOne_tokenText : passOne (tokenText ⟨m, rd, rs1, rs2, .value v⟩) =
    .ok ⟨[], [⟨1, 0, canonicalToken m rd rs1 rs2 v⟩], [], 4⟩ := by
  have hbody : ¬ (tokenText ⟨m, rd, rs1, rs2, .value v⟩).isEmpty = true := by
    rw [List.isEmpty_iff]; exact tight_tokenText.1
  simp only [passOne, splitLines_tokenText, passOneLines, passOneLine, lineLabels_tokenText, recordLabels,
    lineBody_tokenText, if_neg hbody, passOneInstr_tokenText]
  rfl

/-- A token with a value in range is encoded as its instruction, whatever the symbols (R100). -/
theorem passTwoToken_canonicalToken (sym : List (Text × Nat)) (line addr : Nat) (h : EncodableValue m v) :
    passTwoToken sym ⟨line, addr, canonicalToken m rd rs1 rs2 v⟩ = .ok (encode (buildInstr m rd rs1 rs2 v)) := by
  cases m with
  | add | sub | sll | slt | sltu | xor | srl | sra | or | and => exact passTwoToken_of_encodable (v := 0) rfl trivial
  | _ => exact passTwoToken_of_encodable rfl h

theorem assemble_tokenText (h : EncodableValue m v) : assemble (tokenText ⟨m, rd, rs1, rs2, .value v⟩) =
    .success ⟨[encode (buildInstr m rd rs1 rs2 v)], [], []⟩ := by
  simp only [assemble, passOne_tokenText, passTwo, passTwoToken_canonicalToken [] 1 0 h]
  rfl

end

end Sys2Proof.Machine
end

section
/-! PROOFS. Assembling a disassembled word: O53. -/

namespace Sys2Proof.Machine

theorem fieldsOf_of_decode {w : Word} {i : Instr} (h : decode w = .instr i) : fieldsOf i.mnemonic w = i := by
  simpa only [encode_of_decode h] using fieldsOf_encode (wellFormed_of_decode h)

/-- A word that decodes is disassembled to its mnemonic and fields (R75). -/
theorem disassemble_of_decode {w a : Word} {i : Instr} (h : decode w = .instr i) :
    disassemble w a = tokenText ⟨i.mnemonic, rdField w, rs1Field w, rs2Field w,
      .value (immediateOf (operandForm i.mnemonic) w)⟩ := by
  rw [← tokenText_canonicalToken, ← instrToken_buildInstr (encodableValue_immediateOf _ w), ← fieldsOf_eq_buildInstr,
    fieldsOf_of_decode h]
  simp only [disassemble, h]

/-- Settles O53: the text of the word's fields is read as the token of those fields, and the fields make the word. -/
theorem assembleOfDisassemble : Obligations.AssembleOfDisassemble := by
  intro w a i h
  rw [disassemble_of_decode h, assemble_tokenText (encodableValue_immediateOf _ w), ← fieldsOf_eq_buildInstr,
    fieldsOf_of_decode h, encode_of_decode h]

end Sys2Proof.Machine
end

section
/-! SUPPORT. What holds of pass 1 after every line (35_assembler.md R92 to R95). -/

namespace Sys2Proof.Machine

/-- What holds at the start of pass 1 and is kept by every line holds at its end; `P` may speak of the lines done. -/
theorem passOneLines_invariant {P : List Text → PassOne → Prop}
    (hstep : ∀ done l st st', P done st → passOneLine (done.length + 1) l st = .ok st' → P (done ++ [l]) st')
    {done ls : List Text} {st st' : PassOne} (hs : P done st)
    (h : passOneLines (done.length + 1) ls st = .ok st') : P (done ++ ls) st' := by
  induction ls generalizing done st with
  | nil => cases h; simpa using hs
  | cons l ls ih =>
    rw [passOneLines] at h
    split at h
    next st₁ h₁ =>
      have hnext := hstep done l st st₁ hs h₁
      simpa using ih hnext (by simpa using h)
    next => cases h

theorem passOne_invariant {P : List Text → PassOne → Prop} (hinit : P [] ⟨[], [], [], 0⟩)
    (hstep : ∀ done l st st', P done st → passOneLine (done.length + 1) l st = .ok st' → P (done ++ [l]) st')
    {text : Text} {st : PassOne} (h : passOne text = .ok st) : P (splitLines text) st :=
  passOneLines_invariant hstep (done := []) hinit h

/-- A failure of pass 1 names one of the lines it was given (R79, R102). -/
theorem passOneLines_error {line : Nat} {ls : List Text} {st : PassOne} {e : AsmError}
    (h : passOneLines line ls st = .error e) : line ≤ e.line ∧ e.line < line + ls.length := by
  induction ls generalizing line st with
  | nil => cases h
  | cons l ls ih =>
    rw [passOneLines] at h
    rw [List.length_cons]
    split at h
    next =>
      have := ih h
      omega
    next e' h₁ =>
      cases h
      have := passOneLine_error h₁
      omega

/-! ## The tokens and the addresses -/

theorem map_line_place (line addr : Nat) (ts : List InstrToken) :
    (place line addr ts).map PlacedToken.line = List.replicate ts.length line := by
  induction ts generalizing addr with
  | nil => rfl
  | cons t ts ih => rw [place, List.map_cons, ih, List.length_cons, List.replicate_succ]

theorem mem_place {line addr : Nat} {ts : List InstrToken} {p : PlacedToken} (h : p ∈ place line addr ts) :
    p.line = line :=
  List.eq_of_mem_replicate (map_line_place line addr ts ▸ List.mem_map_of_mem (f := PlacedToken.line) h)

theorem countP_place_line_le (line addr k : Nat) (ts : List InstrToken) :
    (place line addr ts).countP (fun p => p.line ≤ k) = if line ≤ k then ts.length else 0 := by
  split
  next hle =>
    rw [List.countP_eq_length.mpr, place_length]
    intro p hp
    simpa [mem_place hp] using hle
  next hgt =>
    rw [List.countP_eq_zero]
    intro p hp
    simpa [mem_place hp] using hgt

/-- The tokens of the lines done stand on them in order, four bytes apart, as many as the lines' own text says. -/
structure TokensPlaced (done : List Text) (st : PassOne) : Prop where
  address : ∀ k p, st.toks[k]? = some p → p.address = 4 * k
  addr : st.addr = 4 * st.toks.length
  line : ∀ p ∈ st.toks, 1 ≤ p.line ∧ p.line ≤ done.length
  sorted : (st.toks.map PlacedToken.line).Pairwise (· ≤ ·)
  count : ∀ k, st.toks.countP (fun p => p.line ≤ k) = wordsBefore done k

theorem wordsBefore_append_singleton (done : List Text) (l : Text) (k : Nat) :
    wordsBefore (done ++ [l]) k = wordsBefore done k + if done.length + 1 ≤ k then lineWords l else 0 := by
  unfold wordsBefore
  rw [List.take_append, List.map_append, List.sum_append]
  split
  next hle => rw [List.take_of_length_le (l := [l]) (by simp; omega)]; simp
  next hgt => rw [show k - done.length = 0 by omega]; simp

theorem wordsBefore_of_length_le {lines : List Text} {k : Nat} (h : lines.length ≤ k) :
    wordsBefore lines k = (lines.map lineWords).sum := by
  rw [wordsBefore, List.take_of_length_le h]

theorem TokensPlaced.step {done : List Text} {l : Text} {st st' : PassOne} (h : TokensPlaced done st)
    (hl : passOneLine (done.length + 1) l st = .ok st') : TokensPlaced (done ++ [l]) st' := by
  obtain ⟨-, ts, hlen, htoks, haddr⟩ := passOneLine_adds hl
  refine ⟨fun k p hk => ?_, ?_, fun p hp => ?_, ?_, fun k => ?_⟩
  · rw [htoks] at hk
    by_cases hlt : k < st.toks.length
    · rw [List.getElem?_append_left hlt] at hk
      exact h.address k p hk
    · rw [List.getElem?_append_right (by omega)] at hk
      have := (place_getElem? hk).1
      have := h.addr
      omega
  · rw [haddr, htoks, List.length_append, place_length, h.addr]
    omega
  · rw [htoks, List.mem_append] at hp
    rw [List.length_append, List.length_singleton]
    obtain hp | hp := hp
    · have := h.line p hp
      omega
    · have := mem_place hp
      omega
  · rw [htoks, List.map_append, map_line_place, List.pairwise_append]
    refine ⟨h.sorted, List.pairwise_replicate.mpr (.inr (Nat.le_refl _)), fun a ha b hb => ?_⟩
    obtain ⟨p, hp, rfl⟩ := List.mem_map.mp ha
    have := h.line p hp
    have := List.eq_of_mem_replicate hb
    omega
  · rw [htoks, List.countP_append, h.count, countP_place_line_le, wordsBefore_append_singleton, hlen]

theorem TokensPlaced.length {lines : List Text} {st : PassOne} (h : TokensPlaced lines st) :
    st.toks.length = (lines.map lineWords).sum := by
  have hall : ∀ p ∈ st.toks, decide (p.line ≤ lines.length) = true := fun p hp => by simpa using (h.line p hp).2
  rw [← List.countP_eq_length.mpr hall, h.count, wordsBefore_of_length_le (Nat.le_refl _)]

/-! ## The symbol table -/

/-- The labels of the lines done, in order, each once, with the address of the next token. -/
structure LabelsRecorded (done : List Text) (st : PassOne) : Prop where
  names : st.sym.map Prod.fst = done.flatMap lineLabels
  nodup : (st.sym.map Prod.fst).Nodup
  bound : ∀ e ∈ st.sym, e.2 % 4 = 0 ∧ e.2 ≤ st.addr
  address : ∀ k l name, done[k]? = some l → name ∈ lineLabels l → (name, 4 * wordsBefore done k) ∈ st.sym

theorem LabelsRecorded.step {done : List Text} {l : Text} {st st' : PassOne} (ht : TokensPlaced done st)
    (h : LabelsRecorded done st) (hl : passOneLine (done.length + 1) l st = .ok st') :
    LabelsRecorded (done ++ [l]) st' := by
  obtain ⟨hrec, ts, -, -, haddr⟩ := passOneLine_adds hl
  obtain ⟨hsym, hnodup⟩ := recordLabels_ok hrec
  have hhere : st.addr = 4 * wordsBefore done done.length := by
    rw [wordsBefore_of_length_le (Nat.le_refl _), ← ht.length, ht.addr]
  refine ⟨?_, hnodup h.nodup, fun e he => ?_, fun k l' name hk hname => ?_⟩
  · simp [hsym, h.names, Function.comp_def]
  · rw [hsym, List.mem_append] at he
    obtain he | he := he
    · have := h.bound e he
      omega
    · obtain ⟨name, -, rfl⟩ := List.mem_map.mp he
      dsimp only
      omega
  · rw [hsym, wordsBefore_append_singleton, List.mem_append]
    by_cases hlt : k < done.length
    · rw [if_neg (by omega), Nat.add_zero]
      rw [List.getElem?_append_left hlt] at hk
      exact .inl (h.address k l' name hk hname)
    · rw [List.getElem?_append_right (by omega), List.getElem?_singleton] at hk
      split at hk
      next hzero =>
        obtain rfl : l = l' := Option.some.inj hk
        obtain rfl : k = done.length := by omega
        rw [if_neg (by omega), Nat.add_zero, ← hhere]
        exact .inr (List.mem_map_of_mem hname)
      next => cases hk

theorem passOne_placed_recorded {text : Text} {st : PassOne} (h : passOne text = .ok st) :
    TokensPlaced (splitLines text) st ∧ LabelsRecorded (splitLines text) st :=
  passOne_invariant (P := fun done st => TokensPlaced done st ∧ LabelsRecorded done st)
    ⟨⟨by simp, rfl, by simp, by simp, by simp [wordsBefore]⟩, by simp, by simp, by simp, by simp⟩
    (fun _ _ _ _ ⟨ht, hs⟩ hl => ⟨ht.step hl, hs.step ht hl⟩) h

/-! ## The log -/

theorem pseudoForm_of_canonicalMnemonic {name : Text} {m : Mnemonic} (h : canonicalMnemonic name = some m) :
    pseudoForm name = none := by
  obtain rfl : mnemonicText m = name := by simpa using List.find?_some h
  exact pseudoForm_mnemonicText m

/-- A line adds one log entry exactly when it holds a pseudo-instruction (R114). -/
theorem passOneLine_log_length {line : Nat} {l : Text} {st st' : PassOne} (h : passOneLine line l st = .ok st') :
    st'.log.length = st.log.length + if isPseudoLine l then 1 else 0 := by
  obtain ⟨sym, -, ⟨hb, rfl⟩ | ⟨hb, hi⟩⟩ := passOneLine_ok h
  · simp [isPseudoLine, hb]
  · obtain ⟨m, tok, hm, -, rfl⟩ | ⟨f, p, ts, -, hf, -, -, rfl⟩ := passOneInstr_ok hi
    · simp [isPseudoLine, pseudoForm_of_canonicalMnemonic hm, PassOne.emit]
    · simp [isPseudoLine, hb, hf]

theorem passOne_log_length {text : Text} {st : PassOne} (h : passOne text = .ok st) :
    st.log.length = (splitLines text).countP isPseudoLine :=
  passOne_invariant (P := fun done st => st.log.length = done.countP isPseudoLine) rfl
    (fun done l st st' hs hl => by
      rw [passOneLine_log_length hl, hs, List.countP_append, List.countP_singleton]) h

/-- A line without pseudo-instruction emits a token exactly when it has an instruction (R104). -/
theorem lineWords_of_not_pseudo {l : Text} (h : isPseudoLine l = false) :
    lineWords l = if lineBody l = [] then 0 else 1 := by
  unfold lineWords
  split
  next => rfl
  next hb =>
    have hnone : pseudoForm (lowerText (splitInstruction (lineBody l)).1) = none := by
      simpa [isPseudoLine, hb] using h
    have hla : lowerText (splitInstruction (lineBody l)).1 ≠ "la".toList := fun he => by
      rw [he] at hnone; exact absurd hnone (by decide)
    have hli : lowerText (splitInstruction (lineBody l)).1 ≠ "li".toList := fun he => by
      rw [he] at hnone; exact absurd hnone (by decide)
    rw [instructionWords, if_neg hla, if_neg hli]

theorem sum_lineWords_of_no_pseudo {lines : List Text} (h : ∀ l ∈ lines, isPseudoLine l = false) :
    (lines.map lineWords).sum = lines.countP (fun l => !(lineBody l).isEmpty) := by
  induction lines with
  | nil => rfl
  | cons l ls ih =>
    obtain ⟨hl, hls⟩ := List.forall_mem_cons.mp h
    rw [List.map_cons, List.sum_cons, ih hls, lineWords_of_not_pseudo hl, List.countP_cons, Nat.add_comm]
    by_cases hb : lineBody l = [] <;> simp [hb]

/-! ## Texts without instruction -/

theorem recordLabels_of_nodup {addr : Nat} {names : List Text} {sym : List (Text × Nat)}
    (h : (sym.map Prod.fst ++ names).Nodup) :
    recordLabels addr sym names = some (sym ++ names.map fun name => (name, addr)) := by
  induction names generalizing sym with
  | nil => simp [recordLabels]
  | cons name names ih =>
    have hnew : name ∉ sym.map Prod.fst := fun hmem =>
      (List.nodup_append.mp h).2.2 name hmem name List.mem_cons_self rfl
    rw [recordLabels, symbolAddress_eq_none.mpr hnew]
    dsimp only
    rw [ih (by simpa using h)]
    simp

/-- Lines without instruction record their labels at the current address and change nothing else (R97). -/
theorem passOneLines_of_no_body {line : Nat} {ls : List Text} {st : PassOne} (hbody : ∀ l ∈ ls, lineBody l = [])
    (hd : (st.sym.map Prod.fst ++ ls.flatMap lineLabels).Nodup) :
    passOneLines line ls st =
      .ok { st with sym := st.sym ++ (ls.flatMap lineLabels).map fun name => (name, st.addr) } := by
  induction ls generalizing line st with
  | nil => simp [passOneLines]
  | cons l ls ih =>
    obtain ⟨hl, hls⟩ := List.forall_mem_cons.mp hbody
    rw [List.flatMap_cons, ← List.append_assoc] at hd
    have hrec := recordLabels_of_nodup (addr := st.addr) (List.nodup_append.mp hd).1
    have hline : passOneLine line l st =
        .ok { st with sym := st.sym ++ (lineLabels l).map fun name => (name, st.addr) } := by
      simp only [passOneLine, hrec, hl, List.isEmpty_nil, if_true]
    rw [passOneLines, hline]
    dsimp only
    rw [ih hls (by simpa [Function.comp_def] using hd)]
    simp

/-! ## Both passes -/

theorem passTwoToken_error {sym : List (Text × Nat)} {p : PlacedToken} {e : AsmError}
    (h : passTwoToken sym p = .error e) : e.line = p.line := by
  unfold passTwoToken at h
  split at h
  · cases h; rfl
  · split at h
    · cases h
    · cases h; rfl

/-- A failure of pass 2 names the line of one of the tokens (R102). -/
theorem passTwo_error {sym : List (Text × Nat)} {ps : List PlacedToken} {e : AsmError}
    (h : passTwo sym ps = .error e) : ∃ p ∈ ps, e.line = p.line := by
  induction ps with
  | nil => cases h
  | cons p ps ih =>
    rw [passTwo] at h
    split at h
    next e' h₁ =>
      cases h
      exact ⟨p, List.mem_cons_self, passTwoToken_error h₁⟩
    next w h₁ =>
      split at h
      next h₂ =>
        cases h
        obtain ⟨q, hq, hline⟩ := ih h₂
        exact ⟨q, List.mem_cons_of_mem p hq, hline⟩
      next => cases h

theorem assemble_success {text : Text} {p : Assembled} (h : assemble text = .success p) :
    ∃ st, passOne text = .ok st ∧ passTwo st.sym st.toks = .ok p.machineCode ∧ p.expansionLog = st.log := by
  unfold assemble at h
  split at h
  next => cases h
  next st h₁ =>
    split at h
    next => cases h
    next ws h₂ =>
      cases h
      exact ⟨st, h₁, h₂, rfl⟩

theorem assemble_failure {text : Text} {e : AsmError} (h : assemble text = .failure e) :
    passOne text = .error e ∨ ∃ st, passOne text = .ok st ∧ passTwo st.sym st.toks = .error e := by
  unfold assemble at h
  split at h
  next h₁ =>
    cases h
    exact .inl h₁
  next st h₁ =>
    split at h
    next h₂ =>
      cases h
      exact .inr ⟨st, h₁, h₂⟩
    next => cases h

end Sys2Proof.Machine
end

section
/-! PROOFS. The passes of the assembler: O55 to O58. -/

namespace Sys2Proof.Machine

/-- Settles O55: every line keeps the tokens placed and the labels recorded. -/
theorem passOneAddresses : Obligations.PassOneAddresses := by
  intro text st h
  obtain ⟨ht, hs⟩ := passOne_placed_recorded h
  refine ⟨ht.address, ht.addr, ht.sorted, ht.count, ht.length, hs.names, hs.nodup, hs.bound,
    fun k l name hk hname => ?_⟩
  rw [symbolAddress_eq_some hs.nodup, ht.count]
  exact hs.address k l name hk hname

/-- Settles O56: the log grows with the pseudo-instructions, and any other instruction is one token. -/
theorem logCountsPseudoInstructions : Obligations.LogCountsPseudoInstructions := by
  intro text p h
  obtain ⟨st, h₁, h₂, hlog⟩ := assemble_success h
  rw [hlog, passOne_log_length h₁]
  refine ⟨rfl, fun hzero => ⟨List.length_eq_zero_iff.mp ((passOne_log_length h₁).trans hzero), ?_⟩⟩
  rw [passTwo_length h₂, (passOne_placed_recorded h₁).1.length]
  exact sum_lineWords_of_no_pseudo fun l hl => by simpa using List.countP_eq_zero.mp hzero l hl

/-- Settles O57: no line moves the address, and every label is new. -/
theorem assembleNoInstruction : Obligations.AssembleNoInstruction := by
  intro text hbody hd
  have h₁ : passOne text = .ok ⟨((splitLines text).flatMap lineLabels).map fun name => (name, 0), [], [], 0⟩ :=
    passOneLines_of_no_body hbody (by simpa using hd)
  simp [assemble, h₁, passTwo]

/-- Settles O58: pass 1 numbers the lines from 1, and a token of pass 2 stands on one of them. -/
theorem errorNamesALine : Obligations.ErrorNamesALine := by
  refine ⟨fun text e h => ?_, fun text e h => by simp only [assemble, h]⟩
  obtain h₁ | ⟨st, h₁, h₂⟩ := assemble_failure h
  · have := passOneLines_error h₁
    omega
  · obtain ⟨p, hp, hline⟩ := passTwo_error h₂
    rw [hline]
    exact (passOne_placed_recorded h₁).1.line p hp

end Sys2Proof.Machine
end

section
/-! SUPPORT. The two halves of a constant, and the instructions that put them together (35_assembler.md R107, R112). -/

namespace Sys2Proof.Machine

theorem upperImm_eq_ofInt (imm20 : BitVec 20) : upperImm imm20 = BitVec.ofInt 32 (imm20.toNat * 4096) := by
  have hlt := imm20.isLt
  apply BitVec.eq_of_toNat_eq
  rw [upperImm, BitVec.toNat_cast, BitVec.toNat_append, BitVec.toNat_ofInt, BitVec.toNat_zero, Nat.or_zero,
    Nat.shiftLeft_eq]
  omega

/-- `lui` of the high part and `addi` of the sign-extended low part make the constant (R107, R112). -/
theorem upperImm_hiPart_add (u : Word) : upperImm (hiPart u) + signImm12 (loPart u) = u := by
  have hu : absoluteAddress u.toNat = u := by
    rw [absoluteAddress, BitVec.ofNat_toNat, BitVec.setWidth_eq]
  have hhi := hiPart_absoluteAddress u.toNat
  have hlo := loPart_absoluteAddress u.toNat
  rw [hu] at hhi hlo
  have hlow : ((u.toNat : Int) - signedLow12 u.toNat) % 4096 = 0 := by
    unfold signedLow12
    split <;> omega
  have hlt := u.isLt
  rw [upperImm_eq_ofInt, signImm12, BitVec.signExtend, hhi, hlo, ← BitVec.ofInt_add]
  apply BitVec.eq_of_toNat_eq
  rw [BitVec.toNat_ofInt]
  omega

section
variable {sym : List (Text × Nat)} {line addr : Nat} {rd : RegIdx} {s : State}

/-- The words of `lui` and `addi` whose immediates resolve to the two halves of `u`. -/
theorem passTwo_lui_addi {u : Word} {hi lo : ImmToken}
    (hhi : resolveImm sym addr hi = some ((hiPart u).toNat : Int))
    (hlo : resolveImm sym (addr + 4) lo = some (loPart u).toInt) :
    passTwo sym (place line addr [⟨.lui, rd, 0, 0, hi⟩, ⟨.addi, rd, rd, 0, lo⟩]) =
      .ok ([Instr.lui rd (hiPart u), Instr.addi rd rd (loPart u)].map encode) := by
  have hhiRange : EncodableValue .lui (hiPart u).toNat := by
    have := (hiPart u).isLt
    constructor <;> omega
  have hloRange : EncodableValue .addi (loPart u).toInt := by
    have := (loPart u).le_toInt
    have := (loPart u).toInt_lt
    constructor <;> omega
  have h₁ := passTwoToken_of_encodable (p := ⟨line, addr, ⟨.lui, rd, 0, 0, hi⟩⟩) hhi hhiRange
  have h₂ := passTwoToken_of_encodable (p := ⟨line, addr + 4, ⟨.addi, rd, rd, 0, lo⟩⟩) hlo hloRange
  simp only [place, passTwo, h₁, h₂, buildInstr, BitVec.ofInt_natCast, BitVec.ofNat_toNat, BitVec.setWidth_eq,
    BitVec.ofInt_toInt, List.map_cons, List.map_nil]

theorem execAll_lui_addi (hrd : rd ≠ 0) (u : Word) :
    ∃ t, execAll [.lui rd (hiPart u), .addi rd rd (loPart u)] s = .next t ∧ readReg t rd = u := by
  refine ⟨_, by simp only [execAll, exec_lui, exec_addi]; rfl, ?_⟩
  rw [readReg_writeAndAdvance, if_pos ⟨rfl, hrd⟩, readReg_writeAndAdvance, if_pos ⟨rfl, hrd⟩, upperImm_hiPart_add]

theorem passTwo_addi {v : Int} (hv : -2048 ≤ v ∧ v ≤ 2047) :
    passTwo sym (place line addr [⟨.addi, rd, 0, 0, .value v⟩]) =
      .ok ([Instr.addi rd 0 (BitVec.ofInt 12 v)].map encode) := by
  have h := passTwoToken_of_encodable (sym := sym) (p := ⟨line, addr, ⟨.addi, rd, 0, 0, .value v⟩⟩) rfl hv
  simp only [place, passTwo, h, buildInstr, List.map_cons, List.map_nil]

theorem execAll_addi_zero (hrd : rd ≠ 0) {v : Int} (hv : -2048 ≤ v ∧ v ≤ 2047) :
    ∃ t, execAll [.addi rd 0 (BitVec.ofInt 12 v)] s = .next t ∧ readReg t rd = BitVec.ofInt 32 v := by
  refine ⟨_, by simp only [execAll, exec_addi]; rfl, ?_⟩
  rw [readReg_writeAndAdvance, if_pos ⟨rfl, hrd⟩, signImm12, BitVec.signExtend, toInt_ofInt_12 hv]
  exact BitVec.zero_add _

end

/-! ## The three cases of `li` (R107, D29) -/

section
variable {rd : RegIdx} {v : Int}

theorem expandLi_of_outOfRange (h : v < -2 ^ 31 ∨ 2 ^ 32 - 1 < v) : expandLi rd v = none := by
  simp only [expandLi, Bool.or_eq_true, decide_eq_true_eq]
  exact if_pos h

theorem expandLi_of_small (h : -2048 ≤ v ∧ v ≤ 2047) : expandLi rd v = some [⟨.addi, rd, 0, 0, .value v⟩] := by
  simp only [expandLi, Bool.or_eq_true, Bool.and_eq_true, decide_eq_true_eq]
  rw [if_neg (by omega), if_pos h]

theorem expandLi_of_large (hlo : -2 ^ 31 ≤ v) (hhi : v ≤ 2 ^ 32 - 1) (h : ¬ (-2048 ≤ v ∧ v ≤ 2047)) :
    expandLi rd v = some [⟨.lui, rd, 0, 0, .value (hiPart (BitVec.ofInt 32 v)).toNat⟩,
      ⟨.addi, rd, rd, 0, .value (loPart (BitVec.ofInt 32 v)).toInt⟩] := by
  simp only [expandLi, Bool.or_eq_true, Bool.and_eq_true, decide_eq_true_eq]
  rw [if_neg (by omega), if_neg h]

end

end Sys2Proof.Machine
end

section
/-! PROOFS. The words of `li` and `la`, executed: O59. -/

namespace Sys2Proof.Machine

/-- Settles O59: one `addi` extends a small literal itself; otherwise `lui` and `addi` add up the two halves. -/
theorem liAndLaBuildConstants : Obligations.LiAndLaBuildConstants := by
  refine ⟨fun s rd v sym line addr hrd hlo hhi => ?_, fun rd v h => expandLi_of_outOfRange h,
    fun s rd name a sym line addr hrd ha => ?_⟩
  · by_cases hv : -2048 ≤ v ∧ v ≤ 2047
    · obtain ⟨t, ht, hread⟩ := execAll_addi_zero (s := s) hrd hv
      exact ⟨_, _, t, expandLi_of_small hv, passTwo_addi hv, ht, hread⟩
    · obtain ⟨t, ht, hread⟩ := execAll_lui_addi (s := s) hrd (BitVec.ofInt 32 v)
      exact ⟨_, _, t, expandLi_of_large hlo hhi hv, passTwo_lui_addi rfl rfl, ht, hread⟩
  · obtain ⟨t, ht, hread⟩ := execAll_lui_addi (s := s) hrd (absoluteAddress a)
    exact ⟨_, _, t, rfl, rfl, passTwo_lui_addi (by simp [resolveImm, ha]) (by simp [resolveImm, ha]), ht, hread⟩

end Sys2Proof.Machine
end

section
/-! PROOFS. Legal states under every command: O47. -/

namespace Sys2Proof.Machine

@[simp] theorem programBytes_length (words : List Word) : (programBytes words).length = 4 * words.length := by
  simp [programBytes, List.length_flatMap, Nat.mul_comm]

/-- A program that is loaded lies inside memory, so its bytes are listed there. -/
theorem loadProgram_legalState {words : List Word} {s t : State} (hs : LegalState s)
    (h : loadProgram words s = .next t) : LegalState t := by
  obtain ⟨hle, rfl⟩ := loadProgram_next h
  exact { construct_legalState hs.size with
    canonical := Memory.wf_writeList hs.canonical 0 _
    within := Memory.within_writeList hs.within 0 _ (by simpa using hle) }

theorem legalState_invariant : CommandInvariant LegalState where
  step := stepKeepsLegalState
  reset _ hs := construct_legalState hs.size
  load _ _ _ := loadProgram_legalState

/-- Settles O47: each command that goes on keeps a legal state legal, and a refused one changes nothing. -/
theorem commandsKeepLegalState : Obligations.CommandsKeepLegalState := fun _ cs hs =>
  legalState_invariant.afterCommands hs cs

end Sys2Proof.Machine
end

section
/-! PROOFS. The step: O35, O37, O38, O39, O40, O42. -/

namespace Sys2Proof.Machine

theorem exec_total (i : Instr) (s : State) : ∃ t, exec i s = .next t := by
  cases exec_shape i s with
  | writes _ _ _ _ _ he | moves _ _ _ _ he | links _ _ _ _ _ he | stores _ _ _ _ _ _ he | warns _ _ _ _ _ he =>
    exact ⟨_, he⟩

theorem step_total (s : State) : ∃ t, step s = .next t := by
  obtain ⟨-, hs⟩ | ⟨-, -, hs⟩ | ⟨_, _, -, -, -, hs⟩ | ⟨_, i, -, -, -, hs⟩ := step_cases s
  · exact ⟨_, hs⟩
  · exact ⟨_, hs⟩
  · exact ⟨_, hs⟩
  · rw [hs]; exact exec_total i s

theorem fetch_eq_none {s : State} (h : s.memSize < s.pc.toNat + 4) : fetch s = none :=
  if_neg (by simp [inRange_eq_false.mpr h])

/-- Settles O35: without a target `pc` moves on by 4, and is another address. -/
theorem nextPc : Obligations.NextPc := by
  intro i s t h
  refine ⟨exec_pc h, fun hself => ?_⟩
  have hpc := exec_pc h
  rw [hself] at hpc
  cases ht : takenTarget i s with
  | none =>
    have h4 : s.pc = s.pc + 4 := by rwa [ht] at hpc
    bv_omega
  | some p =>
    rw [ht] at hpc
    exact congrArg some hpc.symm

/-- Settles O37: all three checks pass. -/
theorem stepRunsDecoded : Obligations.StepRunsDecoded := fun _ _ hc hr hd =>
  step_of_decode_instr (halted_eq_false.mpr hc) (fetch_eq_memRead32 hr) hd

/-- Settles O38: a next state in each case of a step and for each shape of an instruction. -/
theorem stepIsTotal : Obligations.StepIsTotal := by
  refine ⟨fun s => ?_, exec_total⟩
  obtain ⟨t, ht⟩ := step_total s
  exact ⟨t, ht, fun u hu => Host.Outcome.next.inj (hu.symm.trans ht)⟩

/-- Settles O39: the decoder answers `Unknown` for a word that no row selects. -/
theorem unknownWordWarns : Obligations.UnknownWordWarns := fun s _ hc hf hrows =>
  ⟨_, step_of_decode_unknown (halted_eq_false.mpr hc) hf (decode_unknown_of_no_row hrows), warnStep_onlyWarns s _⟩

/-- Settles O40: nothing is fetched. -/
theorem fetchOutOfRangeWarns : Obligations.FetchOutOfRangeWarns := fun s hc hr =>
  ⟨_, step_of_fetch_none (halted_eq_false.mpr hc) (fetch_eq_none hr), warnStep_onlyWarns s _⟩

/-- Settles O42: the first check of a step. -/
theorem haltedStepDoesNothing : Obligations.HaltedStepDoesNothing := fun _ h => step_of_halted (halted_iff.mpr h)

end Sys2Proof.Machine
end

section
/-! PROOFS. The loop of `run()` as steps of the core (40_core_cycle.md R130): O48. -/

namespace Sys2Proof.Machine

theorem runSteps_of_halted {s : State} (h : halted s = true) (fuel : Nat) : runSteps fuel s = .next s := by
  cases fuel with
  | zero => rfl
  | succ fuel => simp [runSteps, h]

theorem runSteps_succ {s t : State} (hh : halted s = false) (h : step s = .next t) (fuel : Nat) :
    runSteps (fuel + 1) s = runSteps fuel t := by
  simp [runSteps, hh, h]

theorem core_run_succ {s t : State} (h : step s = .next t) (k : Nat) : core.run (k + 1) s = core.run k t := by
  have hcore : core.step s = .next t := h
  simp [Host.Core.run, hcore]

/-- A step below the ceiling counts 1, whatever it does. -/
theorem exists_step_of_running {s : State} (hh : halted s = false) :
    ∃ t, step s = .next t ∧ t.cycles.toNat = s.cycles.toNat + 1 := by
  obtain ⟨hcount, -⟩ := cycleCounter
  obtain ⟨t, ht⟩ := step_total s
  exact ⟨t, ht, hcount s t (halted_eq_false.mp hh) ht⟩

/-- With `k` cycles left and fuel for them, the loop makes `k` steps of the core and stops at the ceiling. -/
theorem runSteps_eq_core_run {k fuel : Nat} {s : State} (hk : s.cycles.toNat + k = Config.cycleCeiling)
    (hfuel : k ≤ fuel) :
    ∃ t : State, runSteps fuel s = .next t ∧ core.run k s = .next t ∧ t.cycles.toNat = Config.cycleCeiling := by
  induction k generalizing s fuel with
  | zero => exact ⟨s, runSteps_of_halted (halted_iff.mpr hk.ge) fuel, rfl, hk⟩
  | succ k ih =>
    have hh : halted s = false := halted_eq_false.mpr (by omega)
    obtain ⟨u, hu, hcu⟩ := exists_step_of_running hh
    obtain ⟨fuel, rfl⟩ := Nat.exists_eq_add_of_lt hfuel
    obtain ⟨t, hrun, hcore, hct⟩ := ih (s := u) (fuel := k + fuel) (by omega) (by omega)
    exact ⟨t, (runSteps_succ hh hu _).trans hrun, (core_run_succ hu k).trans hcore, hct⟩

/-- Settles O48: a core at or past the ceiling makes no step; any other makes the steps that are left. -/
theorem runEndsAtCeiling : Obligations.RunEndsAtCeiling := by
  intro s
  by_cases hs : Config.cycleCeiling ≤ s.cycles.toNat
  · refine ⟨s, runSteps_of_halted (halted_iff.mpr hs) _, ?_, fun hle => le_antisymm hle hs, fun _ => rfl⟩
    rw [Nat.sub_eq_zero_of_le hs]
    rfl
  · obtain ⟨t, hrun, hcore, hct⟩ := runSteps_eq_core_run (s := s) (fuel := Config.cycleCeiling)
      (Nat.add_sub_of_le (not_le.mp hs).le) (Nat.sub_le _ _)
    exact ⟨t, hrun, hcore, fun _ => hct, fun h => absurd h hs⟩

end Sys2Proof.Machine
end

section
/-! SUPPORT. What the word operations of the register instructions compute, as numbers (41_rtype.md R136 to R142), and
the form in which an instruction that writes its register is claimed. The immediate forms compute the same. -/

namespace Sys2Proof.Machine

variable (a b : Word) (n : Nat)

theorem sub_eq_ofInt : a - b = BitVec.ofInt 32 (a.toInt - b.toInt) := by
  rw [BitVec.sub_eq_add_neg, Int.sub_eq_add_neg, BitVec.ofInt_add, BitVec.ofInt_neg, BitVec.ofInt_toInt,
    BitVec.ofInt_toInt]

theorem shiftLeft_eq_ofNat : a <<< n = BitVec.ofNat 32 (a.toNat * 2 ^ n) := by
  apply BitVec.eq_of_toNat_eq
  rw [BitVec.toNat_shiftLeft, Nat.shiftLeft_eq, BitVec.toNat_ofNat]

theorem ushiftRight_eq_ofNat : a >>> n = BitVec.ofNat 32 (a.toNat / 2 ^ n) := by
  rw [← Nat.shiftRight_eq_div_pow, ← BitVec.toNat_ushiftRight, BitVec.ofNat_toNat, BitVec.setWidth_eq]

/-- Division by a power of two towards minus infinity, as `Int` divides by a positive number. -/
theorem sshiftRight_eq_ofInt : a.sshiftRight n = BitVec.ofInt 32 (a.toInt / 2 ^ n) := by
  rw [BitVec.sshiftRight, Int.shiftRight_eq_div_pow, Nat.cast_pow, Nat.cast_ofNat]

/-- The low five bits are the number modulo 32 (R137). -/
theorem shiftAmount_eq_mod : shiftAmount b = b.toNat % 32 := by
  rw [shiftAmount, BitVec.extractLsb'_toNat, Nat.shiftRight_zero]

theorem boolWord_lessSigned : boolWord (lessSigned a b) = if a.toInt < b.toInt then 1 else 0 := by
  simp only [boolWord, lessSigned, BitVec.slt_iff_toInt_lt]; rfl

theorem boolWord_lessUnsigned : boolWord (lessUnsigned a b) = if a.toNat < b.toNat then 1 else 0 := by
  simp only [boolWord, lessUnsigned, BitVec.ult_iff_lt, BitVec.lt_def]; rfl

/-- An instruction that writes its register and goes on does so with any expression of the value it writes. -/
theorem exists_next_writesRegister {i : Instr} {s : State} {rd : RegIdx} {v v' : Word}
    (h : exec i s = .next (writeAndAdvance s rd v)) (hv : v = v') :
    ∃ t, exec i s = .next t ∧ WritesRegister s t rd v' (s.pc + 4) :=
  ⟨_, h, hv ▸ writeAndAdvance_writesRegister s rd v⟩

end Sys2Proof.Machine
end

section
/-! PROOFS. R-type instructions: O7 to O10. -/

namespace Sys2Proof.Machine

/-- Settles O7: addition and subtraction of words are those of their values modulo 2^32. -/
theorem addSub : Obligations.AddSub :=
  ⟨fun _ _ _ _ => exists_next_writesRegister (exec_add ..) (BitVec.add_def _ _),
    fun _ _ _ _ => exists_next_writesRegister (exec_sub ..) (sub_eq_ofInt _ _),
    selectedBy_of_row (r := ⟨.add, _, _⟩) (by decide), selectedBy_of_row (r := ⟨.sub, _, _⟩) (by decide),
    by decide, by decide⟩

/-- Settles O8: each shift is by the low five bits of the second register, and is a product or a quotient. -/
theorem registerShifts : Obligations.RegisterShifts := by
  refine ⟨fun s rd rs1 rs2 => exists_next_writesRegister (exec_sll ..) ?_,
    fun s rd rs1 rs2 => exists_next_writesRegister (exec_srl ..) ?_,
    fun s rd rs1 rs2 => exists_next_writesRegister (exec_sra ..) ?_,
    selectedBy_of_row (r := ⟨.sll, _, _⟩) (by decide), selectedBy_of_row (r := ⟨.srl, _, _⟩) (by decide),
    selectedBy_of_row (r := ⟨.sra, _, _⟩) (by decide), by decide, by decide, by decide⟩
  · rw [shiftLeft_eq_ofNat, shiftAmount_eq_mod]
  · rw [ushiftRight_eq_ofNat, shiftAmount_eq_mod]
  · rw [sshiftRight_eq_ofInt, shiftAmount_eq_mod]

/-- Settles O9: the comparisons of words are the orders of their values. -/
theorem registerCompares : Obligations.RegisterCompares :=
  ⟨fun _ _ _ _ => exists_next_writesRegister (exec_slt ..) (boolWord_lessSigned _ _),
    fun _ _ _ _ => exists_next_writesRegister (exec_sltu ..) (boolWord_lessUnsigned _ _),
    selectedBy_of_row (r := ⟨.slt, _, _⟩) (by decide), selectedBy_of_row (r := ⟨.sltu, _, _⟩) (by decide),
    by decide, by decide⟩

/-- Settles O10: a bit of the word written depends on the operands' bits of that place only. -/
theorem registerLogic : Obligations.RegisterLogic :=
  ⟨fun s rd _ _ => ⟨_, _, exec_xor .., writeAndAdvance_writesRegister s rd _, fun _ => BitVec.getLsbD_xor⟩,
    fun s rd _ _ => ⟨_, _, exec_or .., writeAndAdvance_writesRegister s rd _, fun _ => BitVec.getLsbD_or⟩,
    fun s rd _ _ => ⟨_, _, exec_and .., writeAndAdvance_writesRegister s rd _, fun _ => BitVec.getLsbD_and⟩,
    selectedBy_of_row (r := ⟨.xor, _, _⟩) (by decide), selectedBy_of_row (r := ⟨.or, _, _⟩) (by decide),
    selectedBy_of_row (r := ⟨.and, _, _⟩) (by decide), by decide, by decide, by decide⟩

end Sys2Proof.Machine
end

section
/-! SUPPORT. The sign-extended 12-bit immediate as a number and bit by bit (30_encoding.md R56). -/

namespace Sys2Proof.Machine

variable (imm12 : BitVec 12)

theorem signImm12_toInt : (signImm12 imm12).toInt = imm12.toInt := BitVec.toInt_signExtend_of_le (by decide)

/-- Bits from 11 up are bit 11, the sign. -/
theorem getLsbD_signImm12 {k : Nat} (hk : k < 32) : (signImm12 imm12).getLsbD k = imm12.getLsbD (min k 11) := by
  rw [signImm12, BitVec.getLsbD_signExtend, decide_eq_true hk, Bool.true_and]
  split
  · rw [Nat.min_eq_left (by omega)]
  · rw [Nat.min_eq_right (by omega), BitVec.msb_eq_getLsbD_last]

end Sys2Proof.Machine
end

section
/-! PROOFS. I-type instructions: O11 to O14. -/

namespace Sys2Proof.Machine

/-- Settles O11: the sum written is the one of `effectiveAddress`, and a literal in range is its own immediate. -/
theorem addImmediate : Obligations.AddImmediate := by
  refine ⟨fun s _ rs1 imm12 => exists_next_writesRegister (exec_addi ..) (effectiveAddress s rs1 imm12),
    selectedBy_of_row (r := ⟨.addi, _, _⟩) (by decide), by decide, by decide, by decide, rfl, fun _ _ => rfl,
    fun rd v hlo hhi => ?_⟩
  have hv : (BitVec.ofInt 12 v).toInt = v := toInt_ofInt_12 ⟨hlo, hhi⟩
  refine ⟨?_, hv⟩
  rw [expand, expandLi_of_small ⟨hlo, hhi⟩, instrToken, hv]

/-- Settles O12: sign extension keeps the signed value, so only the unsigned order sees the extended word. -/
theorem immediateCompares : Obligations.ImmediateCompares := by
  refine ⟨fun s rd rs1 imm12 => exists_next_writesRegister (exec_slti ..) ?_,
    fun s rd rs1 imm12 => exists_next_writesRegister (exec_sltiu ..) (boolWord_lessUnsigned _ _),
    selectedBy_of_row (r := ⟨.slti, _, _⟩) (by decide), selectedBy_of_row (r := ⟨.sltiu, _, _⟩) (by decide),
    by decide, by decide, fun _ _ => rfl⟩
  rw [boolWord_lessSigned, signImm12_toInt]

/-- Settles O13: a bit of the word written depends on the bits of that place in the register and in the extended
immediate. -/
theorem immediateLogic : Obligations.ImmediateLogic := by
  refine ⟨fun s rd rs1 imm12 => ⟨_, _, exec_xori .., writeAndAdvance_writesRegister s rd _, fun k hk => ?_⟩,
    fun s rd rs1 imm12 => ⟨_, _, exec_ori .., writeAndAdvance_writesRegister s rd _, fun k hk => ?_⟩,
    fun s rd rs1 imm12 => ⟨_, _, exec_andi .., writeAndAdvance_writesRegister s rd _, fun k hk => ?_⟩,
    selectedBy_of_row (r := ⟨.xori, _, _⟩) (by decide), selectedBy_of_row (r := ⟨.ori, _, _⟩) (by decide),
    selectedBy_of_row (r := ⟨.andi, _, _⟩) (by decide), by decide, by decide, by decide, fun _ _ => rfl⟩
  · rw [BitVec.getLsbD_xor, getLsbD_signImm12 imm12 hk]
  · rw [BitVec.getLsbD_or, getLsbD_signImm12 imm12 hk]
  · rw [BitVec.getLsbD_and, getLsbD_signImm12 imm12 hk]

/-- Settles O14: the register shifts' products and quotients, by a shift amount that is the field itself. -/
theorem immediateShifts : Obligations.ImmediateShifts :=
  ⟨fun _ _ _ _ => exists_next_writesRegister (exec_slli ..) (shiftLeft_eq_ofNat _ _),
    fun _ _ _ _ => exists_next_writesRegister (exec_srli ..) (ushiftRight_eq_ofNat _ _),
    fun _ _ _ _ => exists_next_writesRegister (exec_srai ..) (sshiftRight_eq_ofInt _ _),
    selectedBy_of_row (r := ⟨.slli, _, _⟩) (by decide), selectedBy_of_row (r := ⟨.srli, _, _⟩) (by decide),
    selectedBy_of_row (r := ⟨.srai, _, _⟩) (by decide)⟩

end Sys2Proof.Machine
end

section
/-! SUPPORT. A load whose access is in range, and the bytes it reads as the value it writes (43_loads.md R155 to R160). -/

namespace Sys2Proof.Machine

/-- A load in range writes its register with the value read at the effective address, however that is expressed. -/
theorem exists_next_writesRegister_of_load {i : Instr} {s : State} {n : Nat} {value : State → Word → Word}
    {rd rs1 : RegIdx} {imm12 : BitVec 12} {v : Word} (h : exec i s = loadWith s n value rd rs1 imm12)
    (hr : (effAddr s rs1 imm12).toNat + n ≤ s.memSize) (hv : value s (effAddr s rs1 imm12) = v) :
    ∃ t, exec i s = .next t ∧ WritesRegister s t rd v (s.pc + 4) :=
  exists_next_writesRegister (h.trans (loadWith_of_inRange hr value)) hv

variable (s : State) (a : Word)

/-- The sign-extended half-word, from its two bytes (R157). -/
theorem signExtend_memRead16 :
    (memRead16 s a).signExtend 32 = BitVec.ofInt 32 (readByte s (a.toNat + 1) ++ readByte s a.toNat).toInt := by
  rw [memRead16, BitVec.cast_eq, BitVec.signExtend]

/-- The zero-extended half-word, from its two bytes (R160). -/
theorem setWidth_memRead16 : (memRead16 s a).setWidth 32 =
    BitVec.ofNat 32 ((readByte s a.toNat).toNat + 2 ^ 8 * (readByte s (a.toNat + 1)).toNat) := by
  rw [← memRead16_toNat, BitVec.ofNat_toNat]

end Sys2Proof.Machine
end

section
/-! PROOFS. Loads in range, and the encodings of loads and stores: O16, O20. -/

namespace Sys2Proof.Machine

/-- Settles O16: each load's access is in range, and the value it writes is that of the bytes it reads. -/
theorem loadsInRange : Obligations.LoadsInRange := by
  rintro s rd rs1 imm12 _ rfl
  refine ⟨fun hr => exists_next_writesRegister_of_load (exec_lb ..) hr ?byte,
    fun hr => exists_next_writesRegister_of_load (exec_lh ..) hr (signExtend_memRead16 ..),
    fun hr => exists_next_writesRegister_of_load (exec_lw ..) hr (wordOfBytes_eq_ofNat ..),
    fun hr => exists_next_writesRegister_of_load (exec_lbu ..) hr ?unsignedByte,
    fun hr => exists_next_writesRegister_of_load (exec_lhu ..) hr (setWidth_memRead16 ..)⟩
  case byte => rw [memRead8, BitVec.signExtend]
  case unsignedByte => rw [memRead8, BitVec.ofNat_toNat]

/-- Settles O20: the eight are rows of the opcode table. -/
theorem loadStoreEncodings : Obligations.LoadStoreEncodings :=
  ⟨selectedBy_of_row (r := ⟨.lb, _, _⟩) (by decide), selectedBy_of_row (r := ⟨.lh, _, _⟩) (by decide),
    selectedBy_of_row (r := ⟨.lw, _, _⟩) (by decide), selectedBy_of_row (r := ⟨.lbu, _, _⟩) (by decide),
    selectedBy_of_row (r := ⟨.lhu, _, _⟩) (by decide), selectedBy_of_row (r := ⟨.sb, _, _⟩) (by decide),
    selectedBy_of_row (r := ⟨.sh, _, _⟩) (by decide), selectedBy_of_row (r := ⟨.sw, _, _⟩) (by decide)⟩

end Sys2Proof.Machine
end

section
/-! PROOFS. Stores in range: O18 (44_stores.md R161 to R164). -/

namespace Sys2Proof.Machine

/-- A store in range whose write places the bytes `bs` stores them at the effective address (R39, R161). -/
theorem exists_next_storesBytes_of_store {i : Instr} {s : State} {n : Nat} {write : State → Word → Word → State}
    {rs1 rs2 : RegIdx} {imm12 : BitVec 12} {bs : List Byte} (hm : Memory.wf s.mem = true)
    (h : exec i s = storeWith s n write rs1 rs2 imm12) (hr : (effAddr s rs1 imm12).toNat + n ≤ s.memSize)
    (hw : write s (effAddr s rs1 imm12) (readReg s rs2) = writeBytes s (effAddr s rs1 imm12).toNat bs) :
    ∃ t, exec i s = .next t ∧ StoresBytes s t (effAddr s rs1 imm12).toNat bs := by
  refine ⟨_, h.trans (storeWith_of_inRange hr write), ?_⟩
  rw [hw]
  exact writeBytes_storesBytes hm _ bs

/-- Settles O18: each store's access is in range, and its bytes are those of the source register, the least significant
first. -/
theorem storesInRange : Obligations.StoresInRange := by
  rintro s rs1 rs2 imm12 _ hm rfl
  exact ⟨fun hr => exists_next_storesBytes_of_store hm (exec_sb ..) hr rfl,
    fun hr => exists_next_storesBytes_of_store hm (exec_sh ..) hr rfl,
    fun hr => exists_next_storesBytes_of_store hm (exec_sw ..) hr rfl⟩

end Sys2Proof.Machine
end

section
/-! SUPPORT. What the branch target and the comparisons of words say as numbers (45_branches.md R165 to R171), and the
form in which a branch is claimed. -/

namespace Sys2Proof.Machine

/-- The offset is added as a signed number modulo 2^32 (R165). -/
theorem branchTarget_eq_ofInt (s : State) (imm13 : BitVec 13) :
    branchTarget s imm13 = BitVec.ofInt 32 (s.pc.toNat + imm13.toInt) := by
  rw [branchTarget, signImm13, BitVec.signExtend, BitVec.ofInt_add, BitVec.ofInt_natCast, BitVec.ofNat_toNat,
    BitVec.setWidth_eq]

/-- A branch whose condition decides `p` only advances, to its target if `p` and else by 4. -/
theorem exists_next_onlyAdvances_of_branch {i : Instr} {s : State} {c : Bool} {p : Prop} [Decidable p]
    {imm13 : BitVec 13} (h : exec i s = .next (finish s (if c then branchTarget s imm13 else pcPlus4 s)))
    (hc : c = true ↔ p) :
    ∃ t, exec i s = .next t ∧
      OnlyAdvances s t (if p then BitVec.ofInt 32 (s.pc.toNat + imm13.toInt) else s.pc + 4) := by
  refine ⟨_, h, ?_⟩
  simp only [hc, branchTarget_eq_ofInt]
  exact finish_onlyAdvances s _

variable {a b : Word}

theorem lessSigned_iff : lessSigned a b = true ↔ a.toInt < b.toInt := BitVec.slt_iff_toInt_lt

theorem not_lessSigned_iff : (!lessSigned a b) = true ↔ a.toInt ≥ b.toInt := by
  rw [Bool.not_eq_true', ← Bool.not_eq_true, lessSigned_iff, not_lt]

theorem lessUnsigned_iff : lessUnsigned a b = true ↔ a.toNat < b.toNat := BitVec.ult_iff_lt

theorem not_lessUnsigned_iff : (!lessUnsigned a b) = true ↔ a.toNat ≥ b.toNat := by
  rw [Bool.not_eq_true', ← Bool.not_eq_true, lessUnsigned_iff, not_lt]

end Sys2Proof.Machine
end

section
/-! PROOFS. Branches: O26 to O28. -/

namespace Sys2Proof.Machine

/-- Settles O26: the Boolean equality of two registers' words decides their equality. -/
theorem branchEqual : Obligations.BranchEqual :=
  ⟨fun _ _ _ _ => exists_next_onlyAdvances_of_branch (exec_beq ..) beq_iff_eq,
    fun _ _ _ _ => exists_next_onlyAdvances_of_branch (exec_bne ..) bne_iff_ne,
    selectedBy_of_row (r := ⟨.beq, _, _⟩) (by decide), selectedBy_of_row (r := ⟨.bne, _, _⟩) (by decide)⟩

/-- Settles O27: the signed comparison of words is the order of their signed values, and `bge` negates it. -/
theorem branchSigned : Obligations.BranchSigned :=
  ⟨fun _ _ _ _ => exists_next_onlyAdvances_of_branch (exec_blt ..) lessSigned_iff,
    fun _ _ _ _ => exists_next_onlyAdvances_of_branch (exec_bge ..) not_lessSigned_iff,
    selectedBy_of_row (r := ⟨.blt, _, _⟩) (by decide), selectedBy_of_row (r := ⟨.bge, _, _⟩) (by decide)⟩

/-- Settles O28: the unsigned comparison of words is the order of their unsigned values, and `bgeu` negates it. -/
theorem branchUnsigned : Obligations.BranchUnsigned :=
  ⟨fun _ _ _ _ => exists_next_onlyAdvances_of_branch (exec_bltu ..) lessUnsigned_iff,
    fun _ _ _ _ => exists_next_onlyAdvances_of_branch (exec_bgeu ..) not_lessUnsigned_iff,
    selectedBy_of_row (r := ⟨.bltu, _, _⟩) (by decide), selectedBy_of_row (r := ⟨.bgeu, _, _⟩) (by decide)⟩

end Sys2Proof.Machine
end

section
/-! SUPPORT. What the jump targets say as numbers, and the form in which a jump is claimed (46_jumps.md R172, R173). -/

namespace Sys2Proof.Machine

/-- The offset is added as a signed number modulo 2^32 (R172). -/
theorem jalTarget_eq_ofInt (s : State) (imm21 : BitVec 21) :
    jalTarget s imm21 = BitVec.ofInt 32 (s.pc.toNat + imm21.toInt) := by
  rw [jalTarget, signImm21, BitVec.signExtend, BitVec.ofInt_add, BitVec.ofInt_natCast, BitVec.ofNat_toNat,
    BitVec.setWidth_eq]

/-- Clearing bit 0 rounds down to an even number: it shifts the bit out and a zero in. -/
theorem and_clearBit0_eq_ofNat (a : Word) : a &&& 0xFFFFFFFE#32 = BitVec.ofNat 32 (2 * (a.toNat / 2)) := by
  have hshift : a &&& 0xFFFFFFFE#32 = a >>> 1 <<< 1 := (BitVec.shiftLeft_ushiftRight (x := a) (n := 1)).symm
  rw [hshift, shiftLeft_eq_ofNat, BitVec.toNat_ushiftRight, Nat.shiftRight_eq_div_pow, Nat.mul_comm, pow_one]

/-- The sum is the one of `effectiveAddress`, with bit 0 cleared (R173). -/
theorem jalrTarget_eq_ofNat (s : State) (rs1 : RegIdx) (imm12 : BitVec 12) :
    jalrTarget s rs1 imm12 =
      BitVec.ofNat 32 (2 * ((BitVec.ofInt 32 ((readReg s rs1).toNat + imm12.toInt)).toNat / 2)) := by
  rw [jalrTarget, effectiveAddress s rs1 imm12, and_clearBit0_eq_ofNat]

/-- A jump links `pc + 4` modulo 2^32 and goes to any expression of its target. -/
theorem exists_next_writesRegister_of_jump {i : Instr} {s : State} {rd : RegIdx} {p p' : Word}
    (h : exec i s = .next (linkAndJump s rd p)) (hp : p = p') :
    ∃ t, exec i s = .next t ∧ WritesRegister s t rd (BitVec.ofNat 32 (s.pc.toNat + 4)) p' :=
  ⟨_, h, hp ▸ linkAndJump_writesRegister s rd p⟩

end Sys2Proof.Machine
end

section
/-! PROOFS. Jumps: O29, O30. -/

namespace Sys2Proof.Machine

/-- Settles O29: the target is the sum of `pc` and the signed offset as integers. -/
theorem jumpAndLink : Obligations.JumpAndLink :=
  ⟨fun s _ imm21 => exists_next_writesRegister_of_jump (exec_jal ..) (jalTarget_eq_ofInt s imm21),
    selectedBy_of_row (r := ⟨.jal, _, _⟩) (by decide)⟩

/-- Settles O30: the target is computed from the old registers, so `rd = rs1` is no case of its own. -/
theorem jumpAndLinkRegister : Obligations.JumpAndLinkRegister :=
  ⟨fun s _ rs1 imm12 => exists_next_writesRegister_of_jump (exec_jalr ..) (jalrTarget_eq_ofNat s rs1 imm12),
    selectedBy_of_row (r := ⟨.jalr, _, _⟩) (by decide)⟩

end Sys2Proof.Machine
end

section
/-! PROOFS. Upper immediates: O31, O32 (47_utype.md R175, R176). -/

namespace Sys2Proof.Machine

/-- The field over twelve zeros is the field times 2^12 (R175). -/
theorem upperImm_eq_ofNat (imm20 : BitVec 20) : upperImm imm20 = BitVec.ofNat 32 (imm20.toNat * 2 ^ 12) := by
  rw [upperImm_eq_ofInt, ← BitVec.ofInt_natCast, Nat.cast_mul]
  rfl

/-- Settles O31: the field is shifted up by twelve bits, and the two halves of a constant add up to it. -/
theorem loadUpper : Obligations.LoadUpper :=
  ⟨fun _ _ imm20 => exists_next_writesRegister (exec_lui ..) (upperImm_eq_ofNat imm20),
    selectedBy_of_row (r := ⟨.lui, _, _⟩) (by decide), by decide, by decide,
    fun _ _ c hrd => ⟨hiPart c, loPart c, execAll_lui_addi hrd c⟩⟩

theorem add_upperImm_eq_ofNat (a : Word) (imm20 : BitVec 20) :
    a + upperImm imm20 = BitVec.ofNat 32 (a.toNat + imm20.toNat * 2 ^ 12) := by
  rw [upperImm_eq_ofNat, BitVec.ofNat_add, BitVec.ofNat_toNat, BitVec.setWidth_eq]

/-- Settles O32: the sum is that of the instruction's address and the shifted field as numbers. -/
theorem addUpperToPc : Obligations.AddUpperToPc :=
  ⟨fun s _ imm20 => exists_next_writesRegister (exec_auipc ..) (add_upperImm_eq_ofNat s.pc imm20),
    selectedBy_of_row (r := ⟨.auipc, _, _⟩) (by decide), by decide⟩

end Sys2Proof.Machine
end

section
/-! SUPPORT. A cause of a warning decides the whole step, and a step without one records nothing (60_exceptions.md
R178, R180, R181). -/

namespace Sys2Proof.Machine

/-- A word that does not decode is reported as it is, and no row of the table selects it (R67, R70). -/
theorem no_row_of_decode_unknown {w u : Word} (h : decode w = .unknown u) :
    u = w ∧ ∀ r ∈ opcodeTable, w &&& r.mask ≠ r.pattern := by
  have hrows : ∀ r ∈ opcodeTable, w &&& r.mask ≠ r.pattern := fun r hr hs => by
    cases (decode_of_row hr hs).symm.trans h
  cases (decode_unknown_of_no_row hrows).symm.trans h
  exact ⟨rfl, hrows⟩

theorem fetch_eq_none_iff {s : State} : fetch s = none ↔ s.memSize < s.pc.toNat + 4 := by
  simp [fetch, inRange_iff]

theorem fetch_eq_some_iff {s : State} {w : Word} :
    fetch s = some w ↔ s.pc.toNat + 4 ≤ s.memSize ∧ memRead32 s s.pc = w := by
  simp [fetch, inRange_iff]

/-- An instruction records nothing, unless its access is out of range: then it is a warning step (R45, R46). -/
theorem exec_noWarning_or_outOfRange {i : Instr} {s t : State} (h : exec i s = .next t) :
    NoWarning s t ∨
      ∃ ea n, accessOf i s = some (ea, n) ∧ s.memSize < ea.toNat + n ∧ t = warnStep s (.access ea) := by
  cases exec_shape i s with
  | writes rd v _ _ _ he => cases he.symm.trans h; left; simp [NoWarning]
  | moves p _ _ _ he => cases he.symm.trans h; exact .inl rfl
  | links rd p _ _ _ he => cases he.symm.trans h; left; simp [NoWarning]
  | stores ea bs _ _ _ _ he => cases he.symm.trans h; exact .inl rfl
  | warns ea n ha hr _ he => cases he.symm.trans h; exact .inr ⟨ea, n, ha, inRange_eq_false.mp hr, rfl⟩

theorem step_of_warningCause {s : State} {w : Warning} (h : WarningCause s w) : step s = .next (warnStep s w) := by
  cases w with
  | fetch =>
    obtain ⟨hc, hr⟩ := h
    exact step_of_fetch_none (halted_eq_false.mpr hc) (fetch_eq_none hr)
  | decode u =>
    obtain ⟨hc, hr, rfl, hrows⟩ := h
    exact step_of_decode_unknown (halted_eq_false.mpr hc) (fetch_eq_memRead32 hr) (decode_unknown_of_no_row hrows)
  | access ea =>
    obtain ⟨hc, hr, i, n, hd, ha, hout⟩ := h
    exact (step_of_decode_instr (halted_eq_false.mpr hc) (fetch_eq_memRead32 hr) hd).trans
      (exec_of_access_outOfRange ha hout)

theorem step_noWarning_or_warningCause {s t : State} (h : step s = .next t) :
    NoWarning s t ∨ ∃ w, WarningCause s w ∧ t = warnStep s w := by
  obtain ⟨-, hs⟩ | ⟨hh, hf, hs⟩ | ⟨w, u, hh, hf, hd, hs⟩ | ⟨w, i, hh, hf, hd, hs⟩ := step_cases s
  · cases hs.symm.trans h
    exact .inl rfl
  · cases hs.symm.trans h
    exact .inr ⟨.fetch, ⟨halted_eq_false.mp hh, fetch_eq_none_iff.mp hf⟩, rfl⟩
  · cases hs.symm.trans h
    obtain ⟨hr, rfl⟩ := fetch_eq_some_iff.mp hf
    obtain ⟨rfl, hrows⟩ := no_row_of_decode_unknown hd
    exact .inr ⟨.decode _, ⟨halted_eq_false.mp hh, hr, rfl, hrows⟩, rfl⟩
  · obtain ⟨hr, rfl⟩ := fetch_eq_some_iff.mp hf
    exact (exec_noWarning_or_outOfRange (hs.symm.trans h)).imp_right fun ⟨ea, n, ha, hout, ht⟩ =>
      ⟨.access ea, ⟨halted_eq_false.mp hh, hr, i, n, hd, ha, hout⟩, ht⟩

theorem warnStep_injective (s : State) : Function.Injective (warnStep s) := by
  intro w w' h
  have hrecord : s.warnings ++ [⟨s.cycles, s.pc, w⟩] = s.warnings ++ [⟨s.cycles, s.pc, w'⟩] :=
    congrArg State.warnings h
  simpa using hrecord

theorem not_noWarning_warnStep (s : State) (w : Warning) : ¬ NoWarning s (warnStep s w) := by
  simp [NoWarning]

end Sys2Proof.Machine
end

section
/-! PROOFS. No traps, and one warning at most: O36, O41. -/

namespace Sys2Proof.Machine

/-- Settles O36: every state steps; a running step goes on or to its instruction's target, a halted one stays. -/
theorem noTraps : Obligations.NoTraps := by
  intro s
  obtain ⟨t, ht⟩ := step_total s
  refine ⟨t, ht, fun hc => step_pc (halted_eq_false.mpr hc) ht, fun hc => ?_⟩
  cases (step_of_halted (halted_iff.mpr hc)).symm.trans ht
  rfl

/-- Settles O41: a cause makes the step the warning step of that cause, whose entry names it; so no step without an
entry has a cause, and two causes of one step are one. -/
theorem oneWarningPerStep : Obligations.OneWarningPerStep := by
  refine ⟨fun s t h => ?_, fun s w w' hw hw' => ?_⟩
  · obtain hno | ⟨w, hw, rfl⟩ := step_noWarning_or_warningCause h
    · refine .inl ⟨hno, fun w hw => not_noWarning_warnStep s w ?_⟩
      cases (step_of_warningCause hw).symm.trans h
      exact hno
    · exact .inr ⟨w, hw, warnStep_onlyWarns s w⟩
  · have hstep := (step_of_warningCause hw).symm.trans (step_of_warningCause hw')
    exact warnStep_injective s (Host.Outcome.next.inj hstep)

end Sys2Proof.Machine
end

section
/-! PROOFS. Reset and program load: O49 to O51 (70_reset_and_hazards.md R193 to R196). -/

namespace Sys2Proof.Machine

/-- Registers as at construction all read as 0 (R35). -/
theorem readReg_of_zero_regs {t : State} (h : t.regs = Vector.replicate 32 0#32) (r : RegIdx) : readReg t r = 0 := by
  simp [readReg, h]

/-- Settles O49: a reset state is the constructed one of the same size, which depends on the size alone. -/
theorem resetZeroes : Obligations.ResetZeroes :=
  ⟨fun _ => ⟨_, rfl, readReg_of_zero_regs rfl, fun _ => rfl, rfl, rfl, rfl, rfl⟩, fun _ => rfl, fun _ => rfl⟩

theorem loadProgram_of_fits {s : State} {words : List Word} (h : 4 * words.length ≤ s.memSize) :
    loadProgram words s =
      .next { State.construct s.memSize with mem := Memory.writeList s.mem 0 (programBytes words) } := if_pos h

theorem loadProgram_of_tooLarge {s : State} {words : List Word} (h : s.memSize < 4 * words.length) :
    loadProgram words s = .refused (.programTooLarge words.length) := if_neg (not_le.mpr h)

/-- The bytes from the program's end on stay (R195). -/
theorem read_writeList_programBytes {m : Memory} (hm : Memory.wf m = true) {words : List Word} {a : Nat}
    (ha : 4 * words.length ≤ a) : Memory.read (Memory.writeList m 0 (programBytes words)) a = Memory.read m a := by
  have hnone : (programBytes words)[a]? = none := List.getElem?_eq_none (by simpa using ha)
  simp [Memory.read_writeList hm, hnone]

/-- Settles O50: a program that fits is loaded over a constructed core that keeps its memory. -/
theorem loadProgramEffect : Obligations.LoadProgramEffect := by
  intro s words hm hfit
  have hload := loadProgram_of_fits hfit
  exact ⟨_, hload, readReg_of_zero_regs rfl, rfl, rfl, rfl, rfl,
    fun _ _ j hw hj => loadProgram_holdsWord hm hload hw j hj, fun _ => read_writeList_programBytes hm⟩

/-- Settles O51: the refusal answers no state, so the state stays. -/
theorem loadProgramTooLarge : Obligations.LoadProgramTooLarge := by
  intro s words h
  have hrefused : command (.loadProgram words) s = .refused (.programTooLarge words.length) :=
    loadProgram_of_tooLarge h
  exact ⟨hrefused, by rw [afterCommand, hrefused]⟩

end Sys2Proof.Machine
end
